-- ==== Sys2Proof/Word.lean ====
section
/-!
DEFINITION. The word types of the MDIO Clause-22 framer: what the spec treats as bits (00_scope R10, R11).
-/

namespace Sys2Proof

/-- A byte of the model's record form (30_encoding R109, decision D13: the model's syntax layer only). -/
abbrev Byte := BitVec 8

/-- A PHY register's value: one 16-bit unit without byte order (00_scope R10 REG_WIDTH, 20_memory R75). -/
abbrev Word := BitVec 16

/-- A PHY address or a wire register address (00_scope R10 PHY_ADDR_BITS, REG_ADDR_BITS). -/
abbrev Addr5 := BitVec 5

/-- A drive word: CLK is bit 0, OE bit 1, DO bit 2 (10_state R41). -/
abbrev DriveWord := BitVec 3

end Sys2Proof
end

