-- ==== Sys2Proof/Syntax.lean ====
section
/-!
DEFINITION. The instructions: one constructor per row of spec/opcode_table.json. Request arguments are unbounded naturals
(30_encoding R109), so that an out-of-range value can be written down and shown to be refused. `caller` is the record's caller.
-/

namespace Sys2Proof

/-- A field map F: field name to value, written with no name twice (30_encoding R109). -/
abbrev FieldMap := List (String × Nat)

/-- A FieldView: a register-model address and the 16-bit word read (10_state R45). -/
structure FieldView where
  addr : Nat
  word : Word
  deriving DecidableEq, Repr

/-- One constructor per row of the opcode table. -/
inductive Instr where
  -- wire frames (30_encoding R101 to R103)
  | cl22WriteFrame (caller : Nat) (phy reg : Addr5) (data : Word)
  | cl22ReadFrame (caller : Nat) (phy reg : Addr5)
  -- request selectors (30_encoding R109)
  | invalid0 (caller : Nat)
  | defineRegister (caller addr : Nat) (width : Option Nat) (name : Option String)
  | defineField (caller addr : Nat) (name : String) (off w : Nat)
  | freeze (caller : Nat)
  | lookup (caller addr : Nat)
  | pack (caller addr : Nat) (F : FieldMap) (base : Option Nat)
  | unpack (caller addr word : Nat)
  | viewGet (caller : Nat) (view : FieldView) (name : String)
  | viewFields (caller : Nat) (view : FieldView)
  | reverse (caller v n : Nat)
  | mdioWrite (caller phy reg data : Nat)
  | mdioRead (caller phy reg : Nat)
  | readRegister (caller phy addr : Nat)
  | writeRegister (caller phy addr : Nat) (F : FieldMap) (base : Option FieldView)
  | reset (caller phy : Nat)
  | invalidF (caller : Nat)
  -- transport actions (41_bitbang R191)
  | drive (w : DriveWord)
  | sample
  | delay
  -- bit symbols and composites (30_encoding R108, 41_bitbang R202, R204)
  | writeBit (v e : Bool)
  | readBit
  | release
  | relc
  | shiftOut (v n : Nat) (e : Bool)
  | shiftIn
  deriving DecidableEq, Repr

end Sys2Proof
end

