-- ==== Sys2Proof/WellFormed.lean ====
section
/-!
DEFINITION. Which instructions are well formed. Widths are in the types; what is left is that a field map is a map:
no field name stands in it twice (30_encoding R109 "finite map").
-/

namespace Sys2Proof

/-- No field name stands twice: the list is a finite map (30_encoding R109). -/
def FieldMap.isMap : FieldMap → Bool
  | [] => true
  | (n, _) :: rest => !(rest.any fun e => e.1 == n) && FieldMap.isMap rest

/-- The well-formedness check of an instruction. -/
def Instr.wf : Instr → Bool
  | .pack _ _ F _ => FieldMap.isMap F
  | .writeRegister _ _ _ F _ => FieldMap.isMap F
  | .cl22WriteFrame _ _ _ _ => true
  | .cl22ReadFrame _ _ _ => true
  | .invalid0 _ => true
  | .defineRegister _ _ _ _ => true
  | .defineField _ _ _ _ _ => true
  | .freeze _ => true
  | .lookup _ _ => true
  | .unpack _ _ _ => true
  | .viewGet _ _ _ => true
  | .viewFields _ _ => true
  | .reverse _ _ _ => true
  | .mdioWrite _ _ _ _ => true
  | .mdioRead _ _ _ => true
  | .readRegister _ _ _ => true
  | .reset _ _ => true
  | .invalidF _ => true
  | .drive _ => true
  | .sample => true
  | .delay => true
  | .writeBit _ _ => true
  | .readBit => true
  | .release => true
  | .relc => true
  | .shiftOut _ _ _ => true
  | .shiftIn => true

/-- The instruction that an instruction's words name: WRITE_BIT(0, 0) and RELEASE are one word (41_bitbang R197, R200). -/
def Instr.canon : Instr → Instr
  | .writeBit false false => .release
  | i => i

end Sys2Proof
end

