-- ==== Sys2Proof/Decode.lean ====
section
/-!
DEFINITION. The decoder, total on any bytes, and the encoder.

The bits of a row are the opcode table's (30_encoding R103, R108, R109; 41_bitbang R191), laid out as bytes in transmission
order: the bit sent first is the highest bit of the first byte. The spec gives requests no binary form beyond the selector
(R109, decision D13); the bytes of the operands, and the high half of the first byte of the short rows, are the model's own
(log entry 7): 0 before a request selector, 2 before an action code, 3 before a composite.
-/

namespace Sys2Proof

/-- Why bytes spell no instruction. -/
inductive DecodeError where
  | truncated                  -- the bytes end inside an instruction
  | reservedCode (b : Byte)    -- no row's first byte
  | reservedAction (b : Byte)  -- an action code other than `1www`, `0001`, `0000` (41_bitbang R191)
  | brokenSymbol               -- the bytes of no bit symbol of 30_encoding R108
  | reservedFrame              -- ST, OP or TA other than the two Clause-22 frames (30_encoding R110)
  | badTag (b : Byte)          -- an optional operand's or a bit's first byte is not 0 or 1
  | badChar (n : Nat)          -- no character of a name
  | wordTooWide (n : Nat)      -- a view's word above 0xFFFF (10_state R45)
  | repeatedName               -- a field map with a name twice
  | trailingBytes              -- a record goes on after its last operand
  deriving DecidableEq, Repr

/-- What a parser answers: a value and the bytes after it. -/
abbrev Parse (α : Type) := Except DecodeError (α × List Byte)

def parseThen {α β : Type} (p : Parse α) (f : α → List Byte → Parse β) : Parse β :=
  match p with
  | .ok (a, rest) => f a rest
  | .error e => .error e

/-- A natural of any size, seven bits a byte, least significant first; the top bit says that another byte follows. -/
def parseNat : List Byte → Parse Nat
  | [] => .error .truncated
  | b :: bs =>
    if b.toNat < 128 then .ok (b.toNat, bs)
    else parseThen (parseNat bs) fun n rest => .ok (b.toNat - 128 + 128 * n, rest)

def encodeNatWith : Nat → Nat → List Byte
  | 0, n => [BitVec.ofNat 8 n]
  | fuel + 1, n =>
    if n < 128 then [BitVec.ofNat 8 n]
    else BitVec.ofNat 8 (128 + n % 128) :: encodeNatWith fuel (n / 128)

def encodeNat (n : Nat) : List Byte := encodeNatWith n n

def parseBool : List Byte → Parse Bool
  | [] => .error .truncated
  | b :: bs => if b = 0 then .ok (false, bs) else if b = 1 then .ok (true, bs) else .error (.badTag b)

def encodeBool (b : Bool) : List Byte := if b then [1] else [0]

def parseOption {α : Type} (p : List Byte → Parse α) : List Byte → Parse (Option α)
  | [] => .error .truncated
  | b :: bs =>
    if b = 0 then .ok (none, bs)
    else if b = 1 then parseThen (p bs) fun a rest => .ok (some a, rest)
    else .error (.badTag b)

def encodeOption {α : Type} (e : α → List Byte) : Option α → List Byte
  | none => [0]
  | some a => 1 :: e a

def parseTimes {α : Type} (p : List Byte → Parse α) : Nat → List Byte → Parse (List α)
  | 0, bs => .ok ([], bs)
  | n + 1, bs =>
    parseThen (p bs) fun a rest => parseThen (parseTimes p n rest) fun l rest' => .ok (a :: l, rest')

def parseList {α : Type} (p : List Byte → Parse α) (bs : List Byte) : Parse (List α) :=
  parseThen (parseNat bs) fun n rest => parseTimes p n rest

def encodeItems {α : Type} (e : α → List Byte) : List α → List Byte
  | [] => []
  | a :: l => e a ++ encodeItems e l

def encodeList {α : Type} (e : α → List Byte) (l : List α) : List Byte :=
  encodeNat l.length ++ encodeItems e l

def parseChar (bs : List Byte) : Parse Char :=
  parseThen (parseNat bs) fun n rest =>
    if n.isValidChar then .ok (Char.ofNat n, rest) else .error (.badChar n)

def encodeChar (c : Char) : List Byte := encodeNat c.toNat

def parseName (bs : List Byte) : Parse String :=
  parseThen (parseList parseChar bs) fun cs rest => .ok (String.ofList cs, rest)

def encodeName (s : String) : List Byte := encodeList encodeChar s.toList

def parseEntry (bs : List Byte) : Parse (String × Nat) :=
  parseThen (parseName bs) fun n rest => parseThen (parseNat rest) fun v rest' => .ok ((n, v), rest')

def encodeEntry (e : String × Nat) : List Byte := encodeName e.1 ++ encodeNat e.2

/-- A field map; one with a name twice is not a map (30_encoding R109). -/
def parseFieldMap (bs : List Byte) : Parse FieldMap :=
  parseThen (parseList parseEntry bs) fun F rest =>
    if FieldMap.isMap F then .ok (F, rest) else .error .repeatedName

def encodeFieldMap (F : FieldMap) : List Byte := encodeList encodeEntry F

def parseView (bs : List Byte) : Parse FieldView :=
  parseThen (parseNat bs) fun a rest => parseThen (parseNat rest) fun w rest' =>
    if w < 65536 then .ok (⟨a, BitVec.ofNat 16 w⟩, rest') else .error (.wordTooWide w)

def encodeView (v : FieldView) : List Byte := encodeNat v.addr ++ encodeNat v.word.toNat

/-- A request record after its selector: the caller, then the arguments in the order of 30_encoding R109. -/
def parseRequest (sel : Nat) (bs : List Byte) : Parse Instr :=
  parseThen (parseNat bs) fun c bs =>
  match sel with
  | 0 => .ok (.invalid0 c, bs)
  | 1 =>
    parseThen (parseNat bs) fun a bs => parseThen (parseOption parseNat bs) fun w bs =>
    parseThen (parseOption parseName bs) fun n bs => .ok (.defineRegister c a w n, bs)
  | 2 =>
    parseThen (parseNat bs) fun a bs => parseThen (parseName bs) fun n bs =>
    parseThen (parseNat bs) fun off bs => parseThen (parseNat bs) fun w bs => .ok (.defineField c a n off w, bs)
  | 3 => .ok (.freeze c, bs)
  | 4 => parseThen (parseNat bs) fun a bs => .ok (.lookup c a, bs)
  | 5 =>
    parseThen (parseNat bs) fun a bs => parseThen (parseFieldMap bs) fun F bs =>
    parseThen (parseOption parseNat bs) fun base bs => .ok (.pack c a F base, bs)
  | 6 => parseThen (parseNat bs) fun a bs => parseThen (parseNat bs) fun w bs => .ok (.unpack c a w, bs)
  | 7 => parseThen (parseView bs) fun v bs => parseThen (parseName bs) fun n bs => .ok (.viewGet c v n, bs)
  | 8 => parseThen (parseView bs) fun v bs => .ok (.viewFields c v, bs)
  | 9 => parseThen (parseNat bs) fun v bs => parseThen (parseNat bs) fun n bs => .ok (.reverse c v n, bs)
  | 10 =>
    parseThen (parseNat bs) fun p bs => parseThen (parseNat bs) fun r bs =>
    parseThen (parseNat bs) fun d bs => .ok (.mdioWrite c p r d, bs)
  | 11 => parseThen (parseNat bs) fun p bs => parseThen (parseNat bs) fun r bs => .ok (.mdioRead c p r, bs)
  | 12 => parseThen (parseNat bs) fun p bs => parseThen (parseNat bs) fun a bs => .ok (.readRegister c p a, bs)
  | 13 =>
    parseThen (parseNat bs) fun p bs => parseThen (parseNat bs) fun a bs =>
    parseThen (parseFieldMap bs) fun F bs => parseThen (parseOption parseView bs) fun base bs =>
    .ok (.writeRegister c p a F base, bs)
  | 14 => parseThen (parseNat bs) fun p bs => .ok (.reset c p, bs)
  | _ => .ok (.invalidF c, bs)

/-- A transport action's 4-bit code in the low half of the byte (41_bitbang R191). -/
def parseAction (b : Byte) (bs : List Byte) : Parse Instr :=
  if b.getLsbD 3 then .ok (.drive (b.extractLsb' 0 3), bs)
  else if b.extractLsb' 0 4 = 1#4 then .ok (.sample, bs)
  else if b.extractLsb' 0 4 = 0#4 then .ok (.delay, bs)
  else .error (.reservedAction b)

/-- The bit symbols whose first action is a Drive (30_encoding R108): RELEASE, RELC, WRITE_BIT. -/
def parseDriveSymbol (b0 : Byte) : List Byte → Parse Instr
  | b1 :: b2 :: bs =>
    if b0 = 0x80 ∧ b1 = 0x90 ∧ b2 = 0x80 then .ok (.release, bs)
    else if b0 = 0x80 ∧ b1 = 0x10 ∧ b2 = 0x90 then
      match bs with
      | b3 :: rest => if b3 = 0x80 then .ok (.relc, rest) else .error .brokenSymbol
      | [] => .error .truncated
    else if b0 &&& 0x1F = 0 ∧ b1 = b0 ||| 0x10 ∧ b2 = b0 then .ok (.writeBit (b0.getLsbD 6) (b0.getLsbD 5), bs)
    else .error .brokenSymbol
  | _ => .error .truncated

/-- READ_BIT, the one symbol whose first action is a Sample (41_bitbang R198). -/
def parseReadBit : List Byte → Parse Instr
  | b1 :: b2 :: bs => if b1 = 0x90 ∧ b2 = 0x80 then .ok (.readBit, bs) else .error .brokenSymbol
  | _ => .error .truncated

/-- The composites, which the table gives no fixed-width word: code 0 is SHIFT_OUT, code 1 SHIFT_IN. -/
def parseComposite (code : Nat) (b : Byte) (bs : List Byte) : Parse Instr :=
  match code with
  | 0 =>
    parseThen (parseNat bs) fun v bs => parseThen (parseNat bs) fun n bs =>
    parseThen (parseBool bs) fun e bs => .ok (.shiftOut v n e, bs)
  | 1 => .ok (.shiftIn, bs)
  | _ => .error (.reservedCode b)

/-- A frame word F from its eight bytes in transmission order: bit 63 is sent first (30_encoding R103). -/
def frameOfBytes (b0 b1 b2 b3 b4 b5 b6 b7 : Byte) : BitVec 64 :=
  b0 ++ b1 ++ b2 ++ b3 ++ b4 ++ b5 ++ b6 ++ b7

def frameBytes (F : BitVec 64) : List Byte :=
  [F.extractLsb' 56 8, F.extractLsb' 48 8, F.extractLsb' 40 8, F.extractLsb' 32 8,
   F.extractLsb' 24 8, F.extractLsb' 16 8, F.extractLsb' 8 8, F.extractLsb' 0 8]

/-- 30_encoding R103: the write frame's match and mask. -/
def isWriteFrame (F : BitVec 64) : Bool := F &&& 0xFFFFFFFFF0030000#64 == 0xFFFFFFFF50020000#64

/-- 30_encoding R103: the match and mask of a read's master-driven part. -/
def isReadFrame (F : BitVec 64) : Bool := F &&& 0xFFFFFFFFF0000000#64 == 0xFFFFFFFF60000000#64

/-- 30_encoding R103: the write frame word. -/
def writeFrameWord (phy reg : Addr5) (data : Word) : BitVec 64 :=
  0xFFFFFFFF#32 ++ (0b0101#4 ++ phy ++ reg ++ 0b10#2 ++ data)

/-- 30_encoding R103 with the positions the block does not drive taken as 0 (95 section 0, "Frame word"). -/
def readFrameWord (phy reg : Addr5) : BitVec 64 :=
  0xFFFFFFFF#32 ++ (0b0110#4 ++ phy ++ reg ++ 0#18)

/-- A frame record after its first byte: the rest of the frame word, then the caller. -/
def parseFrame (b0 : Byte) : List Byte → Parse Instr
  | b1 :: b2 :: b3 :: b4 :: b5 :: b6 :: b7 :: bs =>
    let F := frameOfBytes b0 b1 b2 b3 b4 b5 b6 b7
    if isWriteFrame F then
      parseThen (parseNat bs) fun c rest =>
        .ok (.cl22WriteFrame c (F.extractLsb' 23 5) (F.extractLsb' 18 5) (F.extractLsb' 0 16), rest)
    else if isReadFrame F then
      parseThen (parseNat bs) fun c rest => .ok (.cl22ReadFrame c (F.extractLsb' 23 5) (F.extractLsb' 18 5), rest)
    else .error .reservedFrame
  | _ => .error .truncated

/-- The decoder: the instruction at the head of the bytes and the bytes after it. -/
def decode : List Byte → Parse Instr
  | [] => .error .truncated
  | b :: bs =>
    match b.toNat / 16 with
    | 0 => parseRequest (b.toNat % 16) bs
    | 1 => if b.toNat % 16 = 0 then parseReadBit bs else .error (.reservedCode b)
    | 2 => parseAction b bs
    | 3 => parseComposite (b.toNat % 16) b bs
    | 15 => if b.toNat % 16 = 15 then parseFrame b bs else .error (.reservedCode b)
    | n => if 8 ≤ n then parseDriveSymbol b bs else .error (.reservedCode b)

/-- A record is one instruction; only zero bytes may pad it (30_encoding R109, 60_exceptions R321 "argument shape"). -/
def decodeRecord (bs : List Byte) : Except DecodeError Instr :=
  match decode bs with
  | .ok (i, rest) => if rest.all (· == 0) then .ok i else .error .trailingBytes
  | .error e => .error e

/-- The first byte of WRITE_BIT(v, e): the action `1ve0`, then Delay (41_bitbang R196). -/
def writeBitByte (v e : Bool) : Byte :=
  1#1 ++ BitVec.ofBool v ++ BitVec.ofBool e ++ 0#5

/-- The bytes of an instruction, from the same tables. -/
def encode : Instr → List Byte
  | .cl22WriteFrame c phy reg data => frameBytes (writeFrameWord phy reg data) ++ encodeNat c
  | .cl22ReadFrame c phy reg => frameBytes (readFrameWord phy reg) ++ encodeNat c
  | .invalid0 c => 0x00 :: encodeNat c
  | .defineRegister c a w n => 0x01 :: (encodeNat c ++ encodeNat a ++ encodeOption encodeNat w ++ encodeOption encodeName n)
  | .defineField c a n off w => 0x02 :: (encodeNat c ++ encodeNat a ++ encodeName n ++ encodeNat off ++ encodeNat w)
  | .freeze c => 0x03 :: encodeNat c
  | .lookup c a => 0x04 :: (encodeNat c ++ encodeNat a)
  | .pack c a F base => 0x05 :: (encodeNat c ++ encodeNat a ++ encodeFieldMap F ++ encodeOption encodeNat base)
  | .unpack c a w => 0x06 :: (encodeNat c ++ encodeNat a ++ encodeNat w)
  | .viewGet c v n => 0x07 :: (encodeNat c ++ encodeView v ++ encodeName n)
  | .viewFields c v => 0x08 :: (encodeNat c ++ encodeView v)
  | .reverse c v n => 0x09 :: (encodeNat c ++ encodeNat v ++ encodeNat n)
  | .mdioWrite c p r d => 0x0A :: (encodeNat c ++ encodeNat p ++ encodeNat r ++ encodeNat d)
  | .mdioRead c p r => 0x0B :: (encodeNat c ++ encodeNat p ++ encodeNat r)
  | .readRegister c p a => 0x0C :: (encodeNat c ++ encodeNat p ++ encodeNat a)
  | .writeRegister c p a F base =>
    0x0D :: (encodeNat c ++ encodeNat p ++ encodeNat a ++ encodeFieldMap F ++ encodeOption encodeView base)
  | .reset c p => 0x0E :: (encodeNat c ++ encodeNat p)
  | .invalidF c => 0x0F :: encodeNat c
  | .drive w => [0b00101#5 ++ w]
  | .sample => [0x21]
  | .delay => [0x20]
  | .writeBit v e => [writeBitByte v e, writeBitByte v e ||| 0x10, writeBitByte v e]
  | .readBit => [0x10, 0x90, 0x80]
  | .release => [0x80, 0x90, 0x80]
  | .relc => [0x80, 0x10, 0x90, 0x80]
  | .shiftOut v n e => 0x30 :: (encodeNat v ++ encodeNat n ++ encodeBool e)
  | .shiftIn => [0x31]

/-- The bytes of a table word: its bits in transmission order, then zero operand bytes. -/
def tableBytes (nbits w : Nat) : List Byte :=
  let n := (nbits + 7) / 8
  (List.range n).map (fun i => BitVec.ofNat 8 (w >>> (8 * (n - 1 - i)))) ++ List.replicate 8 0

/-- The instruction the decoder reads from a word numbered as spec/opcode_table.json numbers it. -/
def decodeTableWord (nbits w : Nat) : Option Instr :=
  match decodeRecord (tableBytes nbits w) with
  | .ok i => some i
  | .error _ => none

end Sys2Proof
end

