-- ==== Sys2Proof/Config.lean ====
section
/-!
DEFINITION. What an implementation fixes (00_scope R10) and the values the spec leaves open. An `opaque` constant has no
body: nothing in Lean can evaluate it, so what is proved holds for every value of it. The transaction, which EXT_ACCESS
answers with, is declared here too.
-/

namespace Sys2Proof.Machine

/-- A transaction's direction (00_scope R13). -/
inductive Dir where
  | write
  | read
  deriving DecidableEq, Repr

/-- A transaction (00_scope R13, 10_state R35): data is present only for a write. -/
inductive Transaction where
  | write (phy reg : Addr5) (data : Word)
  | read (phy reg : Addr5)
  deriving DecidableEq, Repr, Inhabited

end Sys2Proof.Machine

namespace Sys2Proof.Config

/-- 00_scope R10 REG_WIDTH: the only register width admitted. -/
def regWidth : Nat := 16

/-- 00_scope R10 EXT_BIT_POS, decision D1: this bit of a register-model address selects the extended bank. -/
def extBitPos : Nat := 5

/-- The highest register-model address (20_memory R71). -/
def maxRegAddr : Nat := 63

/-- 00_scope R10 CTRL_REG_ADDR, decision D3. -/
def ctrlRegAddr : Nat := 0

/-- 00_scope R10 RESET_FIELD, decision D3. -/
def resetField : String := "reset"

/-- 00_scope R10 PREAMBLE_LEN. -/
def preambleLen : Nat := 32

/-- Where a read bit's sample falls (41_bitbang R199). -/
inductive SamplePoint where
  | beforeRise
  | afterRise
  | afterFall
  deriving DecidableEq, Repr

/-- How PACK merges a value into the base word (40_register_model R155). -/
inductive PackMerge where
  | replace
  | orIn
  deriving DecidableEq, Repr

/-- EXT_ACCESS (00_scope R10, 43_client R277): refuse extended registers, or a supplied function `extTransactions`. -/
inductive ExtAccess where
  | refuse
  | supplied
  deriving DecidableEq, Repr

/-- The parameters of 00_scope R10 that a model takes as arguments. Log entry 1. -/
structure Params where
  checkTa     : Bool
  samplePoint : SamplePoint
  packMerge   : PackMerge
  extAccess   : ExtAccess
  nCallers    : Nat
  deriving DecidableEq, Repr

/-- One less than N_CALLERS, which is OPEN and at least 1 (00_scope R10, decision D29). -/
opaque nCallersPred : Nat

/-- N_CALLERS (00_scope R10). Log entry 18. -/
def nCallers : Nat := nCallersPred + 1

/-- The values this hardware takes (00_scope R10). -/
def hardware : Params :=
  { checkTa := false, samplePoint := .beforeRise, packMerge := .replace, extAccess := .refuse, nCallers := nCallers }

/-- A supplied EXT_ACCESS: the Clause-22 transactions, the first and the rest, that reach register `a` of a PHY; `data` is
0 for a read (43_client R277). A free function. Log entry 2. -/
opaque extTransactions (phy : Addr5) (a : Nat) (dir : Machine.Dir) (data : Word) :
  Machine.Transaction × List Machine.Transaction

/-- One less than SAMPLE_WIDTH, which is OPEN and at least 1 (00_scope R10, decision D18). -/
opaque sampleWidthPred : Nat

/-- SAMPLE_WIDTH (00_scope R10). -/
def sampleWidth : Nat := sampleWidthPred + 1

/-- The transport's answer to the `k`-th draw: a free value under no law (41_bitbang R195, 93 I1). Log entry 3. -/
opaque sampleAnswer (k : Nat) : BitVec sampleWidth

/-- Which of several entries failing the same check an error names: a free value (60_exceptions R324, 93 I10). Log entry 5. -/
opaque errorPick (k : Nat) : Nat

/-- Which of several agents that can move does: a free value (93 I16). Log entry 4. -/
opaque turnPick (k : Nat) : Nat

/-- What S.rdata holds after a block reset: a free value (10_state R49, 93 I11). Log entry 6. -/
opaque rdataAfterReset (k : Nat) : Word

/-- T_DELAY, OPEN: no rule reads it (decision D19, 93 I3). -/
opaque tDelay : Nat

/-- W_ADDR, OPEN: the transport's output register address, which the block does not use (20_memory R73, decision D20). -/
opaque wAddr : Nat

/-- R_ADDR, OPEN: the transport's input register address, which the block does not use (20_memory R73, decision D20). -/
opaque rAddr : Nat

end Sys2Proof.Config
end

