-- ==== Sys2Proof/Machine/State.lean ====
section
/-!
DEFINITION. The state of the framer (10_state R30 to R50), the types of its parts, its reset, and the reasons a step stops.
-/

namespace Sys2Proof.Machine

open Sys2Proof.Config

/-- A transport action (41_bitbang R191). -/
inductive Action where
  | drive (w : DriveWord)
  | sample
  | delay
  deriving DecidableEq, Repr

/-- The phases of the protocol state machine (10_state R34, 42_frame_engine R220). -/
inductive Phase where
  | idle
  | preamble
  | start
  | opcode
  | phyAddr
  | regAddr
  | turnaround
  | dataOut
  | dataIn
  | turnaround2
  deriving DecidableEq, Repr

/-- Where a Sample's bit goes (42_frame_engine R230): into S.rdata, into S.ta, or nowhere. -/
inductive SampleDest where
  | rdata
  | ta
  | discard
  deriving DecidableEq, Repr

/-- A Field Definition (10_state R44). -/
structure FieldDef where
  name : String
  off  : Nat
  w    : Nat
  deriving DecidableEq, Repr

/-- A Register Definition (10_state R43). The fields stand in definition order; no rule reads the name. -/
structure RegDef where
  addr   : Nat
  width  : Nat
  fields : List FieldDef
  name   : Option String
  deriving DecidableEq, Repr

/-- REGMAP, a finite map from register-model addresses (10_state R43): one entry an address, addresses strictly rising. -/
abbrev RegMap := List RegDef

/-- The arguments of a raw transaction request (10_state R32 `Frame(req)`). -/
inductive RawReq where
  | write (phy reg data : Nat)
  | read (phy reg : Nat)
  deriving DecidableEq, Repr

/-- The operation the framer executes and its stage, with the accepted request's arguments (10_state R32). The last two
exist only with a supplied EXT_ACCESS (43_client R277): `rest` holds the transactions still to run. -/
inductive Job where
  | frame (req : RawReq)
  | readReg (phy addr : Nat)
  | writeReg (phy addr : Nat) (F : FieldMap) (base : Option FieldView) (word : Word)
  | resetRead (phy : Nat)
  | resetWrite (phy : Nat) (word : Word)
  | extRead (phy addr : Nat) (rest : List Transaction)
  | extWrite (phy addr : Nat) (F : FieldMap) (base : Option FieldView) (word : Word) (rest : List Transaction)
  deriving DecidableEq, Repr

/-- The errors with the information they record (60_exceptions R300). -/
inductive Error where
  | duplicateAddress (addr : Nat)
  | fieldOutOfRange (addr : Nat) (name : String) (off w : Nat)
  | unknownField (addr : Nat) (name : String)
  | valueOutOfRange (name : String) (value : Nat)
  | busBusy
  | aliasConflict (name1 name2 : String)
  | argumentOutOfRange (arg : String) (value : Nat)
  | addressOutOfRange (addr : Nat)
  | unsupportedWidth (width : Nat)
  | duplicateField (addr : Nat) (name : String)
  | extendedUnsupported (addr : Nat)
  | unknownRegister (addr : Nat)
  | registerMismatch (addr viewAddr : Nat)
  | noPhyResponse (word : Word)
  | configFrozen
  deriving DecidableEq, Repr

/-- What an operation returns when it succeeds. -/
inductive Value where
  | unit
  | handle (addr : Nat)
  | regDef (r : RegDef)
  | word (w : Word)
  | view (v : FieldView)
  | nat (n : Nat)
  | fields (l : List (String × Nat))
  deriving DecidableEq, Repr

/-- A response: `ok(result)` or `err(code, info)` (60_exceptions R310). -/
inductive Result where
  | ok (v : Value)
  | err (e : Error)
  deriving DecidableEq, Repr

/-- The events of the trace (42_frame_engine R231). A Sample records the bit it returned. -/
inductive Event where
  | accept (caller : Nat) (req : Instr)
  | drive (w : DriveWord)
  | sample (b : Bool)
  | delay
  | respond (caller : Nat) (r : Result)
  deriving DecidableEq, Repr

/-- What reaches the block from outside: a caller's record in the bytes of Decode.lean, block reset (42_frame_engine R238),
or a record of the delay hook while it runs; `waits` says that the hook does not return before a bus-using request of it
succeeds (70 R352; log entry 19). -/
inductive Input where
  | record (bytes : List Byte)
  | blockReset
  | hook (bytes : List Byte) (waits : Bool)
  deriving DecidableEq, Repr

/-- A move that one step can make: the framer's, or an input's, which leaves `rest` in the inbox. -/
inductive Move where
  | framer
  | input (inp : Input) (rest : List Input)
  deriving DecidableEq, Repr

/-- The state. The first ten fields are the framer state record S of 10_state R30, in its order. -/
structure State where
  busy    : Bool
  job     : Option Job
  actions : List Action
  pc      : Nat
  txn     : Option Transaction
  rdata   : Word
  ta      : Option Bool
  lines   : Option DriveWord
  owner   : Option Nat
  frozen  : Bool
  /-- C[c].pending (10_state R50): the outstanding requests, callers strictly rising. -/
  pending : List (Nat × Instr)
  /-- REGMAP (10_state R43). -/
  regmap  : RegMap
  /-- The event trace (42_frame_engine R231), oldest first. -/
  trace   : List Event
  /-- The refusal mark (60_exceptions R321). -/
  refusalMark : Bool
  /-- The delay hook waits for a bus-using request to succeed and does not return (70 R352, 93 I18). -/
  hookWaits : Bool
  /-- The model's own: the parameters (00_scope R10); no step changes them. Log entry 1. -/
  params  : Params
  /-- The model's own: what the outside agents will do; each caller's records stand in the caller's order. Log entries 4
  and 16. -/
  inbox   : List Input
  /-- The model's own: which of several agents that can move does. Log entry 4. -/
  turn    : Nat
  /-- The model's own: how many free values have been drawn. Log entry 3. -/
  draws   : Nat
  deriving DecidableEq, Repr

/-- The machine at power-up: the reset table of 10_state R49 over an empty REGMAP that is not frozen (70 R342).
`rdata` (log entry 6) and the model's own fields (log entry 21) are the model's choice; `turn` is a free value. -/
def State.reset : State :=
  { busy := false
    job := none
    actions := []
    pc := 0
    txn := none
    rdata := 0
    ta := none
    lines := none
    owner := none
    frozen := false
    pending := []
    regmap := []
    trace := []
    refusalMark := false
    hookWaits := false
    params := Config.hardware
    inbox := []
    turn := Config.turnPick 0
    draws := 0 }

/-- Why the machine stops. No run from reset reaches one (log entry 20). -/
inductive Fault where
  /-- Raised by the framer's step when S.pc is past the end of S.actions, which 10_state R33 excludes. Safe: it stops. -/
  | framerPcPastEnd
  /-- Raised by the finish step when S.busy holds without a job or an owner, which 10_state R32 excludes. Safe: it stops. -/
  | busyWithoutJob
  /-- Raised by the finish step of RESET's read when the control register lacks the reset field, which the accepting
  step has excluded (43_client R280 "cannot fail"). Safe: it stops. -/
  | resetFieldMissing
  deriving DecidableEq, Repr

/-- Why an instruction has no next state. -/
inductive Refusal where
  /-- Raised by an arm of `exec` whose instruction has no meaning yet. Safe: it stops. -/
  | notModelled (mnemonic : String)
  /-- Raised by a request of a caller whose earlier request is not answered: "the model has no move" (42_frame_engine
  R238, 10_state R50). The step holds such a record back, so no run reaches it. Safe: it stops. -/
  | callerStillWaiting
  deriving DecidableEq, Repr

/-- What a meaning answers. -/
abbrev Answer := Host.Outcome State Fault Refusal

end Sys2Proof.Machine
end

