-- ==== Sys2Proof/Machine/Operands.lean ====
section
/-!
DEFINITION. Operands: bit strings, register-model addresses, fields and their values, range checks (00_scope R11;
10_state R43, R44; 20_memory R71, R77; 40_register_model R153 to R160; 60_exceptions R312, R313).
-/

namespace Sys2Proof.Machine

open Sys2Proof.Config

/-! ### Bits -/

/-- `Bits(v, n)`: most significant bit first (00_scope R11, 41_bitbang R203). -/
def bits (v n : Nat) : List Bool :=
  (List.range n).map fun k => v.testBit (n - 1 - k)

/-- The number a bit string spells, most significant bit first (30_encoding R104). -/
def wordOfBits (bs : List Bool) : Nat :=
  bs.foldl (fun acc b => 2 * acc + b.toNat) 0

/-- `mask(w)` (00_scope R11). -/
def mask (w : Nat) : Nat := 2 ^ w - 1

/-- REVERSE (40_register_model R160). -/
def reverseBits (v n : Nat) : Nat :=
  ((List.range n).map fun i => (v.testBit i).toNat <<< (n - 1 - i)).sum

/-! ### Register-model addresses -/

/-- The bank bit of an address (20_memory R71); `true` is the extended bank. -/
def isExtended (a : Nat) : Bool := a.testBit extBitPos

/-- The wire register address `a[4:0]` (20_memory R71, 30_encoding R105). -/
def wireIndex (a : Nat) : Addr5 := BitVec.ofNat 5 a

/-! ### Fields -/

/-- `fget(f, x)` (40_register_model R153). -/
def fget (f : FieldDef) (x : Word) : Nat := (x.toNat >>> f.off) &&& mask f.w

/-- `fmask(f)` (10_state R44). -/
def fmask (f : FieldDef) : Word := BitVec.ofNat 16 (mask f.w <<< f.off)

/-- `fput(f, x, v)` (40_register_model R153). -/
def fput (f : FieldDef) (x : Word) (v : Nat) : Word :=
  (x &&& ~~~ fmask f) ||| BitVec.ofNat 16 (v <<< f.off)

/-- PACK's merge under each PACK_MERGE (40_register_model R155). -/
def mergeField (m : PackMerge) (f : FieldDef) (x : Word) (v : Nat) : Word :=
  match m with
  | .replace => fput f x v
  | .orIn => x ||| BitVec.ofNat 16 (v <<< f.off)

/-- Whether a field covers bit `p` of its register. -/
def FieldDef.covers (f : FieldDef) (p : Nat) : Bool := f.off ≤ p && p < f.off + f.w

/-- The field of that name (10_state R44: names are unique within one register). -/
def RegDef.field? (r : RegDef) (name : String) : Option FieldDef :=
  r.fields.find? fun f => f.name == name

/-! ### REGMAP -/

/-- The definition at an address: the full address is the key (20_memory R72). -/
def regFind (m : RegMap) (a : Nat) : Option RegDef :=
  m.find? fun r => r.addr == a

/-- The map with `d` at its address; addresses stay strictly rising. -/
def regPut (d : RegDef) : RegMap → RegMap
  | [] => [d]
  | r :: rest =>
    if d.addr < r.addr then d :: r :: rest
    else if d.addr = r.addr then d :: rest
    else r :: regPut d rest

/-! ### Checks: each raises its error, or goes on with what stands behind it -/

/-- ArgumentOutOfRange (60_exceptions R312): never truncated. -/
def checkArg {α : Type} (arg : String) (v max : Nat) (next : Except Error α) : Except Error α :=
  if v > max then .error (.argumentOutOfRange arg v) else next

/-- AddressOutOfRange (60_exceptions R313). -/
def checkAddr {α : Type} (a : Nat) (next : Except Error α) : Except Error α :=
  if a > maxRegAddr then .error (.addressOutOfRange a) else next

/-- UnknownRegister (60_exceptions R317). -/
def withReg {α : Type} (m : RegMap) (a : Nat) (next : RegDef → Except Error α) : Except Error α :=
  match regFind m a with
  | some r => next r
  | none => .error (.unknownRegister a)

/-- UnknownField (60_exceptions R303). -/
def withField {α : Type} (a : Nat) (r : RegDef) (name : String) (next : FieldDef → Except Error α) : Except Error α :=
  match r.field? name with
  | some f => next f
  | none => .error (.unknownField a name)

/-- ExtendedUnsupported, while EXT_ACCESS = refuse (43_client R277, 60_exceptions R316). -/
def checkBank {α : Type} (ext : ExtAccess) (a : Nat) (next : Except Error α) : Except Error α :=
  match ext with
  | .refuse => if isExtended a then .error (.extendedUnsupported a) else next
  | .supplied => next

/-! ### PACK -/

/-- One of the candidates. One candidate alone needs no draw; among several the free value `k` picks (93 I10). -/
def choose {α : Type} (k : Nat) : List α → Option α
  | [] => none
  | [a] => some a
  | a :: b :: l => (a :: b :: l)[k % (l.length + 2)]?

/-- The names of F that are no field of the register. -/
def unknownNames (r : RegDef) (F : FieldMap) : List String :=
  (F.filter fun e => (r.field? e.1).isNone).map Prod.fst

/-- The entries of F whose value does not fit its field. -/
def overfullEntries (r : RegDef) (F : FieldMap) : FieldMap :=
  F.filter fun e => match r.field? e.1 with
    | some f => 2 ^ f.w ≤ e.2
    | none => false

/-- Whether two entries give a bit both fields cover different values (40_register_model R154, R156). -/
def entriesConflict (r : RegDef) (e1 e2 : String × Nat) : Bool :=
  match r.field? e1.1, r.field? e2.1 with
  | some f1, some f2 =>
    (List.range f1.w).any fun i =>
      f2.covers (f1.off + i) && (e1.2.testBit i != e2.2.testBit (f1.off + i - f2.off))
  | _, _ => false

/-- The pairs of names of F that conflict, each pair in F's order (log entry 23). -/
def conflictPairs (r : RegDef) : FieldMap → List (String × String)
  | [] => []
  | e :: F => (F.filter fun e' => entriesConflict r e e').map (fun e' => (e.1, e'.1)) ++ conflictPairs r F

/-- Every entry merged into the base word (40_register_model R154, R155). -/
def mergeAll (m : PackMerge) (r : RegDef) : FieldMap → Word → Word
  | [], x => x
  | e :: F, x =>
    match r.field? e.1 with
    | some f => mergeAll m r F (mergeField m f x e.2)
    | none => mergeAll m r F x

/-- PACK's checks on the entries, in the order of 40_register_model R154, then the merge. -/
def packFields (m : PackMerge) (k : Nat) (a : Nat) (r : RegDef) (F : FieldMap) (x : Word) : Except Error Word :=
  match choose k (unknownNames r F) with
  | some n => .error (.unknownField a n)
  | none =>
    match choose k (overfullEntries r F) with
    | some (n, v) => .error (.valueOutOfRange n v)
    | none =>
      match choose k (conflictPairs r F) with
      | some (n1, n2) => .error (.aliasConflict n1 n2)
      | none => .ok (mergeAll m r F x)

/-- PACK (40_register_model R154). -/
def packWord (m : PackMerge) (k : Nat) (map : RegMap) (a : Nat) (F : FieldMap) (base : Nat) : Except Error Word :=
  checkAddr a <|
  checkArg "base" base 0xFFFF <|
  withReg map a fun r => packFields m k a r F (BitVec.ofNat 16 base)

/-! ### Who an instruction comes from -/

/-- The caller of a request record; none for the bit-bang layer's own rows (30_encoding R109, 42_frame_engine R238). -/
def callerOf : Instr → Option Nat
  | .cl22WriteFrame c _ _ _ => some c
  | .cl22ReadFrame c _ _ => some c
  | .invalid0 c => some c
  | .defineRegister c _ _ _ => some c
  | .defineField c _ _ _ _ => some c
  | .freeze c => some c
  | .lookup c _ => some c
  | .pack c _ _ _ => some c
  | .unpack c _ _ => some c
  | .viewGet c _ _ => some c
  | .viewFields c _ => some c
  | .reverse c _ _ => some c
  | .mdioWrite c _ _ _ => some c
  | .mdioRead c _ _ => some c
  | .readRegister c _ _ => some c
  | .writeRegister c _ _ _ _ => some c
  | .reset c _ => some c
  | .invalidF c => some c
  | .drive _ => none
  | .sample => none
  | .delay => none
  | .writeBit _ _ => none
  | .readBit => none
  | .release => none
  | .relc => none
  | .shiftOut _ _ _ => none
  | .shiftIn => none

/-- The request rows that use the bus (10_state R31, 42_frame_engine R228), in both spellings of the raw transactions. -/
def usesBus : Instr → Bool
  | .cl22WriteFrame _ _ _ _ => true
  | .cl22ReadFrame _ _ _ => true
  | .mdioWrite _ _ _ _ => true
  | .mdioRead _ _ _ => true
  | .readRegister _ _ _ => true
  | .writeRegister _ _ _ _ _ => true
  | .reset _ _ => true
  | .invalid0 _ => false
  | .defineRegister _ _ _ _ => false
  | .defineField _ _ _ _ _ => false
  | .freeze _ => false
  | .lookup _ _ => false
  | .pack _ _ _ _ => false
  | .unpack _ _ _ => false
  | .viewGet _ _ _ => false
  | .viewFields _ _ => false
  | .reverse _ _ _ => false
  | .invalidF _ => false
  | .drive _ => false
  | .sample => false
  | .delay => false
  | .writeBit _ _ => false
  | .readBit => false
  | .release => false
  | .relc => false
  | .shiftOut _ _ _ => false
  | .shiftIn => false

/-- The error codes (60_exceptions R300). -/
def errorCode : Error → Nat
  | .duplicateAddress _ => 1
  | .fieldOutOfRange _ _ _ _ => 2
  | .unknownField _ _ => 3
  | .valueOutOfRange _ _ => 4
  | .busBusy => 5
  | .aliasConflict _ _ => 6
  | .argumentOutOfRange _ _ => 7
  | .addressOutOfRange _ => 8
  | .unsupportedWidth _ => 9
  | .duplicateField _ _ => 10
  | .extendedUnsupported _ => 11
  | .unknownRegister _ => 12
  | .registerMismatch _ _ => 13
  | .noPhyResponse _ => 14
  | .configFrozen => 15

end Sys2Proof.Machine
end

