-- ==== Sys2Proof/Machine/Actions.lean ====
section
/-!
DEFINITION. The transport-action lists of the bit symbols and of the two frames, and the phase table
(30_encoding R106, R108; 41_bitbang R193 to R206; 42_frame_engine R221 to R225).
-/

namespace Sys2Proof.Machine

open Sys2Proof.Config

/-- The drive word `(DO << 2) | (OE << 1) | CLK` (30_encoding R106). -/
def driveWordOf (dataOut outputEnable clk : Bool) : DriveWord :=
  BitVec.ofBool dataOut ++ BitVec.ofBool outputEnable ++ BitVec.ofBool clk

/-- WRITE_BIT(v, e) (41_bitbang R196). -/
def writeBitActions (v e : Bool) : List Action :=
  [.drive (driveWordOf v e false), .delay, .drive (driveWordOf v e true), .delay, .drive (driveWordOf v e false), .delay]

/-- RELEASE (41_bitbang R200). -/
def releaseActions : List Action :=
  [.drive 0b000, .delay, .drive 0b001, .delay, .drive 0b000, .delay]

/-- READ_BIT at each SAMPLE_POINT (41_bitbang R198, R199). -/
def readBitActions : SamplePoint → List Action
  | .beforeRise => [.sample, .delay, .drive 0b001, .delay, .drive 0b000, .delay]
  | .afterRise => [.drive 0b001, .delay, .sample, .delay, .drive 0b000, .delay]
  | .afterFall => [.drive 0b001, .delay, .drive 0b000, .delay, .sample, .delay]

/-- RELC (41_bitbang R201). -/
def relcActions : List Action :=
  [.drive 0b000, .delay, .sample, .delay, .drive 0b001, .delay, .drive 0b000, .delay]

/-- SHIFT_OUT(v, n, e) (41_bitbang R202). -/
def shiftOutActions (v n : Nat) (e : Bool) : List Action :=
  (bits v n).flatMap fun b => writeBitActions b e

/-- SHIFT_IN: the 16 READ_BITs of DATA_IN (41_bitbang R204). -/
def shiftInActions (sp : SamplePoint) : List Action :=
  (List.replicate 16 (readBitActions sp)).flatten

/-- The part both frames begin with: PREAMBLE, START, OPCODE, PHYADDR, REGADDR (42_frame_engine R223, R224). -/
def headerActions (op : Nat) (phy reg : Addr5) : List Action :=
  shiftOutActions 0xFFFFFFFF preambleLen true ++
  shiftOutActions 0b01 2 true ++
  shiftOutActions op 2 true ++
  shiftOutActions phy.toNat 5 true ++
  shiftOutActions reg.toNat 5 true

/-- WriteActions (42_frame_engine R223). -/
def writeActions (phy reg : Addr5) (data : Word) : List Action :=
  headerActions 0b01 phy reg ++
  shiftOutActions 0b10 2 true ++
  shiftOutActions data.toNat 16 true

/-- ReadActions (42_frame_engine R224). -/
def readActions (p : Params) (phy reg : Addr5) : List Action :=
  headerActions 0b10 phy reg ++
  (releaseActions ++ if p.checkTa then relcActions else releaseActions) ++
  shiftInActions p.samplePoint ++
  (releaseActions ++ releaseActions)

/-- The actions of a transaction's frame. -/
def frameActions (p : Params) : Transaction → List Action
  | .write phy reg data => writeActions phy reg data
  | .read phy reg => readActions p phy reg

/-- The direction of a transaction. -/
def Transaction.dir : Transaction → Dir
  | .write _ _ _ => .write
  | .read _ _ => .read

/-- The phase of a frame in flight (42_frame_engine R225); at the end of the list it is the last action's. -/
def phaseAt (checkTa : Bool) (d : Dir) (pc : Nat) : Phase :=
  if pc < 192 then .preamble
  else if pc < 204 then .start
  else if pc < 216 then .opcode
  else if pc < 246 then .phyAddr
  else if pc < 276 then .regAddr
  else
    match d with
    | .write => if pc < 288 then .turnaround else .dataOut
    | .read =>
      let checked := if checkTa then 2 else 0
      if pc < 288 + checked then .turnaround
      else if pc < 384 + checked then .dataIn
      else .turnaround2

/-- Where the bit of a Sample in that phase goes (42_frame_engine R230). -/
def destOfPhase : Phase → SampleDest
  | .dataIn => .rdata
  | .turnaround => .ta
  | .idle => .discard
  | .preamble => .discard
  | .start => .discard
  | .opcode => .discard
  | .phyAddr => .discard
  | .regAddr => .discard
  | .dataOut => .discard
  | .turnaround2 => .discard

/-- The transport action as the instruction that performs it. -/
def Action.toInstr : Action → Instr
  | .drive w => .drive w
  | .sample => .sample
  | .delay => .delay

end Sys2Proof.Machine
end

