-- ==== Sys2Proof/Machine/Flags.lean ====
section
/-!
DEFINITION. The two status flags S.busy and S.frozen: who sets them and the checks that read them (10_state R31, R40, R47).
The block has no condition codes (R47).
-/

namespace Sys2Proof.Machine

/-- Set by an accepting step (10_state R47). -/
def State.setBusy (s : State) : State := { s with busy := true }

/-- Cleared by a finishing step (10_state R47). -/
def State.clearBusy (s : State) : State := { s with busy := false }

/-- Set by FREEZE and never cleared (10_state R47). -/
def State.setFrozen (s : State) : State := { s with frozen := true }

/-- A bus-using operation needs S.frozen (10_state R40, 60_exceptions R320). -/
def State.needFrozen {α : Type} (s : State) (next : Except Error α) : Except Error α :=
  if s.frozen then next else .error .configFrozen

/-- A definition operation needs S.frozen = false (10_state R40, 60_exceptions R320). -/
def State.needUnfrozen {α : Type} (s : State) (next : Except Error α) : Except Error α :=
  if s.frozen then .error .configFrozen else next

/-- The busy guard (42_frame_engine R229). -/
def State.needIdle {α : Type} (s : State) (next : Except Error α) : Except Error α :=
  if s.busy then .error .busBusy else next

end Sys2Proof.Machine
end

