-- ==== Sys2Proof/Machine/Ops.lean ====
section
/-!
DEFINITION. The named operations on the state that the meanings share: the callers' requests and responses, error delivery,
loading and leaving a frame, the transport's three calls, block reset.
-/

namespace Sys2Proof.Machine

open Sys2Proof.Config

/-! ### Outstanding requests (10_state R50) -/

def pendingFind (l : List (Nat × Instr)) (c : Nat) : Option Instr :=
  (l.find? fun e => e.1 == c).map Prod.snd

/-- The list with `c`'s request; callers stay strictly rising. -/
def pendingPut (c : Nat) (req : Instr) : List (Nat × Instr) → List (Nat × Instr)
  | [] => [(c, req)]
  | e :: rest =>
    if c < e.1 then (c, req) :: e :: rest
    else if c = e.1 then (c, req) :: rest
    else e :: pendingPut c req rest

def pendingErase (c : Nat) (l : List (Nat × Instr)) : List (Nat × Instr) :=
  l.filter fun e => !(e.1 == c)

/-- Whether caller `c` has a request that is not answered. -/
def State.isWaiting (s : State) (c : Nat) : Bool := (pendingFind s.pending c).isSome

/-! ### The trace and responses (42_frame_engine R231, 60_exceptions R310) -/

def State.record (s : State) (e : Event) : State := { s with trace := s.trace ++ [e] }

/-- Deliver a response to a caller. -/
def State.respond (s : State) (c : Nat) (r : Result) : State := s.record (.respond c r)

/-- Error delivery, the block's "trap entry" (60_exceptions R322): it saves nothing, changes no mode and jumps nowhere;
the error is the response. There is no return from it (R327). -/
def State.raise (s : State) (c : Nat) (e : Error) : State := s.respond c (.err e)

/-- The refusal mark, kept for the whole run: no response, no action (60_exceptions R321). -/
def State.refuse (s : State) : State := { s with refusalMark := true }

/-- One free value has been drawn (log entry 3). -/
def State.tick (s : State) : State := { s with draws := s.draws + 1 }

/-! ### Frames -/

/-- Load a transaction's frame (10_state R33, R35 to R37; 42_frame_engine R226, R227). -/
def State.loadFrame (s : State) (t : Transaction) : State :=
  match t with
  | .write _ _ _ => { s with txn := some t, actions := frameActions s.params t, pc := 0 }
  | .read _ _ => { s with txn := some t, rdata := 0, ta := none, actions := frameActions s.params t, pc := 0 }

/-- The accepting step of a bus-using request whose checks have passed (42_frame_engine R228). -/
def State.accept (s : State) (c : Nat) (req : Instr) (j : Job) (t : Transaction) : State :=
  (({ s with owner := some c, job := some j, pending := pendingPut c req s.pending }.setBusy).loadFrame t).record
    (.accept c req)

/-- The framer at IDLE (42_frame_engine R232). -/
def State.goIdle (s : State) : State :=
  { s.clearBusy with job := none, owner := none, txn := none, actions := [], pc := 0 }

/-- The end of a job: the result goes to the owner, whose request is answered, and the framer to IDLE (42_frame_engine R232). -/
def State.finish (s : State) (c : Nat) (r : Result) : State :=
  { (s.goIdle.respond c r) with pending := pendingErase c s.pending }

/-- The phase (10_state R34). -/
def State.phase (s : State) : Phase :=
  if s.busy then
    match s.txn with
    | some t => phaseAt s.params.checkTa t.dir s.pc
    | none => .idle
  else .idle

/-! ### The shape of a request step (42_frame_engine R228) -/

/-- A request that does not use the bus: the whole result is computed and delivered at once. -/
def State.answer (s : State) (c : Nat) (req : Instr) (r : Except Error (Value × State)) : Answer :=
  if s.isWaiting c then .refused .callerStillWaiting
  else
    match r with
    | .ok (v, s') => .next ((s'.record (.accept c req)).respond c (.ok v))
    | .error e => .next (s.raise c e)

/-- A bus-using request: a failing check is delivered at once and changes nothing else; otherwise the job is accepted. -/
def State.startJob (s : State) (c : Nat) (req : Instr) (r : Except Error (Job × Transaction)) : Answer :=
  if s.isWaiting c then .refused .callerStillWaiting
  else
    match r with
    | .ok (j, t) => .next (s.accept c req j t)
    | .error e => .next (s.raise c e)

/-- A request that names a view. A view is made of a register of REGMAP (10_state R45, 40_register_model R158); a pair that
is none does not have the selector's argument shape and is refused with the mark (60_exceptions R321; log entry 14). -/
def State.answerView (s : State) (c : Nat) (req : Instr) (v : FieldView) (f : RegDef → Except Error Value) : Answer :=
  match regFind s.regmap v.addr with
  | some r => s.answer c req ((f r).map fun x => (x, s))
  | none => if s.isWaiting c then .refused .callerStillWaiting else .next s.refuse

/-! ### The transport (41_bitbang R192 to R195) -/

/-- DRIVE (41_bitbang R194). -/
def State.driveLines (s : State) (w : DriveWord) : State := { s with lines := some w }.record (.drive w)

/-- DELAY (41_bitbang R192): the event, and the call of the hook, which lasts until the framer goes on (`State.inHook`). -/
def State.delayHook (s : State) : State := s.record .delay

/-- DI, bit 0 of the transport's answer; the other bits are ignored (10_state R42, 30_encoding R107). -/
def dataIn {n : Nat} (r : BitVec n) : Bool := r.getLsbD 0

/-- S.rdata's shift (10_state R36). -/
def State.shiftRdata (s : State) (b : Bool) : State :=
  { s with rdata := (s.rdata <<< 1) ||| BitVec.ofNat 16 b.toNat }

/-- S.ta is written only when CHECK_TA = true (10_state R37). -/
def State.latchTa (s : State) (b : Bool) : State :=
  if s.params.checkTa then { s with ta := some b } else s

/-- A sampled bit is recorded and goes to its destination. -/
def State.takeBit (s : State) (d : SampleDest) (b : Bool) : State :=
  (match d with
    | .rdata => s.shiftRdata b
    | .ta => s.latchTa b
    | .discard => s).record (.sample b)

/-- SAMPLE (41_bitbang R195): the answer is the next free value. -/
def State.sampleTo (s : State) (d : SampleDest) : State :=
  (s.takeBit d (dataIn (sampleAnswer s.draws))).tick

/-- One transport action; the bit of a Sample goes to `d`. -/
def State.performTo (s : State) (d : SampleDest) : Action → State
  | .drive w => s.driveLines w
  | .sample => s.sampleTo d
  | .delay => s.delayHook

/-- Transport actions in list order (41_bitbang R190). -/
def State.performAll (s : State) (d : SampleDest) : List Action → State
  | [] => s
  | a :: l => (s.performTo d a).performAll d l

/-! ### Block reset (70_reset_and_hazards R340 to R342) -/

/-- Block reset: the table of 10_state R49. It performs no action, and leaves REGMAP, S.frozen and the record alone.
S.rdata is a free value afterwards. The hook's call ends with the frame it was made in (log entry 19). -/
def State.blockReset (s : State) : State :=
  ({ s with busy := false, job := none, actions := [], pc := 0, txn := none, rdata := rdataAfterReset s.draws,
            ta := none, lines := none, owner := none, pending := [], hookWaits := false }).tick

end Sys2Proof.Machine
end

