-- ==== Sys2Proof/Machine/BitBang.lean ====
section
/-!
DEFINITION. The bit-bang transport primitive (41_bitbang). The framer's step performs the three transport actions, one a
step. The meaning of a symbol or composite is what the framer's steps through its action list do together (R190; log entry
10): no step performs it at once, and no caller can ask for it (log entry 24).
-/

namespace Sys2Proof.Machine

open Sys2Proof.Config

/-- DRIVE (41_bitbang R194), for every word w. In a run only the six words of 30_encoding R106 come here, each followed
by its Delay; that the meaning is also defined for 100 and 101 and performs no Delay itself is log entry 10's. -/
def execDrive (w : DriveWord) (s : State) : Answer := .next (s.driveLines w)

/-- SAMPLE (41_bitbang R195): the phase says where the bit goes (42_frame_engine R230). -/
def execSample (s : State) : Answer := .next (s.sampleTo (destOfPhase s.phase))

/-- DELAY (41_bitbang R192). -/
def execDelay (s : State) : Answer := .next s.delayHook

/-- WRITE_BIT (41_bitbang R196, R197), for every v and e; the frame engine uses no WRITE_BIT(1, 0) (log entry 10). -/
def execWriteBit (v e : Bool) (s : State) : Answer := .next (s.performAll .discard (writeBitActions v e))

/-- READ_BIT (41_bitbang R198): the bit it returns is DATA_IN's, so it shifts into S.rdata (10_state R36; log entry 10). -/
def execReadBit (s : State) : Answer := .next (s.performAll .rdata (readBitActions s.params.samplePoint))

/-- RELEASE (41_bitbang R200). -/
def execRelease (s : State) : Answer := .next (s.performAll .discard releaseActions)

/-- RELC (41_bitbang R201): the bit goes to S.ta, which exists only when CHECK_TA = true (10_state R37; log entry 11). -/
def execRelc (s : State) : Answer := .next (s.performAll .ta relcActions)

/-- SHIFT_OUT (41_bitbang R202), for every e; the frame engine uses e = 1 only (log entry 10). -/
def execShiftOut (v n : Nat) (e : Bool) (s : State) : Answer := .next (s.performAll .discard (shiftOutActions v n e))

/-- SHIFT_IN (41_bitbang R204): 16 READ_BITs from S.rdata = 0. -/
def execShiftIn (s : State) : Answer :=
  .next ({ s with rdata := 0 }.performAll .rdata (shiftInActions s.params.samplePoint))

/-- The transport actions a row of the bit-bang layer stands for, in list order; none for a request. -/
def primitiveActions (p : Params) : Instr → List Action
  | .drive w => [.drive w]
  | .sample => [.sample]
  | .delay => [.delay]
  | .writeBit v e => writeBitActions v e
  | .readBit => readBitActions p.samplePoint
  | .release => releaseActions
  | .relc => relcActions
  | .shiftOut v n e => shiftOutActions v n e
  | .shiftIn => shiftInActions p.samplePoint
  | .cl22WriteFrame _ _ _ _ => []
  | .cl22ReadFrame _ _ _ => []
  | .invalid0 _ => []
  | .defineRegister _ _ _ _ => []
  | .defineField _ _ _ _ _ => []
  | .freeze _ => []
  | .lookup _ _ => []
  | .pack _ _ _ _ => []
  | .unpack _ _ _ => []
  | .viewGet _ _ _ => []
  | .viewFields _ _ => []
  | .reverse _ _ _ => []
  | .mdioWrite _ _ _ _ => []
  | .mdioRead _ _ _ => []
  | .readRegister _ _ _ => []
  | .writeRegister _ _ _ _ _ => []
  | .reset _ _ => []
  | .invalidF _ => []

/-- Where a read frame performs a row of the bit-bang layer: a sampled data bit in DATA_IN, the checked release in
TURNAROUND, and what does not sample at the frame's start (42_frame_engine R225). -/
def primitivePlace (p : Params) : Instr → Nat
  | .sample => if p.checkTa then 290 else 288
  | .readBit => if p.checkTa then 290 else 288
  | .shiftIn => if p.checkTa then 290 else 288
  | .relc => 276
  | _ => 0

end Sys2Proof.Machine
end

