-- ==== Sys2Proof/Machine/Client.lean ====
section
/-!
DEFINITION. The typed client operations (43_client): the accepting steps of READ_REGISTER, WRITE_REGISTER and RESET.
Their finish steps are the framer's (Framer.lean).
-/

namespace Sys2Proof.Machine

open Sys2Proof.Config

/-- READ_REGISTER's job and first transaction: one frame at a base address; the transactions of a supplied EXT_ACCESS, as
one job, at an extended one (43_client R271, R277; log entry 2). -/
def readPlan (phy a : Nat) : Job × Transaction :=
  if isExtended a then
    let x := extTransactions (BitVec.ofNat 5 phy) a .read 0
    (.extRead phy a x.2, x.1)
  else (.readReg phy a, .read (BitVec.ofNat 5 phy) (wireIndex a))

/-- The same for WRITE_REGISTER of the packed word `w`. -/
def writePlan (phy a : Nat) (F : FieldMap) (base : Option FieldView) (w : Word) : Job × Transaction :=
  if isExtended a then
    let x := extTransactions (BitVec.ofNat 5 phy) a .write w
    (.extWrite phy a F base w x.2, x.1)
  else (.writeReg phy a F base w, .write (BitVec.ofNat 5 phy) (wireIndex a) w)

/-- READ_REGISTER's request-time checks (43_client R272). -/
def readRegisterJob (s : State) (phy a : Nat) : Except Error (Job × Transaction) :=
  s.needFrozen <|
  checkArg "phy" phy 31 <|
  checkAddr a <|
  withReg s.regmap a fun _ =>
  checkBank s.params.extAccess a <|
  s.needIdle <|
  .ok (readPlan phy a)

/-- The base view must be of the register written (43_client R275). -/
def checkBaseView {α : Type} (a : Nat) (base : Option FieldView) (next : Except Error α) : Except Error α :=
  match base with
  | some v => if v.addr ≠ a then .error (.registerMismatch a v.addr) else next
  | none => next

/-- The word PACK starts from (43_client R273). -/
def baseWord (base : Option FieldView) : Word :=
  match base with
  | some v => v.word
  | none => 0

/-- WRITE_REGISTER's request-time checks (43_client R273); `k` picks among several failing entries. -/
def writeRegisterJob (s : State) (k : Nat) (phy a : Nat) (F : FieldMap) (base : Option FieldView) :
    Except Error (Job × Transaction) :=
  s.needFrozen <|
  checkArg "phy" phy 31 <|
  checkAddr a <|
  withReg s.regmap a fun _ =>
  checkBaseView a base <|
  match packWord s.params.packMerge k s.regmap a F (baseWord base).toNat with
  | .error e => .error e
  | .ok w =>
    checkBank s.params.extAccess a <|
    s.needIdle <|
    .ok (writePlan phy a F base w)

/-- RESET's request-time checks (43_client R280). -/
def resetJob (s : State) (phy : Nat) : Except Error (Job × Transaction) :=
  s.needFrozen <|
  checkArg "phy" phy 31 <|
  withReg s.regmap ctrlRegAddr fun r =>
  withField ctrlRegAddr r resetField fun _ =>
  s.needIdle <|
  .ok (.resetRead phy, .read (BitVec.ofNat 5 phy) (wireIndex ctrlRegAddr))

/-- READ_REGISTER (43_client R272). -/
def execReadRegister (c phy addr : Nat) (s : State) : Answer :=
  s.startJob c (.readRegister c phy addr) (readRegisterJob s phy addr)

/-- WRITE_REGISTER (43_client R273). The step draws the value that picks among several failing entries (93 I10). -/
def execWriteRegister (c phy addr : Nat) (F : FieldMap) (base : Option FieldView) (s : State) : Answer :=
  s.tick.startJob c (.writeRegister c phy addr F base) (writeRegisterJob s (errorPick s.draws) phy addr F base)

/-- RESET (43_client R280). -/
def execReset (c phy : Nat) (s : State) : Answer :=
  s.startJob c (.reset c phy) (resetJob s phy)

end Sys2Proof.Machine
end

