-- ==== Sys2Proof/Machine/FrameEngine.lean ====
section
/-!
DEFINITION. The raw transactions (42_frame_engine R226, R227), as requests and in wire form, and the two request
selectors that spell no operation (60_exceptions R321).
-/

namespace Sys2Proof.Machine

/-- The request-time checks of PhyWrite (42_frame_engine R226) and the job they load. -/
def phyWrite (s : State) (phy reg data : Nat) : Except Error (Job × Transaction) :=
  s.needFrozen <|
  checkArg "phy" phy 31 <|
  checkArg "reg" reg 31 <|
  checkArg "data" data 0xFFFF <|
  s.needIdle <|
  .ok (.frame (.write phy reg data), .write (BitVec.ofNat 5 phy) (BitVec.ofNat 5 reg) (BitVec.ofNat 16 data))

/-- The request-time checks of PhyRead (42_frame_engine R227) and the job they load. -/
def phyRead (s : State) (phy reg : Nat) : Except Error (Job × Transaction) :=
  s.needFrozen <|
  checkArg "phy" phy 31 <|
  checkArg "reg" reg 31 <|
  s.needIdle <|
  .ok (.frame (.read phy reg), .read (BitVec.ofNat 5 phy) (BitVec.ofNat 5 reg))

/-- MDIO_WRITE's accepting step (42_frame_engine R226). -/
def execMdioWrite (c phy reg data : Nat) (s : State) : Answer :=
  s.startJob c (.mdioWrite c phy reg data) (phyWrite s phy reg data)

/-- MDIO_READ's accepting step (42_frame_engine R227). -/
def execMdioRead (c phy reg : Nat) (s : State) : Answer :=
  s.startJob c (.mdioRead c phy reg) (phyRead s phy reg)

/-- CL22_WRITE_FRAME: PhyWrite in wire form (30_encoding R101, 42_frame_engine R226; log entry 9). -/
def execCl22WriteFrame (c : Nat) (phy reg : Addr5) (data : Word) (s : State) : Answer :=
  s.startJob c (.cl22WriteFrame c phy reg data) (phyWrite s phy.toNat reg.toNat data.toNat)

/-- CL22_READ_FRAME: PhyRead in wire form (30_encoding R102, 42_frame_engine R227; log entry 9). -/
def execCl22ReadFrame (c : Nat) (phy reg : Addr5) (s : State) : Answer :=
  s.startJob c (.cl22ReadFrame c phy reg) (phyRead s phy.toNat reg.toNat)

/-- INVALID_0: selector 0x0 spells no operation and is refused with the mark (60_exceptions R321). -/
def execInvalid0 (_c : Nat) (s : State) : Answer := .next s.refuse

/-- INVALID_F: selector 0xF spells no operation and is refused with the mark (60_exceptions R321). -/
def execInvalidF (_c : Nat) (s : State) : Answer := .next s.refuse

end Sys2Proof.Machine
end

