-- ==== Sys2Proof/Machine/RegModel.lean ====
section
/-!
DEFINITION. The register field encoder and decoder (40_register_model): DEFINE_REGISTER to REVERSE. None uses the bus,
none reads or writes S.busy (10_state R31).
-/

namespace Sys2Proof.Machine

open Sys2Proof.Config

/-- DEFINE_REGISTER (40_register_model R142); the width's default is 16. -/
def execDefineRegister (c addr : Nat) (width : Option Nat) (name : Option String) (s : State) : Answer :=
  let w := width.getD regWidth
  s.answer c (.defineRegister c addr width name) <|
    s.needUnfrozen <|
    checkAddr addr <|
    if w ≠ regWidth then .error (.unsupportedWidth w)
    else if (regFind s.regmap addr).isSome then .error (.duplicateAddress addr)
    else .ok (.handle addr, { s with regmap := regPut ⟨addr, regWidth, [], name⟩ s.regmap })

/-- DEFINE_FIELD (40_register_model R143). -/
def execDefineField (c addr : Nat) (name : String) (off w : Nat) (s : State) : Answer :=
  s.answer c (.defineField c addr name off w) <|
    s.needUnfrozen <|
    checkAddr addr <|
    withReg s.regmap addr fun r =>
    if (r.field? name).isSome then .error (.duplicateField addr name)
    else if w = 0 ∨ off + w > r.width then .error (.fieldOutOfRange addr name off w)
    else .ok (.unit, { s with regmap := regPut { r with fields := r.fields ++ [⟨name, off, w⟩] } s.regmap })

/-- FREEZE (40_register_model R146). -/
def execFreeze (c : Nat) (s : State) : Answer :=
  s.answer c (.freeze c) <| s.needUnfrozen <| .ok (.unit, s.setFrozen)

/-- LOOKUP (40_register_model R149). -/
def execLookup (c addr : Nat) (s : State) : Answer :=
  s.answer c (.lookup c addr) <|
    checkAddr addr <| withReg s.regmap addr fun r => .ok (.regDef r, s)

/-- PACK (40_register_model R154); the base's default is 0. The step draws the value that picks among several failing
entries (93 I10). -/
def execPack (c addr : Nat) (F : FieldMap) (base : Option Nat) (s : State) : Answer :=
  s.tick.answer c (.pack c addr F base) <|
    (packWord s.params.packMerge (errorPick s.draws) s.regmap addr F (base.getD 0)).map fun x => (.word x, s.tick)

/-- UNPACK (40_register_model R157). -/
def execUnpack (c addr word : Nat) (s : State) : Answer :=
  s.answer c (.unpack c addr word) <|
    checkAddr addr <| withReg s.regmap addr fun _ =>
    if word > 0xFFFF then .error (.valueOutOfRange "word" word)
    else .ok (.view ⟨addr, BitVec.ofNat 16 word⟩, s)

/-- VIEW_GET (40_register_model R158). -/
def execViewGet (c : Nat) (view : FieldView) (name : String) (s : State) : Answer :=
  s.answerView c (.viewGet c view name) view fun r =>
    withField view.addr r name fun f => .ok (.nat (fget f view.word))

/-- VIEW_FIELDS (40_register_model R159). -/
def execViewFields (c : Nat) (view : FieldView) (s : State) : Answer :=
  s.answerView c (.viewFields c view) view fun r =>
    .ok (.fields (r.fields.map fun f => (f.name, fget f view.word)))

/-- REVERSE (40_register_model R160). -/
def execReverse (c v n : Nat) (s : State) : Answer :=
  s.answer c (.reverse c v n) <|
    if v ≥ 2 ^ n then .error (.argumentOutOfRange "v" v) else .ok (.nat (reverseBits v n), s)

end Sys2Proof.Machine
end

