-- ==== Sys2Proof/Machine/Dispatch.lean ====
section
/-!
DEFINITION. Every instruction's meaning, one arm per constructor.
-/

namespace Sys2Proof.Machine

def exec (i : Instr) (s : State) : Host.Outcome State Fault Refusal :=
  match i with
  | .cl22WriteFrame c phy reg data => Sys2Proof.Machine.execCl22WriteFrame c phy reg data s
  | .cl22ReadFrame c phy reg => Sys2Proof.Machine.execCl22ReadFrame c phy reg s
  | .invalid0 c => Sys2Proof.Machine.execInvalid0 c s
  | .defineRegister c addr width name => Sys2Proof.Machine.execDefineRegister c addr width name s
  | .defineField c addr name off w => Sys2Proof.Machine.execDefineField c addr name off w s
  | .freeze c => Sys2Proof.Machine.execFreeze c s
  | .lookup c addr => Sys2Proof.Machine.execLookup c addr s
  | .pack c addr F base => Sys2Proof.Machine.execPack c addr F base s
  | .unpack c addr word => Sys2Proof.Machine.execUnpack c addr word s
  | .viewGet c view name => Sys2Proof.Machine.execViewGet c view name s
  | .viewFields c view => Sys2Proof.Machine.execViewFields c view s
  | .reverse c v n => Sys2Proof.Machine.execReverse c v n s
  | .mdioWrite c phy reg data => Sys2Proof.Machine.execMdioWrite c phy reg data s
  | .mdioRead c phy reg => Sys2Proof.Machine.execMdioRead c phy reg s
  | .readRegister c phy addr => Sys2Proof.Machine.execReadRegister c phy addr s
  | .writeRegister c phy addr F base => Sys2Proof.Machine.execWriteRegister c phy addr F base s
  | .reset c phy => Sys2Proof.Machine.execReset c phy s
  | .invalidF c => Sys2Proof.Machine.execInvalidF c s
  | .drive w => Sys2Proof.Machine.execDrive w s
  | .sample => Sys2Proof.Machine.execSample s
  | .delay => Sys2Proof.Machine.execDelay s
  | .writeBit v e => Sys2Proof.Machine.execWriteBit v e s
  | .readBit => Sys2Proof.Machine.execReadBit s
  | .release => Sys2Proof.Machine.execRelease s
  | .relc => Sys2Proof.Machine.execRelc s
  | .shiftOut v n e => Sys2Proof.Machine.execShiftOut v n e s
  | .shiftIn => Sys2Proof.Machine.execShiftIn s

end Sys2Proof.Machine
end

