-- ==== Sys2Proof/Machine/Framer.lean ====
section
/-!
DEFINITION. The framer's steps (42_frame_engine R230, R232; 43_client R272, R273, R280), the taking of an input, and who
moves (R228, 93 I16).
-/

namespace Sys2Proof.Machine

open Sys2Proof.Config

/-! ### The action step (42_frame_engine R230) -/

def State.advancePc (s : State) : State := { s with pc := s.pc + 1 }

/-- Perform the action as the instruction it is, then advance S.pc (10_state R33). -/
def actionStep (a : Action) (s : State) : Answer :=
  match exec a.toInstr s with
  | .next s' => .next s'.advancePc
  | .fault f => .fault f
  | .refused r => .refused r

/-! ### The finish step (42_frame_engine R232) -/

/-- With CHECK_TA, a turnaround bit of 1 means that no PHY responded (42_frame_engine R234). -/
def State.noPhy (s : State) : Bool := s.params.checkTa && s.ta == some true

/-- The result of a read frame. -/
def State.readResult (s : State) (v : Value) : Result :=
  if s.noPhy then .err (.noPhyResponse s.rdata) else .ok v

/-- The frame that has just ended was a read whose PHY did not respond. -/
def State.readUnanswered (s : State) : Bool :=
  match s.txn with
  | some (.read _ _) => s.noPhy
  | some (.write _ _ _) => false
  | none => false

/-- A job of several transactions goes on: with the next one, the bus held and no response yet (43_client R277, R282); after
the last, with its result. -/
def finishExt (c : Nat) (last : Result) (again : List Transaction → Job) (rest : List Transaction) (s : State) : Answer :=
  if s.readUnanswered then .next (s.finish c (.err (.noPhyResponse s.rdata)))
  else
    match rest with
    | [] => .next (s.finish c last)
    | t :: ts => .next ({ s with job := some (again ts) }.loadFrame t)

/-- RESET goes from its read to its write: the bus stays held, no response yet (43_client R280). -/
def State.beginResetWrite (s : State) (phy : Nat) (w : Word) : State :=
  { s with job := some (.resetWrite phy w) }.loadFrame (.write (BitVec.ofNat 5 phy) (wireIndex ctrlRegAddr) w)

/-- The finish of RESET's read frame (43_client R280). PACK has one entry, so nothing is drawn. -/
def finishResetRead (c phy : Nat) (s : State) : Answer :=
  if s.noPhy then .next (s.finish c (.err (.noPhyResponse s.rdata)))
  else
    match packWord s.params.packMerge 0 s.regmap ctrlRegAddr [(resetField, 1)] s.rdata.toNat with
    | .ok w => .next (s.beginResetWrite phy w)
    | .error _ => .fault .resetFieldMissing

/-- The finish step by the job's stage (42_frame_engine R232). -/
def finishJob (j : Job) (c : Nat) (s : State) : Answer :=
  match j with
  | .frame (.write _ _ _) => .next (s.finish c (.ok .unit))
  | .frame (.read _ _) => .next (s.finish c (s.readResult (.word s.rdata)))
  | .readReg _ a => .next (s.finish c (s.readResult (.view ⟨a, s.rdata⟩)))
  | .writeReg _ _ _ _ _ => .next (s.finish c (.ok .unit))
  | .resetRead phy => finishResetRead c phy s
  | .resetWrite _ _ => .next (s.finish c (.ok .unit))
  | .extRead phy a rest => finishExt c (.ok (.view ⟨a, s.rdata⟩)) (.extRead phy a) rest s
  | .extWrite phy a F base w rest => finishExt c (.ok .unit) (.extWrite phy a F base w) rest s

def finishStep (s : State) : Answer :=
  match s.job, s.owner with
  | some j, some c => finishJob j c s
  | _, _ => .fault .busyWithoutJob

/-- The framer's step while S.busy (42_frame_engine R230, R232). -/
def framerStep (s : State) : Answer :=
  match s.actions[s.pc]? with
  | some a => actionStep a s
  | none => if s.pc = s.actions.length then finishStep s else .fault .framerPcPastEnd

/-! ### Inputs -/

/-- The caller a record names; none for bytes that are no caller's request. -/
def recordCaller (bytes : List Byte) : Option Nat :=
  match decodeRecord bytes with
  | .ok i => callerOf i
  | .error _ => none

/-- The caller whose request an input is, if it is one. -/
def inputCaller : Input → Option Nat
  | .blockReset => none
  | .record bytes => recordCaller bytes
  | .hook bytes _ => recordCaller bytes

/-- The number under which the delay hook requests: the one after the callers' (90 C11 "N_CALLERS callers and a delay
hook"; the number is log entry 19's). -/
def State.hookCaller (s : State) : Nat := s.params.nCallers

/-- The delay hook runs: the framer has called it in its last step, a Delay of the frame in flight, and has not gone on
(41_bitbang R192, 70 R352; log entry 19). -/
def State.inHook (s : State) : Bool :=
  s.busy && match s.pc with
    | 0 => false
    | n + 1 => s.actions[n]? == some .delay

/-- A caller of the block issues a request only when it waits for no response (10_state R50, 00_scope R10 N_CALLERS); the
delay hook, which is none of them, only while it runs (70 R352). Whose request the hook's is, the spec does not say: that it
stands under a number of its own, also with N_CALLERS = 1, is the model's choice (log entry 19). -/
def State.ready (s : State) (inp : Input) : Bool :=
  match inp with
  | .blockReset => true
  | .record bytes =>
    match recordCaller bytes with
    | some c => decide (c < s.params.nCallers) && !s.isWaiting c
    | none => true
  | .hook bytes _ =>
    s.inHook && match recordCaller bytes with
      | some c => c == s.hookCaller && !s.isWaiting c
      | none => true

/-- A record is a request: bytes that spell none, be it that they decode to nothing (60_exceptions R321) or to a row of the
bit-bang layer, which callers may not call (42_frame_engine R238; log entry 24), are refused with the mark. -/
def takeRecord (bytes : List Byte) (s : State) : Answer :=
  match decodeRecord bytes with
  | .ok i => if (callerOf i).isSome then exec i s else .next s.refuse
  | .error _ => .next s.refuse

/-- Whether bytes spell a bus-using request. -/
def recordUsesBus (bytes : List Byte) : Bool :=
  match decodeRecord bytes with
  | .ok i => usesBus i
  | .error _ => false

/-- A hook that waits for a bus-using request to succeed does not return: the frame it interrupts keeps the bus (70 R352,
93 I18). -/
def State.hookAsks (s : State) (bytes : List Byte) (waits : Bool) : State :=
  { s with hookWaits := s.hookWaits || (waits && recordUsesBus bytes) }

/-- Take an input. The hook's request is answered as any caller's is. -/
def takeInput (inp : Input) (s : State) : Answer :=
  match inp with
  | .blockReset => .next s.blockReset
  | .record bytes => takeRecord bytes s
  | .hook bytes waits => takeRecord bytes (s.hookAsks bytes waits)

/-! ### Who moves (42_frame_engine R228, 93 I16) -/

/-- Both are requests of one caller, or of the hook. -/
def sameCaller (a b : Input) : Bool :=
  match a, b with
  | .record x, .record y => (recordCaller x).isSome && recordCaller x == recordCaller y
  | .hook x _, .hook y _ => (recordCaller x).isSome && recordCaller x == recordCaller y
  | _, _ => false

/-- The inputs that can move: those that are ready, each caller's in the caller's order. -/
def inputMoves (s : State) (before : List Input) : List Input → List Move
  | [] => []
  | inp :: after =>
    (if s.ready inp && !before.any (sameCaller inp) then [.input inp (before ++ after)] else []) ++
      inputMoves s (before ++ [inp]) after

/-- The framer can step: it holds a job (00_scope R8), and no hook call that never returns keeps it (70 R352). -/
def State.framerFree (s : State) : Bool := s.busy && !s.hookWaits

/-- Every move that can be made: the framer's and the inputs' (00_scope R8). -/
def State.moves (s : State) : List Move :=
  (if s.framerFree then [.framer] else []) ++ inputMoves s [] s.inbox

/-- The move that is made: any one of them (log entry 4). -/
def State.mover (s : State) : Option Move := choose s.turn s.moves

def State.redrawTurn (s : State) : State :=
  { s with turn := turnPick (s.draws + 1) }.tick

/-- After a step in which several moves could be made, which is made next is a new free value (log entry 4). -/
def State.settleTurn (s : State) : State :=
  if 1 < s.moves.length then s.redrawTurn else s

/-- Make a move. -/
def makeMove (m : Move) (s : State) : Answer :=
  match m with
  | .framer => framerStep s
  | .input inp rest => takeInput inp { s with inbox := rest }

/-- One step. When no move can be made, nothing happens (60_exceptions R332). -/
def schedule (s : State) : Answer :=
  match s.mover with
  | some m => makeMove m s.settleTurn
  | none => .next s

/-! ### Placing an instruction (log entry 16) -/

/-- The framer at IDLE with no caller waiting and `bytes` first in the inbox and first to move. -/
def State.withRecord (s : State) (bytes : List Byte) : State :=
  { s.goIdle with pending := [], hookWaits := false, turn := 0, inbox := .record bytes :: s.inbox }

/-- Caller 0's read frame in flight, with the actions of a row of the bit-bang layer next, at its place in the frame, and
the framer first to move. -/
def State.withPrimitive (s : State) (i : Instr) : State :=
  let t : Transaction := .read 0 0
  let p := primitivePlace s.params i
  { { s with turn := 0, hookWaits := false, pending := [(0, .mdioRead 0 0 0)], owner := some 0,
             job := some (.frame (.read 0 0)) }.setBusy.loadFrame t with
    actions := (frameActions s.params t).take p ++ primitiveActions s.params i, pc := p }

/-- A table word where the next step takes it: a request, or bytes of none, in the inbox; a row of the bit-bang layer in
S.actions, from which the framer performs it. -/
def State.withWord (s : State) (bytes : List Byte) : State :=
  match decodeRecord bytes with
  | .ok i => if (callerOf i).isSome then s.withRecord bytes else s.withPrimitive i
  | .error _ => s.withRecord bytes

end Sys2Proof.Machine
end

