-- ==== Sys2Proof/Machine/Step.lean ====
section
/-!
DEFINITION. The step, and where an instruction stands so that the next step runs it. Both only call Framer.lean.
-/

namespace Sys2Proof.Machine

/-- One step of the machine: a caller's or the framer's move, or block reset. -/
def step (s : State) : Host.Outcome State Fault Refusal := Sys2Proof.Machine.schedule s

/-- `s` with the table word `w` where the next step takes it (log entry 16). -/
def State.withFetchWord (s : State) (nbits w : Nat) : State := s.withWord (Sys2Proof.tableBytes nbits w)

end Sys2Proof.Machine
end

