-- ==== Sys2Proof/Safety.lean ====
section
/-!
DEFINITION. What claims are stated in: the well-formedness of REGMAP, the framer's coherence, the end of a run, what a
drive trace says on the wire, and the states an answer leaves.
-/

namespace Sys2Proof.Machine

open Sys2Proof.Config

/-! ### REGMAP (40_register_model R148) -/

/-- A field of a 16-bit register (10_state R44). -/
def FieldDef.wf (f : FieldDef) : Bool := 1 ≤ f.w && f.off + f.w ≤ 16

/-- No field name stands twice (40_register_model R144). -/
def namesDistinct : List FieldDef → Bool
  | [] => true
  | f :: fs => !(fs.any fun g => g.name == f.name) && namesDistinct fs

/-- One entry of WF(REGMAP) (40_register_model R148). -/
def RegDef.wf (r : RegDef) : Bool :=
  r.addr ≤ maxRegAddr && r.width == regWidth && r.fields.all FieldDef.wf && namesDistinct r.fields

/-- The keys are strictly rising: the list is a finite map in its one form. -/
def addrsRising : RegMap → Bool
  | [] => true
  | r :: rest => rest.all (fun r' => r.addr < r'.addr) && addrsRising rest

/-- WF(REGMAP) (40_register_model R148), with the canonical form. -/
def regmapWf (m : RegMap) : Bool := addrsRising m && m.all RegDef.wf

/-! ### The framer -/

/-- The direction of the frame that a job's stage runs (10_state R32); the transactions of a supplied EXT_ACCESS may go
either way (43_client R277). -/
def Job.dir : Job → Option Dir
  | .frame (.write _ _ _) => some .write
  | .frame (.read _ _) => some .read
  | .readReg _ _ => some .read
  | .writeReg _ _ _ _ _ => some .write
  | .resetRead _ => some .read
  | .resetWrite _ _ => some .write
  | .extRead _ _ _ => none
  | .extWrite _ _ _ _ _ _ => none

/-- What 10_state R31 to R40 and R50 say of the framer and its callers in every state. -/
structure Coherent (s : State) : Prop where
  /-- R32: a job if and only if busy. -/
  job_iff : s.job.isSome = s.busy
  /-- R39. -/
  owner_iff : s.owner.isSome = s.busy
  /-- R35. -/
  txn_iff : s.txn.isSome = s.busy
  /-- R49, 42_frame_engine R232: nothing is left of a frame at IDLE. -/
  idle_empty : s.busy = false → s.actions = [] ∧ s.pc = 0
  /-- R33, R35: the actions are those of the latched transaction. -/
  actions_of_txn : ∀ t, s.txn = some t → s.actions = frameActions s.params t
  /-- R33. -/
  pc_le : s.pc ≤ s.actions.length
  /-- R32: the frame in flight is the one of the job's stage. -/
  dir_of_job : ∀ j t d, s.job = some j → s.txn = some t → j.dir = some d → t.dir = d
  /-- R40, R47: bus-using operations need S.frozen, which is never cleared. -/
  busy_frozen : s.busy = true → s.frozen = true
  /-- R50: who waits is the caller whose request holds the bus. -/
  waiting_iff : ∀ c, s.isWaiting c = true ↔ s.owner = some c
  /-- 43_client R280: RESET was accepted only with its field defined. -/
  reset_field : ∀ phy, s.job = some (.resetRead phy) →
    ∃ r f, regFind s.regmap ctrlRegAddr = some r ∧ r.field? resetField = some f
  /-- R37. -/
  ta_unused : s.params.checkTa = false → s.ta = none
  /-- 70 R352: the hook waits only inside its own call, in the middle of a frame. -/
  hook_in_frame : s.hookWaits = true → s.inHook = true
  /-- 40_register_model R148. -/
  regmap_wf : regmapWf s.regmap = true

/-- An input is a request that a caller of the block will issue. -/
def State.willIssue (s : State) : Input → Bool
  | .record bytes =>
    match recordCaller bytes with
    | some c => decide (c < s.params.nCallers)
    | none => false
  | .blockReset => false
  | .hook _ _ => false

/-- A run has ended (70_reset_and_hazards R354): no pending request, not busy, and no caller will issue a request. That
nothing else in the inbox (a block reset, the hook's records, records of no caller) keeps it from having ended is the
model's choice (log entry 25). -/
def State.ended (s : State) : Bool := s.pending.isEmpty && !s.busy && !s.inbox.any s.willIssue

/-! ### What an answer leaves -/

/-- `s` with events added to its trace. -/
def State.withEvents (s : State) (es : List Event) : State := { s with trace := s.trace ++ es }

/-- `s` after a request-time error: only the response is new (60_exceptions R322). -/
def State.afterError (s : State) (c : Nat) (e : Error) : State := s.withEvents [.respond c (.err e)]

/-- `s` after a request that was answered at once (42_frame_engine R228, R231). -/
def State.afterOk (s : State) (c : Nat) (req : Instr) (v : Value) : State :=
  s.withEvents [.accept c req, .respond c (.ok v)]

/-- `s` at IDLE with a job's result delivered to its caller (42_frame_engine R232). -/
def State.afterFinish (s : State) (c : Nat) (r : Result) : State :=
  { s with busy := false, job := none, owner := none, txn := none, actions := [], pc := 0,
           pending := s.pending.filter (fun e => e.1 ≠ c), trace := s.trace ++ [.respond c r] }

/-- `s` with a bus-using request accepted and its frame loaded (42_frame_engine R226 to R228). -/
def State.afterAccept (s : State) (c : Nat) (req : Instr) (j : Job) (t : Transaction) : State :=
  { s with busy := true, owner := some c, job := some j, txn := some t, actions := frameActions s.params t, pc := 0,
           rdata := if t.dir = .read then 0 else s.rdata, ta := if t.dir = .read then none else s.ta,
           pending := pendingPut c req s.pending, trace := s.trace ++ [.accept c req] }

/-- The framer stands at the finish step of job `j`, owned by `c`; any input may wait. -/
def State.atFinish (s : State) (j : Job) (c : Nat) : Prop :=
  s.busy = true ∧ s.job = some j ∧ s.owner = some c ∧ s.pc = s.actions.length

/-- `s` with the frame of `t` loaded for the next stage `j` of the job it runs (43_client R277, R280). -/
def State.afterStage (s : State) (j : Job) (t : Transaction) : State :=
  { s with job := some j, txn := some t, actions := frameActions s.params t, pc := 0,
           rdata := if t.dir = .read then 0 else s.rdata, ta := if t.dir = .read then none else s.ta }

/-- The result of a read frame: with CHECK_TA, a turnaround bit of 1 is NoPhyResponse (42_frame_engine R232, R234). -/
def State.resultOfRead (s : State) (v : Value) : Result :=
  if s.params.checkTa = true ∧ s.ta = some true then .err (.noPhyResponse s.rdata) else .ok v

/-- The frame that has just ended was a read, and its PHY did not respond (42_frame_engine R234). -/
def State.ReadUnanswered (s : State) : Prop :=
  (∃ phy reg, s.txn = some (.read phy reg)) ∧ s.params.checkTa = true ∧ s.ta = some true

/-- Two entries give a bit that both fields cover different values (40_register_model R154, R156). -/
def Conflicting (r : RegDef) (e1 e2 : String × Nat) : Prop :=
  ∃ f1 f2 p, r.field? e1.1 = some f1 ∧ r.field? e2.1 = some f2 ∧ f1.covers p = true ∧ f2.covers p = true ∧
    (e1.2 <<< f1.off).testBit p ≠ (e2.2 <<< f2.off).testBit p

/-- Field `f` of the register covers bit `p` for some entry of F. -/
def CoveredBy (r : RegDef) (F : FieldMap) (p : Nat) : Prop :=
  ∃ e ∈ F, ∃ f, r.field? e.1 = some f ∧ f.covers p = true

/-! ### Transport actions as observations -/

/-- The events of transport actions whose Samples take the free values from number `k` on (42_frame_engine R231). -/
def eventsFrom (k : Nat) : List Action → List Event
  | [] => []
  | .drive w :: l => .drive w :: eventsFrom k l
  | .delay :: l => .delay :: eventsFrom k l
  | .sample :: l => .sample (dataIn (sampleAnswer k)) :: eventsFrom (k + 1) l

/-- The `n` bits sampled from draw number `k` on. -/
def drawnBits (k n : Nat) : List Bool := (List.range n).map fun i => dataIn (sampleAnswer (k + i))

/-- Recovering wire bits from a drive trace (30_encoding R115): at each 0→1 transition of CLK, the driven bit, or `none`
where the line is released. `clk` is the clock's level before the first action. -/
def wireBits (clk : Bool) : List Action → List (Option Bool)
  | [] => []
  | .drive w :: l =>
    let rise := !clk && w.getLsbD 0
    if rise then (if w.getLsbD 1 then some (w.getLsbD 2) else none) :: wireBits true l
    else wireBits (w.getLsbD 0) l
  | .sample :: l => wireBits clk l
  | .delay :: l => wireBits clk l

/-- The event of a transport action. -/
def Event.isAction : Event → Bool
  | .accept _ _ => false
  | .drive _ => true
  | .sample _ => true
  | .delay => true
  | .respond _ _ => false

def Action.isDrive : Action → Bool
  | .drive _ => true
  | .sample => false
  | .delay => false

def Action.isSample : Action → Bool
  | .drive _ => false
  | .sample => true
  | .delay => false

def Action.isDelay : Action → Bool
  | .drive _ => false
  | .sample => false
  | .delay => true

/-- One Delay stands after every Drive and every Sample of the list, and nowhere else (41_bitbang R193). -/
def DelayAfterEach (l : List Action) : Prop :=
  ∃ accesses : List Action, (∀ a ∈ accesses, a.isDelay = false) ∧ l = accesses.flatMap fun a => [a, .delay]

/-- Drives, samples, delays, all actions and MDC rising edges of a list, the clock low before it (41_bitbang R206). -/
def actionCounts (l : List Action) : Nat × Nat × Nat × Nat × Nat :=
  (l.countP Action.isDrive, l.countP Action.isSample, l.countP Action.isDelay, l.length, (wireBits false l).length)

/-- The six drive words the block emits (30_encoding R106). -/
def emittedWords : List DriveWord := [0b110, 0b111, 0b010, 0b011, 0b000, 0b001]

/-- Whether a request record spells an operation (60_exceptions R321): not INVALID_0, not INVALID_F, and a view it gets
the fields of is a view of a register of REGMAP (10_state R45). -/
def spellsOperation (m : RegMap) : Instr → Bool
  | .invalid0 _ => false
  | .invalidF _ => false
  | .viewGet _ v _ => (regFind m v.addr).isSome
  | .viewFields _ v => (regFind m v.addr).isSome
  | i => (callerOf i).isSome

end Sys2Proof.Machine
end

