-- ==== Sys2Proof/Certificates/Slice0/Obligations.lean ====
section
/-!
DEFINITION. The statements for the provers. Each docstring names the rules of spec/ it formalises.

Where a statement's next state is `afterOk`, the Accept event in front of the response is the model's reading of
42_frame_engine R231 for requests that do not use the bus (log entry 12). The counter `draws` is the model's own (log
entry 3); no statement rests on its value at reset.
-/

open Sys2Proof Sys2Proof.Machine Sys2Proof.Config

/-! ### Reset and the step -/

/-- 10_state R49, 70 R342: power-up. (S.rdata and the model's own fields are the model's choice and not stated.) -/
def Obligations.PowerUpStateIsIdle : Prop :=
  State.reset.busy = false ∧ State.reset.job = none ∧ State.reset.actions = [] ∧ State.reset.pc = 0 ∧
  State.reset.txn = none ∧ State.reset.ta = none ∧ State.reset.lines = none ∧ State.reset.owner = none ∧
  State.reset.pending = [] ∧ State.reset.frozen = false ∧ State.reset.regmap = [] ∧ State.reset.phase = .idle

/-- 70 R340, R341: block reset, taken by a step, in any state; afterwards the framer waits for a request. A block reset that
waits may come at any step. (That it arrives as an input, which move a step makes, and that it ends a hook's call, are the
model's choice: log entries 17, 4 and 19.) -/
def Obligations.BlockResetPutsFramerToIdle : Prop :=
  (∀ (s : State) (rest : List Input), s.mover = some (.input .blockReset rest) →
    ∃ t, step s = .next t ∧
      t.busy = false ∧ t.job = none ∧ t.actions = [] ∧ t.pc = 0 ∧ t.txn = none ∧ t.ta = none ∧ t.lines = none ∧
      t.owner = none ∧ t.pending = [] ∧ t.frozen = s.frozen ∧ t.regmap = s.regmap ∧ t.trace = s.trace ∧
      t.params = s.params ∧ t.refusalMark = s.refusalMark ∧ t.inbox = rest ∧
      t.phase = .idle ∧ t.hookWaits = false ∧ (rest = [] → step t = .next t)) ∧
  (∀ (s : State) (before after : List Input), s.inbox = before ++ .blockReset :: after →
    ∃ k, ({ s with turn := k } : State).mover = some (.input .blockReset (before ++ after)))

/-- The step runs the decoded request (42_frame_engine R228), be it a caller's or one that the delay hook makes while it runs
(70 R352). Around `exec` it takes the record out of the inbox and, where several moves could be made, redraws the turn; a
hook that waits for a bus-using request to succeed is marked as not returning. Whatever stands before it, the first record
of a caller that waits for nothing may move at any step (R228, 10_state R50), and so may the hook's first record at any step
while the hook runs. (The inbox and the turn are the model's choice: log entries 4, 16; so are the hook's number and when
it runs: log entry 19.) -/
def Obligations.StepRunsDecodedRecord : Prop :=
  (∀ (s : State) (bytes : List Byte) (rest : List Input) (i : Instr) (c : Nat),
    decodeRecord bytes = .ok i → callerOf i = some c →
    let turn' := if 1 < s.moves.length then turnPick (s.draws + 1) else s.turn
    let draws' := if 1 < s.moves.length then s.draws + 1 else s.draws
    (s.mover = some (.input (.record bytes) rest) →
      step s = exec i { s with inbox := rest, turn := turn', draws := draws' }) ∧
    (∀ waits, s.mover = some (.input (.hook bytes waits) rest) →
      step s = exec i { s with
        inbox := rest
        turn := turn'
        draws := draws'
        hookWaits := s.hookWaits || (waits && usesBus i) })) ∧
  (∀ (s : State) (bytes : List Byte) (before after : List Input) (i : Instr) (c : Nat),
    decodeRecord bytes = .ok i → callerOf i = some c → s.isWaiting c = false →
    (∀ b ∈ before, inputCaller b ≠ some c) →
    (s.inbox = before ++ .record bytes :: after → c < s.params.nCallers →
      ∃ k, ({ s with turn := k } : State).mover = some (.input (.record bytes) (before ++ after))) ∧
    (∀ waits, s.inbox = before ++ .hook bytes waits :: after → c = s.params.nCallers → s.inHook = true →
      ∃ k, ({ s with turn := k } : State).mover = some (.input (.hook bytes waits) (before ++ after))))

/-- When the framer moves, and when nothing does (00_scope R8, 42_frame_engine R230, 60 R332; which of several moves is made
is log entry 4's). A hook that never returns keeps the framer from stepping (70 R352, 93 I18; log entry 19). -/
def Obligations.StepOtherwiseMovesFramerOrWaits : Prop :=
  ∀ s : State,
    (s.mover = some .framer → step s = framerStep { s with
      turn := if 1 < s.moves.length then turnPick (s.draws + 1) else s.turn
      draws := if 1 < s.moves.length then s.draws + 1 else s.draws }) ∧
    (s.mover = none → step s = .next s) ∧
    (s.busy = true → s.hookWaits = false → ∃ k, ({ s with turn := k } : State).mover = some .framer) ∧
    (s.busy = true → s.hookWaits = false → s.inbox = [] → step s = framerStep s) ∧
    (s.busy = false ∨ s.hookWaits = true → s.mover ≠ some .framer) ∧
    (s.mover = none ↔ (s.busy = false ∨ s.hookWaits = true) ∧ ∀ inp ∈ s.inbox, s.ready inp = false)

/-- A table word placed for the next step is what runs next. A request of one of the block's callers runs in the next step,
from any state. A row of the bit-bang layer, which the framer performs one action a step (00_scope R8), runs in the next
steps, and they do together what its meaning says. (How a word is placed, and what such a meaning is, are the model's
choice: log entries 16 and 10.) -/
def Obligations.PlacedTableWordRunsNext : Prop :=
  ∀ (s : State) (nbits w : Nat) (i : Instr), decodeTableWord nbits w = some i →
    let p := s.withFetchWord nbits w
    (∀ c, callerOf i = some c → c < s.params.nCallers → step p = exec i { p.settleTurn with inbox := s.inbox }) ∧
    (callerOf i = none → s.inbox = [] →
      let n := (primitiveActions s.params i).length
      ∃ t, exec i p = .next t ∧ Sys2Proof.core.run n p = .next { t with pc := t.pc + n })

/-- 10_state R31 to R40, R50; 40_register_model R148: the framer's coherence holds at power-up. -/
def Obligations.CoherentAtReset : Prop := Coherent State.reset

/-- 10_state R31 to R40, R50; 40_register_model R148: every step keeps the framer's coherence. -/
def Obligations.EveryStepKeepsCoherence : Prop :=
  ∀ s t : State, Coherent s → step s = .next t → Coherent t

/-- 42_frame_engine R230, R235, 43_client R280, 60 R327: from a coherent state the machine never stops, whatever input
waits; a hook that never returns is such a state too, in which the framer has no move (log entry 19). (A waiting caller's record is held back: log entry 13; a step in which nothing can move answers the same state:
log entry 16; the faults and when they are raised: log entry 20.) -/
def Obligations.CoherentMachineNeverStops : Prop :=
  ∀ s : State, Coherent s → ∃ t, step s = .next t

/-- 10_state R47, 40_register_model R147, 20_memory R87: once frozen, always frozen, and REGMAP never changes. -/
def Obligations.FrozenConfigurationNeverChanges : Prop :=
  ∀ s t : State, s.frozen = true → step s = .next t → t.frozen = true ∧ t.regmap = s.regmap

/-- 60_exceptions R321: the refusal mark is kept; 42_frame_engine R231: the trace only grows; 00_scope R8: a step performs at
most one transport action, and none while the framer holds no job; 70 R354: a run that has ended stays so and records nothing
more (what keeps a run from having ended is log entry 25's); log entry 1: the parameters never change. -/
def Obligations.MarkKeptAndTraceOnlyGrows : Prop :=
  ∀ s t : State, step s = .next t →
    (s.refusalMark = true → t.refusalMark = true) ∧ t.params = s.params ∧
    (s.ended = true → t.ended = true ∧ t.trace = s.trace) ∧
    ∃ es, t.trace = s.trace ++ es ∧ es.countP Event.isAction ≤ 1 ∧ (s.busy = false → es.countP Event.isAction = 0)

/-- 42_frame_engine R229, R235, 70 R352: no record that a busy block takes, a caller's or the delay hook's, touches the frame
in flight. While the hook waits for a bus-using request to succeed, which never happens, the frame stands still until a block
reset (93 I18; that a block reset ends it is log entry 19's). -/
def Obligations.NoRecordDisturbsFrameInFlight : Prop :=
  (∀ (s t : State) (inp : Input), s.busy = true → inp ≠ .blockReset → takeInput inp s = .next t →
    t.busy = s.busy ∧ t.job = s.job ∧ t.actions = s.actions ∧ t.pc = s.pc ∧ t.txn = s.txn ∧ t.rdata = s.rdata ∧
    t.ta = s.ta ∧ t.lines = s.lines ∧ t.owner = s.owner ∧ t.pending = s.pending) ∧
  (∀ s t : State, s.busy = true → s.hookWaits = true → step s = .next t →
    (∃ rest, s.mover = some (.input .blockReset rest)) ∨
    (t.hookWaits = true ∧ t.busy = true ∧ t.job = s.job ∧ t.actions = s.actions ∧ t.pc = s.pc ∧ t.txn = s.txn ∧
      t.rdata = s.rdata ∧ t.ta = s.ta ∧ t.lines = s.lines ∧ t.owner = s.owner ∧ t.pending = s.pending))

/-! ### Encodings -/

/-- 30_encoding R103, R108, R109: an instruction's bytes, with any zero padding, decode to it; WRITE_BIT(0, 0) and RELEASE
are one word (41_bitbang R200), which reads as RELEASE. (The bytes of operands are the model's choice: log entries 7, 8.) -/
def Obligations.DecodeOfEncodeIsCanonical : Prop :=
  ∀ (i : Instr) (k : Nat), i.wf = true → decodeRecord (encode i ++ List.replicate k 0) = .ok i.canon

/-- 30_encoding R103: what the masks and matches say of every frame word, with the preamble and without. -/
def Obligations.FrameWordsMatchTheTable : Prop :=
  ∀ (phy reg : Addr5) (data : Word),
    writeFrameWord phy reg data &&& 0xFFFFFFFFF0030000#64 = 0xFFFFFFFF50020000#64 ∧
    readFrameWord phy reg &&& 0xFFFFFFFFF0000000#64 = 0xFFFFFFFF60000000#64 ∧
    (writeFrameWord phy reg data).extractLsb' 0 32 &&& 0xF0030000#32 = 0x50020000#32 ∧
    (readFrameWord phy reg).extractLsb' 0 32 &&& 0xF0000000#32 = 0x60000000#32

/-- 30_encoding R103: a frame word decodes only as the table's rows say, every field at its place. (That a frame stands
as the first eight bytes of a record is the model's byte form: log entry 7. R110 says that no other ST or OP can be
expressed; that such a record is refused by name is the model's choice: log entry 15.) -/
def Obligations.OnlyTableFramesDecode : Prop :=
  ∀ (F : BitVec 64) (bs : List Byte),
    (∀ c phy reg data, decodeRecord (frameBytes F ++ bs) = .ok (.cl22WriteFrame c phy reg data) →
      F = writeFrameWord phy reg data) ∧
    (∀ c phy reg, decodeRecord (frameBytes F ++ bs) = .ok (.cl22ReadFrame c phy reg) →
      F &&& 0xFFFFFFFFFFFC0000#64 = readFrameWord phy reg) ∧
    (F.extractLsb' 56 8 = 0xFF#8 → F &&& 0xFFFFFFFFF0030000#64 ≠ 0xFFFFFFFF50020000#64 →
      F &&& 0xFFFFFFFFF0000000#64 ≠ 0xFFFFFFFF60000000#64 →
      decodeRecord (frameBytes F ++ bs) = .error .reservedFrame)

/-- A few words of each kind of row, written out from the spec, decode to the instruction they stand for (95 E1, V101;
30_encoding R103, R108, R109; the zero operand bytes behind a selector are the model's choice: log entry 7). -/
def Obligations.SpecWordsDecode : Prop :=
  decodeTableWord 64 0xFFFFFFFF50028000 = some (.cl22WriteFrame 0 0 0 0x8000) ∧
  decodeTableWord 64 0xFFFFFFFF61880000 = some (.cl22ReadFrame 0 3 2) ∧
  decodeTableWord 8 0xA = some (.mdioWrite 0 0 0 0) ∧
  decodeTableWord 8 0x1 = some (.defineRegister 0 0 none none) ∧
  decodeTableWord 24 0xE0F0E0 = some (.writeBit true true) ∧
  decodeTableWord 24 0x109080 = some .readBit ∧
  decodeTableWord 24 0x809080 = some .release ∧
  decodeTableWord 32 0x80109080 = some .relc

/-! ### The register model -/

/-- 40_register_model R142. -/
def Obligations.DefineRegisterResult : Prop :=
  ∀ (s : State) (c addr : Nat) (width : Option Nat) (name : Option String), s.isWaiting c = false →
    (s.frozen = true →
      exec (.defineRegister c addr width name) s = .next (s.afterError c .configFrozen)) ∧
    (s.frozen = false → 63 < addr →
      exec (.defineRegister c addr width name) s = .next (s.afterError c (.addressOutOfRange addr))) ∧
    (s.frozen = false → addr ≤ 63 → width.getD 16 ≠ 16 →
      exec (.defineRegister c addr width name) s = .next (s.afterError c (.unsupportedWidth (width.getD 16)))) ∧
    (s.frozen = false → addr ≤ 63 → width.getD 16 = 16 → (∃ r, regFind s.regmap addr = some r) →
      exec (.defineRegister c addr width name) s = .next (s.afterError c (.duplicateAddress addr))) ∧
    (s.frozen = false → addr ≤ 63 → width.getD 16 = 16 → regFind s.regmap addr = none →
      ∃ m, exec (.defineRegister c addr width name) s =
          .next ({ s with regmap := m }.afterOk c (.defineRegister c addr width name) (.handle addr)) ∧
        ∀ a, regFind m a = if a = addr then some ⟨addr, 16, [], name⟩ else regFind s.regmap a)

/-- 40_register_model R143. -/
def Obligations.DefineFieldResult : Prop :=
  ∀ (s : State) (c addr : Nat) (name : String) (off w : Nat), s.isWaiting c = false →
    (s.frozen = true →
      exec (.defineField c addr name off w) s = .next (s.afterError c .configFrozen)) ∧
    (s.frozen = false → 63 < addr →
      exec (.defineField c addr name off w) s = .next (s.afterError c (.addressOutOfRange addr))) ∧
    (s.frozen = false → addr ≤ 63 → regFind s.regmap addr = none →
      exec (.defineField c addr name off w) s = .next (s.afterError c (.unknownRegister addr))) ∧
    (∀ r, s.frozen = false → addr ≤ 63 → regFind s.regmap addr = some r →
      (name ∈ r.fields.map FieldDef.name →
        exec (.defineField c addr name off w) s = .next (s.afterError c (.duplicateField addr name))) ∧
      (name ∉ r.fields.map FieldDef.name → (w = 0 ∨ r.width < off + w) →
        exec (.defineField c addr name off w) s = .next (s.afterError c (.fieldOutOfRange addr name off w))) ∧
      (name ∉ r.fields.map FieldDef.name → 1 ≤ w → off + w ≤ r.width →
        ∃ m, exec (.defineField c addr name off w) s =
            .next ({ s with regmap := m }.afterOk c (.defineField c addr name off w) .unit) ∧
          ∀ a, regFind m a =
            if a = addr then some { r with fields := r.fields ++ [⟨name, off, w⟩] } else regFind s.regmap a))

/-- 40_register_model R146. -/
def Obligations.FreezeResult : Prop :=
  ∀ (s : State) (c : Nat), s.isWaiting c = false →
    (s.frozen = true → exec (.freeze c) s = .next (s.afterError c .configFrozen)) ∧
    (s.frozen = false → exec (.freeze c) s = .next ({ s with frozen := true }.afterOk c (.freeze c) .unit))

/-- 40_register_model R149. -/
def Obligations.LookupResult : Prop :=
  ∀ (s : State) (c addr : Nat), s.isWaiting c = false →
    (63 < addr → exec (.lookup c addr) s = .next (s.afterError c (.addressOutOfRange addr))) ∧
    (addr ≤ 63 → regFind s.regmap addr = none →
      exec (.lookup c addr) s = .next (s.afterError c (.unknownRegister addr))) ∧
    (∀ r, addr ≤ 63 → regFind s.regmap addr = some r →
      exec (.lookup c addr) s = .next (s.afterOk c (.lookup c addr) (.regDef r)))

/-- 40_register_model R154: the first failing check is reported, of several failing entries any one (log entry 5), and
otherwise a word is returned. The draw counter is the model's own. -/
def Obligations.PackResult : Prop :=
  ∀ (s : State) (c addr : Nat) (F : FieldMap) (base : Option Nat), s.isWaiting c = false →
    let i : Instr := .pack c addr F base
    let s' : State := { s with draws := s.draws + 1 }
    (63 < addr → exec i s = .next (s'.afterError c (.addressOutOfRange addr))) ∧
    (addr ≤ 63 → 0xFFFF < base.getD 0 →
      exec i s = .next (s'.afterError c (.argumentOutOfRange "base" (base.getD 0)))) ∧
    (addr ≤ 63 → base.getD 0 ≤ 0xFFFF → regFind s.regmap addr = none →
      exec i s = .next (s'.afterError c (.unknownRegister addr))) ∧
    (∀ r, addr ≤ 63 → base.getD 0 ≤ 0xFFFF → regFind s.regmap addr = some r →
      ((∃ e ∈ F, r.field? e.1 = none) →
        ∃ e ∈ F, r.field? e.1 = none ∧ exec i s = .next (s'.afterError c (.unknownField addr e.1))) ∧
      ((∀ e ∈ F, r.field? e.1 ≠ none) →
        ((∃ e ∈ F, ∃ f, r.field? e.1 = some f ∧ 2 ^ f.w ≤ e.2) →
          ∃ e ∈ F, ∃ f, r.field? e.1 = some f ∧ 2 ^ f.w ≤ e.2 ∧
            exec i s = .next (s'.afterError c (.valueOutOfRange e.1 e.2))) ∧
        ((∀ e ∈ F, ∀ f, r.field? e.1 = some f → e.2 < 2 ^ f.w) →
          ((∃ e1 ∈ F, ∃ e2 ∈ F, Conflicting r e1 e2) →
            ∃ e1 ∈ F, ∃ e2 ∈ F, Conflicting r e1 e2 ∧
              exec i s = .next (s'.afterError c (.aliasConflict e1.1 e2.1))) ∧
          ((∀ e1 ∈ F, ∀ e2 ∈ F, ¬ Conflicting r e1 e2) →
            exec i s = .next (s'.afterOk c i
              (.word (mergeAll s.params.packMerge r F (BitVec.ofNat 16 (base.getD 0)))))))))

/-- 40_register_model R161: the round trip through PACK, UNPACK and VIEW_GET, for every accepted field map. (The Accept
event in front of each response, part of `afterOk`, is log entry 12's.) -/
def Obligations.PackUnpackRoundTrip : Prop :=
  ∀ (m : RegMap) (k a base : Nat) (F : FieldMap) (w : Word) (n : String) (v : Nat),
    regmapWf m = true → FieldMap.isMap F = true → (n, v) ∈ F →
    (packWord .replace k m a F base = .ok w ∨ (packWord .orIn k m a F base = .ok w ∧ base = 0)) →
    ∀ (s : State) (c : Nat), s.regmap = m → s.isWaiting c = false →
      exec (.unpack c a w.toNat) s = .next (s.afterOk c (.unpack c a w.toNat) (.view ⟨a, w⟩)) ∧
      exec (.viewGet c ⟨a, w⟩ n) s = .next (s.afterOk c (.viewGet c ⟨a, w⟩ n) (.nat v))

/-- 40_register_model R164: a bit no entry covers keeps the base's value, under either merge. -/
def Obligations.PackKeepsUncoveredBits : Prop :=
  ∀ (mode : PackMerge) (m : RegMap) (k a base : Nat) (F : FieldMap) (w : Word) (r : RegDef) (p : Nat),
    regmapWf m = true → regFind m a = some r → packWord mode k m a F base = .ok w → p < 16 →
    ¬ CoveredBy r F p → w.getLsbD p = base.testBit p

/-- 40_register_model R155: the order of the entries of an accepted map does not change the word, and the two merges
differ only where the base has a 1 in a bit that F sets to 0. -/
def Obligations.PackOrderAndMergeMode : Prop :=
  ∀ (m : RegMap) (k a base : Nat) (F : FieldMap) (w : Word) (r : RegDef),
    regmapWf m = true → FieldMap.isMap F = true → regFind m a = some r →
    (∀ mode F', packWord mode k m a F base = .ok w → F'.Perm F → packWord mode k m a F' base = .ok w) ∧
    (packWord .replace k m a F base = .ok w →
      (∀ p < 16, ∀ e ∈ F, ∀ f, r.field? e.1 = some f → f.covers p = true → base.testBit p = true →
        e.2.testBit (p - f.off) = true) →
      packWord .orIn k m a F base = .ok w)

/-- 40_register_model R157. -/
def Obligations.UnpackResult : Prop :=
  ∀ (s : State) (c addr word : Nat), s.isWaiting c = false →
    (63 < addr → exec (.unpack c addr word) s = .next (s.afterError c (.addressOutOfRange addr))) ∧
    (addr ≤ 63 → regFind s.regmap addr = none →
      exec (.unpack c addr word) s = .next (s.afterError c (.unknownRegister addr))) ∧
    (∀ r, addr ≤ 63 → regFind s.regmap addr = some r →
      (0xFFFF < word →
        exec (.unpack c addr word) s = .next (s.afterError c (.valueOutOfRange "word" word))) ∧
      (word ≤ 0xFFFF →
        exec (.unpack c addr word) s =
          .next (s.afterOk c (.unpack c addr word) (.view ⟨addr, BitVec.ofNat 16 word⟩))))

/-- 40_register_model R158, R159: the by-name access to a view, and the list of its fields in definition order. -/
def Obligations.ViewAccessResult : Prop :=
  ∀ (s : State) (c : Nat) (view : FieldView) (r : RegDef), s.isWaiting c = false →
    regFind s.regmap view.addr = some r →
    (∀ name, name ∉ r.fields.map FieldDef.name →
      exec (.viewGet c view name) s = .next (s.afterError c (.unknownField view.addr name))) ∧
    (∀ name f, r.field? name = some f →
      exec (.viewGet c view name) s =
        .next (s.afterOk c (.viewGet c view name) (.nat ((view.word.toNat >>> f.off) % 2 ^ f.w)))) ∧
    exec (.viewFields c view) s =
      .next (s.afterOk c (.viewFields c view)
        (.fields (r.fields.map fun f => (f.name, (view.word.toNat >>> f.off) % 2 ^ f.w))))

/-- 40_register_model R162: aliases agree on every shared bit, whatever the word. -/
def Obligations.AliasesAgreeOnSharedBits : Prop :=
  ∀ (f g : FieldDef) (x : Word),
    (f.off = g.off → f.w = g.w → fget f x = fget g x) ∧
    (∀ p, f.covers p = true → g.covers p = true →
      (fget f x).testBit (p - f.off) = x.getLsbD p ∧ (fget g x).testBit (p - g.off) = x.getLsbD p)

/-- 40_register_model R160. -/
def Obligations.ReverseResult : Prop :=
  ∀ (s : State) (c v n : Nat), s.isWaiting c = false →
    (2 ^ n ≤ v → exec (.reverse c v n) s = .next (s.afterError c (.argumentOutOfRange "v" v))) ∧
    (v < 2 ^ n →
      exec (.reverse c v n) s = .next (s.afterOk c (.reverse c v n)
        (.nat ((List.range n).map fun i => (v.testBit i).toNat <<< (n - 1 - i)).sum)))

/-- 40_register_model R163: reversing twice gives the value back, for every width. -/
def Obligations.ReverseTwiceIsIdentity : Prop :=
  ∀ v n : Nat, v < 2 ^ n → reverseBits v n < 2 ^ n ∧ reverseBits (reverseBits v n) n = v

/-- 40_register_model R150: a base address and its extended twin are different keys, and defining a register or a field at
one leaves the other alone. -/
def Obligations.BanksNeverAlias : Prop :=
  ∀ a : Nat, a ≤ 31 → a ≠ a ||| 0x20 ∧
    ∀ (s t : State) (c : Nat),
      ((∃ width name, exec (.defineRegister c a width name) s = .next t) ∨
        (∃ name off w, exec (.defineField c a name off w) s = .next t) →
          regFind t.regmap (a ||| 0x20) = regFind s.regmap (a ||| 0x20)) ∧
      ((∃ width name, exec (.defineRegister c (a ||| 0x20) width name) s = .next t) ∨
        (∃ name off w, exec (.defineField c (a ||| 0x20) name off w) s = .next t) →
          regFind t.regmap a = regFind s.regmap a)

/-- 10_state R31, 42_frame_engine R228: a request that does not use the bus neither reads nor writes S.busy, and touches
nothing of a frame in flight. -/
def Obligations.RegisterModelIgnoresTheBus : Prop :=
  ∀ (i : Instr) (c : Nat) (b : Bool) (s t : State), callerOf i = some c → usesBus i = false →
    exec i s = .next t →
    exec i { s with busy := b } = .next { t with busy := b } ∧
    t.busy = s.busy ∧ t.job = s.job ∧ t.actions = s.actions ∧ t.pc = s.pc ∧ t.txn = s.txn ∧ t.rdata = s.rdata ∧
    t.ta = s.ta ∧ t.lines = s.lines ∧ t.owner = s.owner ∧ t.pending = s.pending

/-! ### The bit-bang transport -/

/-- 41_bitbang R194, R192: a Drive sets the lines and is recorded; a Delay is recorded and changes no block state. (That
DRIVE is defined for 100 and 101 too, which no run drives, is log entry 10's.) -/
def Obligations.DriveAndDelayResult : Prop :=
  ∀ s : State,
    (∀ w, exec (.drive w) s = .next { s with lines := some w, trace := s.trace ++ [.drive w] }) ∧
    exec .delay s = .next { s with trace := s.trace ++ [.delay] }

/-- 41_bitbang R195, 42_frame_engine R230: a Sample returns bit 0 of the transport's answer, which goes into S.rdata in
DATA_IN, into S.ta in TURNAROUND with CHECK_TA, and nowhere else. -/
def Obligations.SampleResult : Prop :=
  ∀ s : State,
    let b := (sampleAnswer s.draws).getLsbD 0
    (s.phase = .dataIn →
      exec .sample s = .next { s with rdata := BitVec.ofNat 16 (2 * s.rdata.toNat + b.toNat),
                                      trace := s.trace ++ [.sample b], draws := s.draws + 1 }) ∧
    (s.phase = .turnaround → s.params.checkTa = true →
      exec .sample s = .next { s with ta := some b, trace := s.trace ++ [.sample b], draws := s.draws + 1 }) ∧
    (s.phase ≠ .dataIn → (s.phase = .turnaround → s.params.checkTa = false) →
      exec .sample s = .next { s with trace := s.trace ++ [.sample b], draws := s.draws + 1 })

/-- 41_bitbang R196, R200: WRITE_BIT's three drive words `ve0 ve1 ve0`, a Delay after each; RELEASE is WRITE_BIT(0, 0).
(That the meaning is the whole primitive at once is the model's choice: log entry 10.) -/
def Obligations.WriteBitAndReleaseResult : Prop :=
  ∀ s : State,
    (∀ v e : Bool,
      let w0 : DriveWord := BitVec.ofNat 3 (4 * v.toNat + 2 * e.toNat)
      exec (.writeBit v e) s = .next { s with
        lines := some w0
        trace := s.trace ++ [.drive w0, .delay, .drive (w0 ||| 1), .delay, .drive w0, .delay] }) ∧
    exec .release s = .next { s with
      lines := some 0b000
      trace := s.trace ++ [.drive 0b000, .delay, .drive 0b001, .delay, .drive 0b000, .delay] } ∧
    exec .release s = exec (.writeBit false false) s

/-- 41_bitbang R198, R199, R201; log entries 10, 11 (the model's choice: where the bit of a READ_BIT or RELC performed by
itself goes): the actions in order, one Sample, and the lines left released with the clock low. -/
def Obligations.ReadBitAndRelcResult : Prop :=
  ∀ s : State,
    let b := (sampleAnswer s.draws).getLsbD 0
    (exec .readBit s = .next { s with
      rdata := BitVec.ofNat 16 (2 * s.rdata.toNat + b.toNat)
      lines := some 0b000
      draws := s.draws + 1
      trace := s.trace ++ match s.params.samplePoint with
        | .beforeRise => [.sample b, .delay, .drive 0b001, .delay, .drive 0b000, .delay]
        | .afterRise => [.drive 0b001, .delay, .sample b, .delay, .drive 0b000, .delay]
        | .afterFall => [.drive 0b001, .delay, .drive 0b000, .delay, .sample b, .delay] }) ∧
    (exec .relc s = .next { s with
      ta := if s.params.checkTa then some b else s.ta
      lines := some 0b000
      draws := s.draws + 1
      trace := s.trace ++
        [.drive 0b000, .delay, .sample b, .delay, .drive 0b001, .delay, .drive 0b000, .delay] })

/-- 41_bitbang R202, R203: SHIFT_OUT sends the n bits of v, most significant first, one WRITE_BIT each. (That the
meaning is the whole primitive at once is the model's choice: log entry 10.) -/
def Obligations.ShiftOutResult : Prop :=
  ∀ (s : State) (v n : Nat) (e : Bool),
    exec (.shiftOut v n e) s = .next { s with
      lines := if n = 0 then s.lines else some (BitVec.ofNat 3 (4 * (v % 2) + 2 * e.toNat))
      trace := s.trace ++ ((List.range n).map fun k => v.testBit (n - 1 - k)).flatMap fun b =>
        let w0 : DriveWord := BitVec.ofNat 3 (4 * b.toNat + 2 * e.toNat)
        [.drive w0, .delay, .drive (w0 ||| 1), .delay, .drive w0, .delay] }

/-- 41_bitbang R204: SHIFT_IN's word is the sum of the 16 sampled bits, the first at bit 15. (That the meaning is the
whole primitive at once is the model's choice: log entry 10.) -/
def Obligations.ShiftInResult : Prop :=
  ∀ s : State,
    exec .shiftIn s = .next { s with
      rdata := BitVec.ofNat 16
        ((List.range 16).map fun i => ((sampleAnswer (s.draws + i)).getLsbD 0).toNat <<< (15 - i)).sum
      lines := some 0b000
      draws := s.draws + 16
      trace := s.trace ++ eventsFrom s.draws (shiftInActions s.params.samplePoint) }

/-- 41_bitbang R193: in every primitive and every frame, exactly one Delay follows every Drive and every Sample, and there
is no other; so a list with d Drives and n Samples has d + n Delays. -/
def Obligations.OneDelayAfterEveryAccess : Prop :=
  (∀ v e, DelayAfterEach (writeBitActions v e)) ∧ DelayAfterEach releaseActions ∧
  (∀ sp, DelayAfterEach (readBitActions sp)) ∧ DelayAfterEach relcActions ∧
  (∀ v n e, DelayAfterEach (shiftOutActions v n e)) ∧ (∀ sp, DelayAfterEach (shiftInActions sp)) ∧
  (∀ p t, DelayAfterEach (frameActions p t)) ∧
  ∀ l, DelayAfterEach l → l.countP Action.isDelay = l.countP Action.isDrive + l.countP Action.isSample

/-- 41_bitbang R205, R206, 42_frame_engine R237: drives, samples, delays, actions and clock rises of every primitive, of
each frame, and of RESET's two frames together. -/
def Obligations.ActionCounts : Prop :=
  (∀ v e, actionCounts (writeBitActions v e) = (3, 0, 3, 6, 1)) ∧
  actionCounts releaseActions = (3, 0, 3, 6, 1) ∧
  (∀ sp, actionCounts (readBitActions sp) = (2, 1, 3, 6, 1)) ∧
  actionCounts relcActions = (3, 1, 4, 8, 1) ∧
  ∀ (p : Params) (phy reg phy' reg' : Addr5) (data : Word),
    actionCounts (writeActions phy reg data) = (192, 0, 192, 384, 64) ∧
    (p.checkTa = false → actionCounts (readActions p phy reg) = (182, 16, 198, 396, 66)) ∧
    (p.checkTa = true → actionCounts (readActions p phy reg) = (182, 17, 199, 398, 66)) ∧
    (p.checkTa = false →
      actionCounts (readActions p phy reg ++ writeActions phy' reg' data) = (374, 16, 390, 780, 130))

/-- 30_encoding R101, R115: what a write frame puts on the wire, and that it is the frame word of R103, bit 63 first. -/
def Obligations.WriteFrameOnTheWire : Prop :=
  ∀ (phy reg : Addr5) (data : Word) (clk : Bool),
    wireBits clk (writeActions phy reg data) =
      (List.replicate 32 true ++ [false, true] ++ [false, true] ++ bits phy.toNat 5 ++ bits reg.toNat 5 ++
        [true, false] ++ bits data.toNat 16).map some ∧
    wireBits clk (writeActions phy reg data) =
      (List.range 64).map fun k => some ((writeFrameWord phy reg data).getLsbD (63 - k))

/-- 30_encoding R102, R115: a read frame puts 46 driven bits on the wire, then 20 released bit times. -/
def Obligations.ReadFrameOnTheWire : Prop :=
  ∀ (p : Params) (phy reg : Addr5) (clk : Bool),
    wireBits clk (readActions p phy reg) =
      (List.replicate 32 true ++ [false, true] ++ [true, false] ++ bits phy.toNat 5 ++ bits reg.toNat 5).map some ++
        List.replicate 20 none

/-- 30_encoding R106, R111: no frame drives a word but the six, and from a coherent state no step drives another. -/
def Obligations.OnlySixDriveWords : Prop :=
  (∀ (p : Params) (t : Transaction) (w : DriveWord), .drive w ∈ frameActions p t → w ∈ emittedWords) ∧
  (∀ (s t : State) (es : List Event) (w : DriveWord), Coherent s → step s = .next t → t.trace = s.trace ++ es →
    .drive w ∈ es → w ∈ emittedWords)

/-- 42_frame_engine R225: where the Samples of a frame stand, and their phase. -/
def Obligations.SamplePositionsAndPhases : Prop :=
  (∀ (phy reg : Addr5) (data : Word) (pc : Nat), (writeActions phy reg data)[pc]? ≠ some .sample) ∧
  (∀ (p : Params) (phy reg : Addr5) (pc : Nat), (readActions p phy reg)[pc]? = some .sample →
    phaseAt p.checkTa .read pc = .dataIn ∨ (p.checkTa = true ∧ pc = 284 ∧ phaseAt true .read pc = .turnaround)) ∧
  (∀ (p : Params) (phy reg : Addr5) (i : Nat), p.samplePoint = .beforeRise → i < 16 →
    (p.checkTa = false →
      (readActions p phy reg)[288 + 6 * i]? = some .sample ∧ phaseAt false .read (288 + 6 * i) = .dataIn) ∧
    (p.checkTa = true → (readActions p phy reg)[290 + 6 * i]? = some .sample ∧
      (readActions p phy reg)[284]? = some .sample ∧ phaseAt true .read (290 + 6 * i) = .dataIn))

/-- 42_frame_engine R226: MDIO_WRITE's accepting step, and its finish whatever input waits. -/
def Obligations.MdioWriteResult : Prop :=
  (∀ (s : State) (c phy reg data : Nat), s.isWaiting c = false →
    let i : Instr := .mdioWrite c phy reg data
    (s.frozen = false → exec i s = .next (s.afterError c .configFrozen)) ∧
    (s.frozen = true → 31 < phy → exec i s = .next (s.afterError c (.argumentOutOfRange "phy" phy))) ∧
    (s.frozen = true → phy ≤ 31 → 31 < reg → exec i s = .next (s.afterError c (.argumentOutOfRange "reg" reg))) ∧
    (s.frozen = true → phy ≤ 31 → reg ≤ 31 → 0xFFFF < data →
      exec i s = .next (s.afterError c (.argumentOutOfRange "data" data))) ∧
    (s.frozen = true → phy ≤ 31 → reg ≤ 31 → data ≤ 0xFFFF → s.busy = true →
      exec i s = .next (s.afterError c .busBusy)) ∧
    (s.frozen = true → phy ≤ 31 → reg ≤ 31 → data ≤ 0xFFFF → s.busy = false →
      exec i s = .next (s.afterAccept c i (.frame (.write phy reg data))
        (.write (BitVec.ofNat 5 phy) (BitVec.ofNat 5 reg) (BitVec.ofNat 16 data))))) ∧
  (∀ (s : State) (c phy reg data : Nat), s.atFinish (.frame (.write phy reg data)) c →
    framerStep s = .next (s.afterFinish c (.ok .unit)))

/-- 42_frame_engine R227: MDIO_READ's accepting step, and its finish whatever input waits. -/
def Obligations.MdioReadResult : Prop :=
  (∀ (s : State) (c phy reg : Nat), s.isWaiting c = false →
    let i : Instr := .mdioRead c phy reg
    (s.frozen = false → exec i s = .next (s.afterError c .configFrozen)) ∧
    (s.frozen = true → 31 < phy → exec i s = .next (s.afterError c (.argumentOutOfRange "phy" phy))) ∧
    (s.frozen = true → phy ≤ 31 → 31 < reg → exec i s = .next (s.afterError c (.argumentOutOfRange "reg" reg))) ∧
    (s.frozen = true → phy ≤ 31 → reg ≤ 31 → s.busy = true → exec i s = .next (s.afterError c .busBusy)) ∧
    (s.frozen = true → phy ≤ 31 → reg ≤ 31 → s.busy = false →
      exec i s = .next (s.afterAccept c i (.frame (.read phy reg))
        (.read (BitVec.ofNat 5 phy) (BitVec.ofNat 5 reg))))) ∧
  (∀ (s : State) (c phy reg : Nat), s.atFinish (.frame (.read phy reg)) c →
    framerStep s = .next (s.afterFinish c (s.resultOfRead (.word s.rdata))))

/-- 30_encoding R101, R102, 42_frame_engine R226, R227; log entry 9 (the model's choice: a wire frame is a request for its
transaction): the two frame rows load their frames. -/
def Obligations.WireFrameResult : Prop :=
  ∀ (s : State) (c : Nat) (phy reg : Addr5) (data : Word), s.isWaiting c = false →
    (s.frozen = false →
      exec (.cl22WriteFrame c phy reg data) s = .next (s.afterError c .configFrozen) ∧
      exec (.cl22ReadFrame c phy reg) s = .next (s.afterError c .configFrozen)) ∧
    (s.frozen = true → s.busy = true →
      exec (.cl22WriteFrame c phy reg data) s = .next (s.afterError c .busBusy) ∧
      exec (.cl22ReadFrame c phy reg) s = .next (s.afterError c .busBusy)) ∧
    (s.frozen = true → s.busy = false →
      exec (.cl22WriteFrame c phy reg data) s =
        .next (s.afterAccept c (.cl22WriteFrame c phy reg data)
          (.frame (.write phy.toNat reg.toNat data.toNat)) (.write phy reg data)) ∧
      exec (.cl22ReadFrame c phy reg) s =
        .next (s.afterAccept c (.cl22ReadFrame c phy reg) (.frame (.read phy.toNat reg.toNat)) (.read phy reg)))

/-- 60_exceptions R321, 42_frame_engine R238: the selectors 0 and F, a record that decodes to nothing, and a record of the
bit-bang layer, which a caller may not call, are refused with the mark: no response, no action, nothing else changed. (Which
bytes decode is the model's choice, log entries 7 and 15; that such a record is refused and not held back, log entry 24.) -/
def Obligations.InvalidRecordsAreRefused : Prop :=
  ∀ (s : State) (c : Nat),
    exec (.invalid0 c) s = .next { s with refusalMark := true } ∧
    exec (.invalidF c) s = .next { s with refusalMark := true } ∧
    (∀ bytes e, decodeRecord bytes = .error e →
      takeInput (.record bytes) s = .next { s with refusalMark := true }) ∧
    (∀ bytes i, decodeRecord bytes = .ok i → callerOf i = none →
      takeInput (.record bytes) s = .next { s with refusalMark := true })

/-- 10_state R45, 60_exceptions R321; log entry 14 (the model's choice): a view of a register that REGMAP does not hold is
no view, and the record is refused with the mark. -/
def Obligations.ViewOfNoRegisterIsRefused : Prop :=
  ∀ (s : State) (c : Nat) (view : FieldView), s.isWaiting c = false → regFind s.regmap view.addr = none →
    (∀ name, exec (.viewGet c view name) s = .next { s with refusalMark := true }) ∧
    exec (.viewFields c view) s = .next { s with refusalMark := true }

/-- 42_frame_engine R238, 10_state R50: a second request of a caller that still waits has no move, and the block has
N_CALLERS callers (00_scope R10); the delay hook's request has one only while the hook runs (70 R352). The step holds such
a record back (the model's choice: log entries 13, 18, 19). -/
def Obligations.SecondRequestHasNoMove : Prop :=
  ∀ (s : State) (bytes : List Byte) (i : Instr) (c : Nat), decodeRecord bytes = .ok i → callerOf i = some c →
    (s.isWaiting c = true ∨ s.params.nCallers ≤ c → ∀ rest, .input (.record bytes) rest ∉ s.moves) ∧
    (s.isWaiting c = true ∨ c ≠ s.params.nCallers ∨ s.inHook = false →
      ∀ rest waits, .input (.hook bytes waits) rest ∉ s.moves) ∧
    (s.isWaiting c = true → exec i s = .refused .callerStillWaiting ∨ i = .invalid0 c ∨ i = .invalidF c)

/-- 42_frame_engine R229: a bus-using request that an idle block would accept gets BusBusy from a busy one, with no action
and no other change. (The draw counter is the model's own.) -/
def Obligations.BusyGuardRaisesBusBusy : Prop :=
  ∀ (i : Instr) (c : Nat) (s t : State), usesBus i = true → callerOf i = some c → s.busy = true →
    exec i { s with busy := false } = .next t → t.busy = true →
    exec i s = .next ({ s with draws := t.draws }.afterError c .busBusy)

/-- 42_frame_engine R230, 10_state R33, R36 to R38: the framer's action step, whatever input waits.
(Which steps are the framer's is StepOtherwiseMovesFramerOrWaits.) -/
def Obligations.ActionStepResult : Prop :=
  ∀ (s : State) (a : Action), s.actions[s.pc]? = some a →
    let b := (sampleAnswer s.draws).getLsbD 0
    (∀ w, a = .drive w →
      framerStep s = .next { s with lines := some w, trace := s.trace ++ [.drive w], pc := s.pc + 1 }) ∧
    (a = .delay → framerStep s = .next { s with trace := s.trace ++ [.delay], pc := s.pc + 1 }) ∧
    (a = .sample → s.phase = .dataIn →
      framerStep s = .next { s with rdata := BitVec.ofNat 16 (2 * s.rdata.toNat + b.toNat),
                                    trace := s.trace ++ [.sample b], draws := s.draws + 1, pc := s.pc + 1 }) ∧
    (a = .sample → s.phase = .turnaround → s.params.checkTa = true →
      framerStep s = .next { s with ta := some b, trace := s.trace ++ [.sample b], draws := s.draws + 1, pc := s.pc + 1 }) ∧
    (a = .sample → s.phase ≠ .dataIn → (s.phase = .turnaround → s.params.checkTa = false) →
      framerStep s = .next { s with trace := s.trace ++ [.sample b], draws := s.draws + 1, pc := s.pc + 1 })

/-- 42_frame_engine R223, R230 to R232, R236, R237: MDIO_WRITE from an idle block, with no other input: after its accept,
384 action steps and the finish step, the frame's events stand in the trace in order, the caller has `ok(())`, the line is
left driven to the last data bit with the clock low, and nothing else has changed. -/
def Obligations.WriteTransactionRunsToIdle : Prop :=
  ∀ (s : State) (c phy reg data : Nat), Coherent s → s.busy = false → s.frozen = true → s.inbox = [] →
    phy ≤ 31 → reg ≤ 31 → data ≤ 0xFFFF →
    ∃ t, exec (.mdioWrite c phy reg data) s = .next t ∧
      Sys2Proof.core.run 385 t = .next { s with
        lines := some (BitVec.ofNat 3 (4 * (data % 2) + 2))
        trace := s.trace ++ [.accept c (.mdioWrite c phy reg data)] ++
          eventsFrom s.draws
            (writeActions (BitVec.ofNat 5 phy) (BitVec.ofNat 5 reg) (BitVec.ofNat 16 data)) ++
          [.respond c (.ok .unit)] }

/-- 42_frame_engine R224, R230 to R234, R236, R237; 41_bitbang R204: MDIO_READ from an idle block, with no other input:
the word is the 16 sampled data bits, first bit highest; with CHECK_TA the turnaround bit decides the result. -/
def Obligations.ReadTransactionRunsToIdle : Prop :=
  ∀ (s : State) (c phy reg : Nat), Coherent s → s.busy = false → s.frozen = true → s.inbox = [] →
    phy ≤ 31 → reg ≤ 31 →
    let events := eventsFrom s.draws (readActions s.params (BitVec.ofNat 5 phy) (BitVec.ofNat 5 reg))
    (s.params.checkTa = false →
      let word : Word := BitVec.ofNat 16 (wordOfBits (drawnBits s.draws 16))
      ∃ t, exec (.mdioRead c phy reg) s = .next t ∧
        Sys2Proof.core.run 397 t = .next { s with
          rdata := word
          ta := none
          lines := some 0b000
          draws := s.draws + 16
          trace := s.trace ++ [.accept c (.mdioRead c phy reg)] ++ events ++
            [.respond c (.ok (.word word))] }) ∧
    (s.params.checkTa = true →
      let word : Word := BitVec.ofNat 16 (wordOfBits (drawnBits (s.draws + 1) 16))
      let turnaround := (sampleAnswer s.draws).getLsbD 0
      ∃ t, exec (.mdioRead c phy reg) s = .next t ∧
        Sys2Proof.core.run 399 t = .next { s with
          rdata := word
          ta := some turnaround
          lines := some 0b000
          draws := s.draws + 17
          trace := s.trace ++ [.accept c (.mdioRead c phy reg)] ++ events ++
            [.respond c (if turnaround then .err (.noPhyResponse word) else .ok (.word word))] })

/-- 43_client R280 to R282, 42_frame_engine R237: RESET from an idle block, CHECK_TA = false and merge replace, with no
other input: a read frame, then a write frame of the word read with the reset field set to 1 and every other bit kept,
one response. (CHECK_TA = true and merge or are left out here; ResetOperationResult gives their steps.) -/
def Obligations.ResetTransactionRunsToIdle : Prop :=
  ∀ (s : State) (c phy : Nat) (r : RegDef) (f : FieldDef), Coherent s → s.busy = false → s.frozen = true →
    s.inbox = [] → phy ≤ 31 → s.params.checkTa = false → s.params.packMerge = .replace →
    regFind s.regmap 0 = some r → r.field? "reset" = some f →
    let read : Word := BitVec.ofNat 16 (wordOfBits (drawnBits s.draws 16))
    ∃ (t : State) (w : Word), exec (.reset c phy) s = .next t ∧
      (∀ p < 16, w.getLsbD p = if f.covers p then decide (p = f.off) else read.getLsbD p) ∧
      Sys2Proof.core.run 782 t = .next { s with
        rdata := read
        ta := none
        lines := some (BitVec.ofNat 3 (4 * (w.toNat % 2) + 2))
        draws := s.draws + 16
        trace := s.trace ++ [.accept c (.reset c phy)] ++
          eventsFrom s.draws (readActions s.params (BitVec.ofNat 5 phy) 0) ++
          eventsFrom (s.draws + 16) (writeActions (BitVec.ofNat 5 phy) 0 w) ++
          [.respond c (.ok .unit)] }

/-! ### The client -/

/-- 43_client R272, R277: READ_REGISTER's accepting step, and its finish whatever input waits; with a supplied
EXT_ACCESS, an extended register's transactions as one job (what its result is, is the model's choice: log entry 2). -/
def Obligations.ReadRegisterResult : Prop :=
  (∀ (s : State) (c phy a : Nat), s.isWaiting c = false →
    let i : Instr := .readRegister c phy a
    (s.frozen = false → exec i s = .next (s.afterError c .configFrozen)) ∧
    (s.frozen = true → 31 < phy → exec i s = .next (s.afterError c (.argumentOutOfRange "phy" phy))) ∧
    (s.frozen = true → phy ≤ 31 → 63 < a → exec i s = .next (s.afterError c (.addressOutOfRange a))) ∧
    (s.frozen = true → phy ≤ 31 → a ≤ 63 → regFind s.regmap a = none →
      exec i s = .next (s.afterError c (.unknownRegister a))) ∧
    (∀ r, s.frozen = true → phy ≤ 31 → a ≤ 63 → regFind s.regmap a = some r →
      (32 ≤ a → s.params.extAccess = .refuse → exec i s = .next (s.afterError c (.extendedUnsupported a))) ∧
      ((a ≤ 31 ∨ s.params.extAccess = .supplied) → s.busy = true → exec i s = .next (s.afterError c .busBusy)) ∧
      (a ≤ 31 → s.busy = false →
        exec i s = .next (s.afterAccept c i (.readReg phy a) (.read (BitVec.ofNat 5 phy) (BitVec.ofNat 5 a)))) ∧
      (32 ≤ a → s.params.extAccess = .supplied → s.busy = false →
        let x := extTransactions (BitVec.ofNat 5 phy) a .read 0
        exec i s = .next (s.afterAccept c i (.extRead phy a x.2) x.1)))) ∧
  (∀ (s : State) (c phy a : Nat), s.atFinish (.readReg phy a) c →
    framerStep s = .next (s.afterFinish c (s.resultOfRead (.view ⟨a, s.rdata⟩)))) ∧
  (∀ (s : State) (c phy a : Nat) (rest : List Transaction), s.atFinish (.extRead phy a rest) c →
    (s.ReadUnanswered → framerStep s = .next (s.afterFinish c (.err (.noPhyResponse s.rdata)))) ∧
    (¬ s.ReadUnanswered → rest = [] → framerStep s = .next (s.afterFinish c (.ok (.view ⟨a, s.rdata⟩)))) ∧
    (¬ s.ReadUnanswered → ∀ x xs, rest = x :: xs → framerStep s = .next (s.afterStage (.extRead phy a xs) x)))

/-- 43_client R273, R275, R277: WRITE_REGISTER's accepting step, and its finish whatever input waits; with a supplied
EXT_ACCESS, an extended register's transactions as one job (log entry 2). `errorPick` is the free value that picks among
several failing entries (log entry 5); the draw counter is the model's own. -/
def Obligations.WriteRegisterResult : Prop :=
  (∀ (s : State) (c phy a : Nat) (F : FieldMap) (base : Option FieldView), s.isWaiting c = false →
    let i : Instr := .writeRegister c phy a F base
    let s' : State := { s with draws := s.draws + 1 }
    let b : Word := (base.map FieldView.word).getD 0
    (s.frozen = false → exec i s = .next (s'.afterError c .configFrozen)) ∧
    (s.frozen = true → 31 < phy → exec i s = .next (s'.afterError c (.argumentOutOfRange "phy" phy))) ∧
    (s.frozen = true → phy ≤ 31 → 63 < a → exec i s = .next (s'.afterError c (.addressOutOfRange a))) ∧
    (s.frozen = true → phy ≤ 31 → a ≤ 63 → regFind s.regmap a = none →
      exec i s = .next (s'.afterError c (.unknownRegister a))) ∧
    (∀ r, s.frozen = true → phy ≤ 31 → a ≤ 63 → regFind s.regmap a = some r →
      (∀ v, base = some v → v.addr ≠ a → exec i s = .next (s'.afterError c (.registerMismatch a v.addr))) ∧
      ((∀ v, base = some v → v.addr = a) →
        (∀ e, packWord s.params.packMerge (errorPick s.draws) s.regmap a F b.toNat = .error e →
          exec i s = .next (s'.afterError c e)) ∧
        (∀ w, packWord s.params.packMerge (errorPick s.draws) s.regmap a F b.toNat = .ok w →
          (32 ≤ a → s.params.extAccess = .refuse → exec i s = .next (s'.afterError c (.extendedUnsupported a))) ∧
          ((a ≤ 31 ∨ s.params.extAccess = .supplied) → s.busy = true → exec i s = .next (s'.afterError c .busBusy)) ∧
          (a ≤ 31 → s.busy = false →
            exec i s = .next (s'.afterAccept c i (.writeReg phy a F base w)
              (.write (BitVec.ofNat 5 phy) (BitVec.ofNat 5 a) w))) ∧
          (32 ≤ a → s.params.extAccess = .supplied → s.busy = false →
            let x := extTransactions (BitVec.ofNat 5 phy) a .write w
            exec i s = .next (s'.afterAccept c i (.extWrite phy a F base w x.2) x.1)))))) ∧
  (∀ (s : State) (c phy a : Nat) (F : FieldMap) (base : Option FieldView) (w : Word),
    s.atFinish (.writeReg phy a F base w) c → framerStep s = .next (s.afterFinish c (.ok .unit))) ∧
  (∀ (s : State) (c phy a : Nat) (F : FieldMap) (base : Option FieldView) (w : Word) (rest : List Transaction),
    s.atFinish (.extWrite phy a F base w rest) c →
    (s.ReadUnanswered → framerStep s = .next (s.afterFinish c (.err (.noPhyResponse s.rdata)))) ∧
    (¬ s.ReadUnanswered → rest = [] → framerStep s = .next (s.afterFinish c (.ok .unit))) ∧
    (¬ s.ReadUnanswered → ∀ x xs, rest = x :: xs → framerStep s = .next (s.afterStage (.extWrite phy a F base w xs) x)))

/-- 43_client R279, R280: RESET's accepting step, and the finishes of its two stages whatever input waits. -/
def Obligations.ResetOperationResult : Prop :=
  (∀ (s : State) (c phy : Nat), s.isWaiting c = false →
    let i : Instr := .reset c phy
    (s.frozen = false → exec i s = .next (s.afterError c .configFrozen)) ∧
    (s.frozen = true → 31 < phy → exec i s = .next (s.afterError c (.argumentOutOfRange "phy" phy))) ∧
    (s.frozen = true → phy ≤ 31 → regFind s.regmap 0 = none →
      exec i s = .next (s.afterError c (.unknownRegister 0))) ∧
    (∀ r, s.frozen = true → phy ≤ 31 → regFind s.regmap 0 = some r →
      (r.field? "reset" = none → exec i s = .next (s.afterError c (.unknownField 0 "reset"))) ∧
      (∀ f, r.field? "reset" = some f → s.busy = true → exec i s = .next (s.afterError c .busBusy)) ∧
      (∀ f, r.field? "reset" = some f → s.busy = false →
        exec i s = .next (s.afterAccept c i (.resetRead phy) (.read (BitVec.ofNat 5 phy) 0))))) ∧
  (∀ (s : State) (c phy : Nat), s.atFinish (.resetRead phy) c →
    (s.params.checkTa = true → s.ta = some true →
      framerStep s = .next (s.afterFinish c (.err (.noPhyResponse s.rdata)))) ∧
    (∀ w, ¬ (s.params.checkTa = true ∧ s.ta = some true) →
      packWord s.params.packMerge 0 s.regmap 0 [("reset", 1)] s.rdata.toNat = .ok w →
      framerStep s = .next (s.afterStage (.resetWrite phy w) (.write (BitVec.ofNat 5 phy) 0 w)))) ∧
  (∀ (s : State) (c phy : Nat) (w : Word), s.atFinish (.resetWrite phy w) c →
    framerStep s = .next (s.afterFinish c (.ok .unit)))

/-- 20_memory R72, 43_client R271, R277: a client operation on a base-bank register sends that register's own address.
One on an extended register takes the bus only with a supplied EXT_ACCESS, never with `refuse`, and sends its
transactions. -/
def Obligations.NoExtendedAddressOnTheWire : Prop :=
  ∀ (s t : State) (c phy a : Nat) (i : Instr), s.busy = false →
    (i = .readRegister c phy a ∨ ∃ F base, i = .writeRegister c phy a F base) →
    exec i s = .next t → t.busy = true →
    (a ≤ 31 →
      ∃ p reg, reg.toNat = a ∧ (t.txn = some (.read p reg) ∨ ∃ w, t.txn = some (.write p reg w))) ∧
    (31 < a → s.params.extAccess = .supplied ∧
      ∃ d w, t.txn = some (extTransactions (BitVec.ofNat 5 phy) a d w).1)

/-! ### Errors and responses -/

/-- 60_exceptions R300: the codes. -/
def Obligations.ErrorCodesOfTheTable : Prop :=
  ∀ (a b off w n : Nat) (x y : String) (word : Word),
    [Error.duplicateAddress a, .fieldOutOfRange a x off w, .unknownField a x, .valueOutOfRange x n, .busBusy,
      .aliasConflict x y, .argumentOutOfRange x n, .addressOutOfRange a, .unsupportedWidth w, .duplicateField a x,
      .extendedUnsupported a, .unknownRegister a, .registerMismatch a b, .noPhyResponse word, .configFrozen].map
      errorCode = [1, 2, 3, 4, 5, 6, 7, 8, 9, 10, 11, 12, 13, 14, 15]

/-- 60_exceptions R322, R323: a request-time error changes nothing but the answer. (The draw counter is the model's own.) -/
def Obligations.RequestErrorChangesNothing : Prop :=
  ∀ (i : Instr) (c : Nat) (e : Error) (s t : State), callerOf i = some c → exec i s = .next t →
    t.trace = s.trace ++ [.respond c (.err e)] →
    t = { s with trace := s.trace ++ [.respond c (.err e)], draws := t.draws }

/-- 60_exceptions R310, 42_frame_engine R228, R231: every request of a caller that waits for nothing is taken: it is
answered once at once, or accepted and then its caller waits. -/
def Obligations.RequestIsAnsweredOnceOrAccepted : Prop :=
  ∀ (i : Instr) (c : Nat) (s : State), callerOf i = some c → spellsOperation s.regmap i = true →
    s.isWaiting c = false →
    ∃ t, exec i s = .next t ∧
      ((∃ e, t.trace = s.trace ++ [.respond c (.err e)] ∧ t.isWaiting c = false) ∨
       (∃ v, t.trace = s.trace ++ [.accept c i, .respond c (.ok v)] ∧ usesBus i = false ∧ t.isWaiting c = false) ∨
       (t.trace = s.trace ++ [.accept c i] ∧ usesBus i = true ∧ t.isWaiting c = true ∧ t.owner = some c ∧
         t.busy = true))
end

