-- ==== Sys2Proof/Laws/Decode.lean ====
section
/-!
SUPPORT. Each parser reads back what its encoder writes, and leaves the bytes after it.
-/

namespace Sys2Proof

@[simp] theorem parseThen_ok {α β : Type} (a : α) (rest : List Byte) (f : α → List Byte → Parse β) :
    parseThen (.ok (a, rest)) f = f a rest := rfl

@[simp] theorem parseThen_error {α β : Type} (e : DecodeError) (f : α → List Byte → Parse β) :
    parseThen (.error e) f = .error e := rfl

theorem parseNat_encodeNatWith (fuel n : Nat) (h : n ≤ fuel) (rest : List Byte) :
    parseNat (encodeNatWith fuel n ++ rest) = .ok (n, rest) := by
  induction fuel generalizing n with
  | zero => obtain rfl : n = 0 := by omega
            simp [encodeNatWith, parseNat]
  | succ fuel ih =>
    unfold encodeNatWith
    by_cases hn : n < 128
    · have : n % 256 = n := Nat.mod_eq_of_lt (by omega)
      simp [hn, parseNat, this]
    · have h1 : (128 + n % 128) % 256 = 128 + n % 128 := Nat.mod_eq_of_lt (by omega)
      have h2 : n % 128 + 128 * (n / 128) = n := by omega
      simp [hn, parseNat, h1, ih (n / 128) (by omega), h2]

@[simp] theorem parseNat_encodeNat (n : Nat) (rest : List Byte) :
    parseNat (encodeNat n ++ rest) = .ok (n, rest) :=
  parseNat_encodeNatWith n n (Nat.le_refl n) rest

@[simp] theorem parseBool_encodeBool (b : Bool) (rest : List Byte) :
    parseBool (encodeBool b ++ rest) = .ok (b, rest) := by
  cases b <;> simp [encodeBool, parseBool]

/-- What it means that a parser reads an encoder's bytes back. -/
def ReadsBack {α : Type} (p : List Byte → Parse α) (e : α → List Byte) : Prop :=
  ∀ a rest, p (e a ++ rest) = .ok (a, rest)

theorem parseOption_encodeOption {α : Type} {p : List Byte → Parse α} {e : α → List Byte}
    (h : ReadsBack p e) : ReadsBack (parseOption p) (encodeOption e) := by
  intro a rest
  cases a with
  | none => simp [encodeOption, parseOption]
  | some a => simp [encodeOption, parseOption, h a rest]

theorem parseTimes_encodeItems {α : Type} {p : List Byte → Parse α} {e : α → List Byte}
    (h : ReadsBack p e) (l : List α) (rest : List Byte) :
    parseTimes p l.length (encodeItems e l ++ rest) = .ok (l, rest) := by
  induction l with
  | nil => rfl
  | cons a l ih => simp [parseTimes, encodeItems, List.append_assoc, h a, ih]

theorem parseList_encodeList {α : Type} {p : List Byte → Parse α} {e : α → List Byte}
    (h : ReadsBack p e) : ReadsBack (parseList p) (encodeList e) := by
  intro l rest
  simp [parseList, encodeList, List.append_assoc, parseTimes_encodeItems h]

theorem parseChar_encodeChar : ReadsBack parseChar encodeChar := by
  intro c rest
  have h : c.toNat.isValidChar := c.valid
  simp [parseChar, encodeChar, h, Char.ofNat_toNat]

theorem parseName_encodeName : ReadsBack parseName encodeName := by
  intro s rest
  simp [parseName, encodeName, parseList_encodeList parseChar_encodeChar s.toList rest]

theorem parseEntry_encodeEntry : ReadsBack parseEntry encodeEntry := by
  intro e rest
  simp [parseEntry, encodeEntry, List.append_assoc, parseName_encodeName e.1]

theorem parseFieldMap_encodeFieldMap (F : FieldMap) (h : FieldMap.isMap F = true) (rest : List Byte) :
    parseFieldMap (encodeFieldMap F ++ rest) = .ok (F, rest) := by
  simp [parseFieldMap, encodeFieldMap, parseList_encodeList parseEntry_encodeEntry F rest, h]

theorem parseView_encodeView : ReadsBack parseView encodeView := by
  intro v rest
  have h : v.word.toNat < 65536 := v.word.isLt
  simp [parseView, encodeView, List.append_assoc, h]

/-- The eight bytes of a frame word make the word again. -/
theorem frameOfBytes_frameBytes (F : BitVec 64) :
    frameOfBytes (F.extractLsb' 56 8) (F.extractLsb' 48 8) (F.extractLsb' 40 8) (F.extractLsb' 32 8)
      (F.extractLsb' 24 8) (F.extractLsb' 16 8) (F.extractLsb' 8 8) (F.extractLsb' 0 8) = F := by
  unfold frameOfBytes
  rw [BitVec.extractLsb'_append_extractLsb'_eq_extractLsb' (by omega),
    BitVec.extractLsb'_append_extractLsb'_eq_extractLsb' (by omega),
    BitVec.extractLsb'_append_extractLsb'_eq_extractLsb' (by omega),
    BitVec.extractLsb'_append_extractLsb'_eq_extractLsb' (by omega),
    BitVec.extractLsb'_append_extractLsb'_eq_extractLsb' (by omega),
    BitVec.extractLsb'_append_extractLsb'_eq_extractLsb' (by omega),
    BitVec.extractLsb'_append_extractLsb'_eq_extractLsb' (by omega)]
  exact BitVec.extractLsb'_eq_self

end Sys2Proof
end

