-- ==== Sys2Proof/Laws/Frames.lean ====
section
/-!
SUPPORT. The fields of the two frame words (30_encoding R103).
-/

namespace Sys2Proof

/-- A masked word gives each bit under the mask. -/
theorem getLsbD_of_and_eq {F M : BitVec 64} {k : BitVec 64} (h : F &&& k = M) (i : Nat) : (F.getLsbD i && k.getLsbD i) = M.getLsbD i := by
  rw [← h, BitVec.getLsbD_and]

/-- The decoder on the bytes of a frame word. -/
theorem decode_frameBytes (F : BitVec 64) (bs : List Byte) (h : F.extractLsb' 56 8 = 0xFF#8) :
    decode (frameBytes F ++ bs) = if isWriteFrame F then
      parseThen (parseNat bs) fun c rest =>
        .ok (.cl22WriteFrame c (F.extractLsb' 23 5) (F.extractLsb' 18 5) (F.extractLsb' 0 16), rest)
    else if isReadFrame F then
      parseThen (parseNat bs) fun c rest => .ok (.cl22ReadFrame c (F.extractLsb' 23 5) (F.extractLsb' 18 5), rest)
    else .error .reservedFrame := by
  have hf := frameOfBytes_frameBytes F
  rw [h] at hf
  simp [frameBytes, decode, h, parseFrame, hf]

theorem writeFrameWord_firstByte (phy reg data) : (writeFrameWord phy reg data).extractLsb' 56 8 = 0xFF#8 := by
  apply BitVec.eq_of_getLsbD_eq
  intro i hi
  simp only [writeFrameWord, BitVec.getLsbD_append, BitVec.getLsbD_extractLsb']
  interval_cases i <;> simp

theorem readFrameWord_firstByte (phy reg) : (readFrameWord phy reg).extractLsb' 56 8 = 0xFF#8 := by
  apply BitVec.eq_of_getLsbD_eq
  intro i hi
  simp only [readFrameWord, BitVec.getLsbD_append, BitVec.getLsbD_extractLsb']
  interval_cases i <;> simp

theorem isWriteFrame_writeFrameWord (phy reg data) : isWriteFrame (writeFrameWord phy reg data) = true := by
  simp only [isWriteFrame, beq_iff_eq]
  apply BitVec.eq_of_getLsbD_eq
  intro i hi
  simp only [writeFrameWord, BitVec.getLsbD_and, BitVec.getLsbD_append]
  interval_cases i <;> simp

theorem isReadFrame_readFrameWord (phy reg) : isReadFrame (readFrameWord phy reg) = true := by
  simp only [isReadFrame, beq_iff_eq]
  apply BitVec.eq_of_getLsbD_eq
  intro i hi
  simp only [readFrameWord, BitVec.getLsbD_and, BitVec.getLsbD_append]
  interval_cases i <;> simp

theorem isWriteFrame_readFrameWord (phy reg) : isWriteFrame (readFrameWord phy reg) = false := by
  rw [Bool.eq_false_iff]; intro h
  simp only [isWriteFrame, beq_iff_eq] at h
  have := getLsbD_of_and_eq h 28
  simp only [readFrameWord, BitVec.getLsbD_append] at this
  simp at this

theorem writeFrameWord_phy (phy reg data) : (writeFrameWord phy reg data).extractLsb' 23 5 = phy := by
  apply BitVec.eq_of_getLsbD_eq
  intro i hi
  simp only [writeFrameWord, BitVec.getLsbD_append, BitVec.getLsbD_extractLsb']
  interval_cases i <;> simp

theorem writeFrameWord_reg (phy reg data) : (writeFrameWord phy reg data).extractLsb' 18 5 = reg := by
  apply BitVec.eq_of_getLsbD_eq
  intro i hi
  simp only [writeFrameWord, BitVec.getLsbD_append, BitVec.getLsbD_extractLsb']
  interval_cases i <;> simp

theorem writeFrameWord_data (phy reg data) : (writeFrameWord phy reg data).extractLsb' 0 16 = data := by
  apply BitVec.eq_of_getLsbD_eq
  intro i hi
  simp only [writeFrameWord, BitVec.getLsbD_append, BitVec.getLsbD_extractLsb']
  interval_cases i <;> simp

theorem readFrameWord_phy (phy reg) : (readFrameWord phy reg).extractLsb' 23 5 = phy := by
  apply BitVec.eq_of_getLsbD_eq
  intro i hi
  simp only [readFrameWord, BitVec.getLsbD_append, BitVec.getLsbD_extractLsb']
  interval_cases i <;> simp

theorem readFrameWord_reg (phy reg) : (readFrameWord phy reg).extractLsb' 18 5 = reg := by
  apply BitVec.eq_of_getLsbD_eq
  intro i hi
  simp only [readFrameWord, BitVec.getLsbD_append, BitVec.getLsbD_extractLsb']
  interval_cases i <;> simp

end Sys2Proof
end

