-- ==== Sys2Proof/Laws/State.lean ====
section
/-!
SUPPORT. One lemma per field per update of the state, so that no later proof unfolds a record update.
-/

namespace Sys2Proof.Machine

variable (s : State)

/-! ### setBusy -/

@[simp] theorem State.setBusy_busy : (s.setBusy).busy = true := rfl
@[simp] theorem State.setBusy_job : (s.setBusy).job = s.job := rfl
@[simp] theorem State.setBusy_actions : (s.setBusy).actions = s.actions := rfl
@[simp] theorem State.setBusy_pc : (s.setBusy).pc = s.pc := rfl
@[simp] theorem State.setBusy_txn : (s.setBusy).txn = s.txn := rfl
@[simp] theorem State.setBusy_rdata : (s.setBusy).rdata = s.rdata := rfl
@[simp] theorem State.setBusy_ta : (s.setBusy).ta = s.ta := rfl
@[simp] theorem State.setBusy_lines : (s.setBusy).lines = s.lines := rfl
@[simp] theorem State.setBusy_owner : (s.setBusy).owner = s.owner := rfl
@[simp] theorem State.setBusy_frozen : (s.setBusy).frozen = s.frozen := rfl
@[simp] theorem State.setBusy_pending : (s.setBusy).pending = s.pending := rfl
@[simp] theorem State.setBusy_regmap : (s.setBusy).regmap = s.regmap := rfl
@[simp] theorem State.setBusy_trace : (s.setBusy).trace = s.trace := rfl
@[simp] theorem State.setBusy_refusalMark : (s.setBusy).refusalMark = s.refusalMark := rfl
@[simp] theorem State.setBusy_hookWaits : (s.setBusy).hookWaits = s.hookWaits := rfl
@[simp] theorem State.setBusy_params : (s.setBusy).params = s.params := rfl
@[simp] theorem State.setBusy_inbox : (s.setBusy).inbox = s.inbox := rfl
@[simp] theorem State.setBusy_turn : (s.setBusy).turn = s.turn := rfl
@[simp] theorem State.setBusy_draws : (s.setBusy).draws = s.draws := rfl

/-! ### clearBusy -/

@[simp] theorem State.clearBusy_busy : (s.clearBusy).busy = false := rfl
@[simp] theorem State.clearBusy_job : (s.clearBusy).job = s.job := rfl
@[simp] theorem State.clearBusy_actions : (s.clearBusy).actions = s.actions := rfl
@[simp] theorem State.clearBusy_pc : (s.clearBusy).pc = s.pc := rfl
@[simp] theorem State.clearBusy_txn : (s.clearBusy).txn = s.txn := rfl
@[simp] theorem State.clearBusy_rdata : (s.clearBusy).rdata = s.rdata := rfl
@[simp] theorem State.clearBusy_ta : (s.clearBusy).ta = s.ta := rfl
@[simp] theorem State.clearBusy_lines : (s.clearBusy).lines = s.lines := rfl
@[simp] theorem State.clearBusy_owner : (s.clearBusy).owner = s.owner := rfl
@[simp] theorem State.clearBusy_frozen : (s.clearBusy).frozen = s.frozen := rfl
@[simp] theorem State.clearBusy_pending : (s.clearBusy).pending = s.pending := rfl
@[simp] theorem State.clearBusy_regmap : (s.clearBusy).regmap = s.regmap := rfl
@[simp] theorem State.clearBusy_trace : (s.clearBusy).trace = s.trace := rfl
@[simp] theorem State.clearBusy_refusalMark : (s.clearBusy).refusalMark = s.refusalMark := rfl
@[simp] theorem State.clearBusy_hookWaits : (s.clearBusy).hookWaits = s.hookWaits := rfl
@[simp] theorem State.clearBusy_params : (s.clearBusy).params = s.params := rfl
@[simp] theorem State.clearBusy_inbox : (s.clearBusy).inbox = s.inbox := rfl
@[simp] theorem State.clearBusy_turn : (s.clearBusy).turn = s.turn := rfl
@[simp] theorem State.clearBusy_draws : (s.clearBusy).draws = s.draws := rfl

/-! ### setFrozen -/

@[simp] theorem State.setFrozen_busy : (s.setFrozen).busy = s.busy := rfl
@[simp] theorem State.setFrozen_job : (s.setFrozen).job = s.job := rfl
@[simp] theorem State.setFrozen_actions : (s.setFrozen).actions = s.actions := rfl
@[simp] theorem State.setFrozen_pc : (s.setFrozen).pc = s.pc := rfl
@[simp] theorem State.setFrozen_txn : (s.setFrozen).txn = s.txn := rfl
@[simp] theorem State.setFrozen_rdata : (s.setFrozen).rdata = s.rdata := rfl
@[simp] theorem State.setFrozen_ta : (s.setFrozen).ta = s.ta := rfl
@[simp] theorem State.setFrozen_lines : (s.setFrozen).lines = s.lines := rfl
@[simp] theorem State.setFrozen_owner : (s.setFrozen).owner = s.owner := rfl
@[simp] theorem State.setFrozen_frozen : (s.setFrozen).frozen = true := rfl
@[simp] theorem State.setFrozen_pending : (s.setFrozen).pending = s.pending := rfl
@[simp] theorem State.setFrozen_regmap : (s.setFrozen).regmap = s.regmap := rfl
@[simp] theorem State.setFrozen_trace : (s.setFrozen).trace = s.trace := rfl
@[simp] theorem State.setFrozen_refusalMark : (s.setFrozen).refusalMark = s.refusalMark := rfl
@[simp] theorem State.setFrozen_hookWaits : (s.setFrozen).hookWaits = s.hookWaits := rfl
@[simp] theorem State.setFrozen_params : (s.setFrozen).params = s.params := rfl
@[simp] theorem State.setFrozen_inbox : (s.setFrozen).inbox = s.inbox := rfl
@[simp] theorem State.setFrozen_turn : (s.setFrozen).turn = s.turn := rfl
@[simp] theorem State.setFrozen_draws : (s.setFrozen).draws = s.draws := rfl

/-! ### record -/

@[simp] theorem State.record_busy (e : Event) : (s.record e).busy = s.busy := rfl
@[simp] theorem State.record_job (e : Event) : (s.record e).job = s.job := rfl
@[simp] theorem State.record_actions (e : Event) : (s.record e).actions = s.actions := rfl
@[simp] theorem State.record_pc (e : Event) : (s.record e).pc = s.pc := rfl
@[simp] theorem State.record_txn (e : Event) : (s.record e).txn = s.txn := rfl
@[simp] theorem State.record_rdata (e : Event) : (s.record e).rdata = s.rdata := rfl
@[simp] theorem State.record_ta (e : Event) : (s.record e).ta = s.ta := rfl
@[simp] theorem State.record_lines (e : Event) : (s.record e).lines = s.lines := rfl
@[simp] theorem State.record_owner (e : Event) : (s.record e).owner = s.owner := rfl
@[simp] theorem State.record_frozen (e : Event) : (s.record e).frozen = s.frozen := rfl
@[simp] theorem State.record_pending (e : Event) : (s.record e).pending = s.pending := rfl
@[simp] theorem State.record_regmap (e : Event) : (s.record e).regmap = s.regmap := rfl
@[simp] theorem State.record_trace (e : Event) : (s.record e).trace = s.trace ++ [e] := rfl
@[simp] theorem State.record_refusalMark (e : Event) : (s.record e).refusalMark = s.refusalMark := rfl
@[simp] theorem State.record_hookWaits (e : Event) : (s.record e).hookWaits = s.hookWaits := rfl
@[simp] theorem State.record_params (e : Event) : (s.record e).params = s.params := rfl
@[simp] theorem State.record_inbox (e : Event) : (s.record e).inbox = s.inbox := rfl
@[simp] theorem State.record_turn (e : Event) : (s.record e).turn = s.turn := rfl
@[simp] theorem State.record_draws (e : Event) : (s.record e).draws = s.draws := rfl

/-! ### respond -/

@[simp] theorem State.respond_busy (c : Nat) (r : Result) : (s.respond c r).busy = s.busy := rfl
@[simp] theorem State.respond_job (c : Nat) (r : Result) : (s.respond c r).job = s.job := rfl
@[simp] theorem State.respond_actions (c : Nat) (r : Result) : (s.respond c r).actions = s.actions := rfl
@[simp] theorem State.respond_pc (c : Nat) (r : Result) : (s.respond c r).pc = s.pc := rfl
@[simp] theorem State.respond_txn (c : Nat) (r : Result) : (s.respond c r).txn = s.txn := rfl
@[simp] theorem State.respond_rdata (c : Nat) (r : Result) : (s.respond c r).rdata = s.rdata := rfl
@[simp] theorem State.respond_ta (c : Nat) (r : Result) : (s.respond c r).ta = s.ta := rfl
@[simp] theorem State.respond_lines (c : Nat) (r : Result) : (s.respond c r).lines = s.lines := rfl
@[simp] theorem State.respond_owner (c : Nat) (r : Result) : (s.respond c r).owner = s.owner := rfl
@[simp] theorem State.respond_frozen (c : Nat) (r : Result) : (s.respond c r).frozen = s.frozen := rfl
@[simp] theorem State.respond_pending (c : Nat) (r : Result) : (s.respond c r).pending = s.pending := rfl
@[simp] theorem State.respond_regmap (c : Nat) (r : Result) : (s.respond c r).regmap = s.regmap := rfl
@[simp] theorem State.respond_trace (c : Nat) (r : Result) : (s.respond c r).trace = s.trace ++ [.respond c r] := rfl
@[simp] theorem State.respond_refusalMark (c : Nat) (r : Result) : (s.respond c r).refusalMark = s.refusalMark := rfl
@[simp] theorem State.respond_hookWaits (c : Nat) (r : Result) : (s.respond c r).hookWaits = s.hookWaits := rfl
@[simp] theorem State.respond_params (c : Nat) (r : Result) : (s.respond c r).params = s.params := rfl
@[simp] theorem State.respond_inbox (c : Nat) (r : Result) : (s.respond c r).inbox = s.inbox := rfl
@[simp] theorem State.respond_turn (c : Nat) (r : Result) : (s.respond c r).turn = s.turn := rfl
@[simp] theorem State.respond_draws (c : Nat) (r : Result) : (s.respond c r).draws = s.draws := rfl

/-! ### raise -/

@[simp] theorem State.raise_busy (c : Nat) (e : Error) : (s.raise c e).busy = s.busy := rfl
@[simp] theorem State.raise_job (c : Nat) (e : Error) : (s.raise c e).job = s.job := rfl
@[simp] theorem State.raise_actions (c : Nat) (e : Error) : (s.raise c e).actions = s.actions := rfl
@[simp] theorem State.raise_pc (c : Nat) (e : Error) : (s.raise c e).pc = s.pc := rfl
@[simp] theorem State.raise_txn (c : Nat) (e : Error) : (s.raise c e).txn = s.txn := rfl
@[simp] theorem State.raise_rdata (c : Nat) (e : Error) : (s.raise c e).rdata = s.rdata := rfl
@[simp] theorem State.raise_ta (c : Nat) (e : Error) : (s.raise c e).ta = s.ta := rfl
@[simp] theorem State.raise_lines (c : Nat) (e : Error) : (s.raise c e).lines = s.lines := rfl
@[simp] theorem State.raise_owner (c : Nat) (e : Error) : (s.raise c e).owner = s.owner := rfl
@[simp] theorem State.raise_frozen (c : Nat) (e : Error) : (s.raise c e).frozen = s.frozen := rfl
@[simp] theorem State.raise_pending (c : Nat) (e : Error) : (s.raise c e).pending = s.pending := rfl
@[simp] theorem State.raise_regmap (c : Nat) (e : Error) : (s.raise c e).regmap = s.regmap := rfl
@[simp] theorem State.raise_trace (c : Nat) (e : Error) : (s.raise c e).trace = s.trace ++ [.respond c (.err e)] := rfl
@[simp] theorem State.raise_refusalMark (c : Nat) (e : Error) : (s.raise c e).refusalMark = s.refusalMark := rfl
@[simp] theorem State.raise_hookWaits (c : Nat) (e : Error) : (s.raise c e).hookWaits = s.hookWaits := rfl
@[simp] theorem State.raise_params (c : Nat) (e : Error) : (s.raise c e).params = s.params := rfl
@[simp] theorem State.raise_inbox (c : Nat) (e : Error) : (s.raise c e).inbox = s.inbox := rfl
@[simp] theorem State.raise_turn (c : Nat) (e : Error) : (s.raise c e).turn = s.turn := rfl
@[simp] theorem State.raise_draws (c : Nat) (e : Error) : (s.raise c e).draws = s.draws := rfl

/-! ### refuse -/

@[simp] theorem State.refuse_busy : (s.refuse).busy = s.busy := rfl
@[simp] theorem State.refuse_job : (s.refuse).job = s.job := rfl
@[simp] theorem State.refuse_actions : (s.refuse).actions = s.actions := rfl
@[simp] theorem State.refuse_pc : (s.refuse).pc = s.pc := rfl
@[simp] theorem State.refuse_txn : (s.refuse).txn = s.txn := rfl
@[simp] theorem State.refuse_rdata : (s.refuse).rdata = s.rdata := rfl
@[simp] theorem State.refuse_ta : (s.refuse).ta = s.ta := rfl
@[simp] theorem State.refuse_lines : (s.refuse).lines = s.lines := rfl
@[simp] theorem State.refuse_owner : (s.refuse).owner = s.owner := rfl
@[simp] theorem State.refuse_frozen : (s.refuse).frozen = s.frozen := rfl
@[simp] theorem State.refuse_pending : (s.refuse).pending = s.pending := rfl
@[simp] theorem State.refuse_regmap : (s.refuse).regmap = s.regmap := rfl
@[simp] theorem State.refuse_trace : (s.refuse).trace = s.trace := rfl
@[simp] theorem State.refuse_refusalMark : (s.refuse).refusalMark = true := rfl
@[simp] theorem State.refuse_hookWaits : (s.refuse).hookWaits = s.hookWaits := rfl
@[simp] theorem State.refuse_params : (s.refuse).params = s.params := rfl
@[simp] theorem State.refuse_inbox : (s.refuse).inbox = s.inbox := rfl
@[simp] theorem State.refuse_turn : (s.refuse).turn = s.turn := rfl
@[simp] theorem State.refuse_draws : (s.refuse).draws = s.draws := rfl

/-! ### tick -/

@[simp] theorem State.tick_busy : (s.tick).busy = s.busy := rfl
@[simp] theorem State.tick_job : (s.tick).job = s.job := rfl
@[simp] theorem State.tick_actions : (s.tick).actions = s.actions := rfl
@[simp] theorem State.tick_pc : (s.tick).pc = s.pc := rfl
@[simp] theorem State.tick_txn : (s.tick).txn = s.txn := rfl
@[simp] theorem State.tick_rdata : (s.tick).rdata = s.rdata := rfl
@[simp] theorem State.tick_ta : (s.tick).ta = s.ta := rfl
@[simp] theorem State.tick_lines : (s.tick).lines = s.lines := rfl
@[simp] theorem State.tick_owner : (s.tick).owner = s.owner := rfl
@[simp] theorem State.tick_frozen : (s.tick).frozen = s.frozen := rfl
@[simp] theorem State.tick_pending : (s.tick).pending = s.pending := rfl
@[simp] theorem State.tick_regmap : (s.tick).regmap = s.regmap := rfl
@[simp] theorem State.tick_trace : (s.tick).trace = s.trace := rfl
@[simp] theorem State.tick_refusalMark : (s.tick).refusalMark = s.refusalMark := rfl
@[simp] theorem State.tick_hookWaits : (s.tick).hookWaits = s.hookWaits := rfl
@[simp] theorem State.tick_params : (s.tick).params = s.params := rfl
@[simp] theorem State.tick_inbox : (s.tick).inbox = s.inbox := rfl
@[simp] theorem State.tick_turn : (s.tick).turn = s.turn := rfl
@[simp] theorem State.tick_draws : (s.tick).draws = s.draws + 1 := rfl

/-! ### goIdle -/

@[simp] theorem State.goIdle_busy : (s.goIdle).busy = false := rfl
@[simp] theorem State.goIdle_job : (s.goIdle).job = none := rfl
@[simp] theorem State.goIdle_actions : (s.goIdle).actions = [] := rfl
@[simp] theorem State.goIdle_pc : (s.goIdle).pc = 0 := rfl
@[simp] theorem State.goIdle_txn : (s.goIdle).txn = none := rfl
@[simp] theorem State.goIdle_rdata : (s.goIdle).rdata = s.rdata := rfl
@[simp] theorem State.goIdle_ta : (s.goIdle).ta = s.ta := rfl
@[simp] theorem State.goIdle_lines : (s.goIdle).lines = s.lines := rfl
@[simp] theorem State.goIdle_owner : (s.goIdle).owner = none := rfl
@[simp] theorem State.goIdle_frozen : (s.goIdle).frozen = s.frozen := rfl
@[simp] theorem State.goIdle_pending : (s.goIdle).pending = s.pending := rfl
@[simp] theorem State.goIdle_regmap : (s.goIdle).regmap = s.regmap := rfl
@[simp] theorem State.goIdle_trace : (s.goIdle).trace = s.trace := rfl
@[simp] theorem State.goIdle_refusalMark : (s.goIdle).refusalMark = s.refusalMark := rfl
@[simp] theorem State.goIdle_hookWaits : (s.goIdle).hookWaits = s.hookWaits := rfl
@[simp] theorem State.goIdle_params : (s.goIdle).params = s.params := rfl
@[simp] theorem State.goIdle_inbox : (s.goIdle).inbox = s.inbox := rfl
@[simp] theorem State.goIdle_turn : (s.goIdle).turn = s.turn := rfl
@[simp] theorem State.goIdle_draws : (s.goIdle).draws = s.draws := rfl

/-! ### finish -/

@[simp] theorem State.finish_busy (c : Nat) (r : Result) : (s.finish c r).busy = false := rfl
@[simp] theorem State.finish_job (c : Nat) (r : Result) : (s.finish c r).job = none := rfl
@[simp] theorem State.finish_actions (c : Nat) (r : Result) : (s.finish c r).actions = [] := rfl
@[simp] theorem State.finish_pc (c : Nat) (r : Result) : (s.finish c r).pc = 0 := rfl
@[simp] theorem State.finish_txn (c : Nat) (r : Result) : (s.finish c r).txn = none := rfl
@[simp] theorem State.finish_rdata (c : Nat) (r : Result) : (s.finish c r).rdata = s.rdata := rfl
@[simp] theorem State.finish_ta (c : Nat) (r : Result) : (s.finish c r).ta = s.ta := rfl
@[simp] theorem State.finish_lines (c : Nat) (r : Result) : (s.finish c r).lines = s.lines := rfl
@[simp] theorem State.finish_owner (c : Nat) (r : Result) : (s.finish c r).owner = none := rfl
@[simp] theorem State.finish_frozen (c : Nat) (r : Result) : (s.finish c r).frozen = s.frozen := rfl
@[simp] theorem State.finish_pending (c : Nat) (r : Result) : (s.finish c r).pending = pendingErase c s.pending := rfl
@[simp] theorem State.finish_regmap (c : Nat) (r : Result) : (s.finish c r).regmap = s.regmap := rfl
@[simp] theorem State.finish_trace (c : Nat) (r : Result) : (s.finish c r).trace = s.trace ++ [.respond c r] := rfl
@[simp] theorem State.finish_refusalMark (c : Nat) (r : Result) : (s.finish c r).refusalMark = s.refusalMark := rfl
@[simp] theorem State.finish_hookWaits (c : Nat) (r : Result) : (s.finish c r).hookWaits = s.hookWaits := rfl
@[simp] theorem State.finish_params (c : Nat) (r : Result) : (s.finish c r).params = s.params := rfl
@[simp] theorem State.finish_inbox (c : Nat) (r : Result) : (s.finish c r).inbox = s.inbox := rfl
@[simp] theorem State.finish_turn (c : Nat) (r : Result) : (s.finish c r).turn = s.turn := rfl
@[simp] theorem State.finish_draws (c : Nat) (r : Result) : (s.finish c r).draws = s.draws := rfl

/-! ### driveLines -/

@[simp] theorem State.driveLines_busy (w : DriveWord) : (s.driveLines w).busy = s.busy := rfl
@[simp] theorem State.driveLines_job (w : DriveWord) : (s.driveLines w).job = s.job := rfl
@[simp] theorem State.driveLines_actions (w : DriveWord) : (s.driveLines w).actions = s.actions := rfl
@[simp] theorem State.driveLines_pc (w : DriveWord) : (s.driveLines w).pc = s.pc := rfl
@[simp] theorem State.driveLines_txn (w : DriveWord) : (s.driveLines w).txn = s.txn := rfl
@[simp] theorem State.driveLines_rdata (w : DriveWord) : (s.driveLines w).rdata = s.rdata := rfl
@[simp] theorem State.driveLines_ta (w : DriveWord) : (s.driveLines w).ta = s.ta := rfl
@[simp] theorem State.driveLines_lines (w : DriveWord) : (s.driveLines w).lines = some w := rfl
@[simp] theorem State.driveLines_owner (w : DriveWord) : (s.driveLines w).owner = s.owner := rfl
@[simp] theorem State.driveLines_frozen (w : DriveWord) : (s.driveLines w).frozen = s.frozen := rfl
@[simp] theorem State.driveLines_pending (w : DriveWord) : (s.driveLines w).pending = s.pending := rfl
@[simp] theorem State.driveLines_regmap (w : DriveWord) : (s.driveLines w).regmap = s.regmap := rfl
@[simp] theorem State.driveLines_trace (w : DriveWord) : (s.driveLines w).trace = s.trace ++ [.drive w] := rfl
@[simp] theorem State.driveLines_refusalMark (w : DriveWord) : (s.driveLines w).refusalMark = s.refusalMark := rfl
@[simp] theorem State.driveLines_hookWaits (w : DriveWord) : (s.driveLines w).hookWaits = s.hookWaits := rfl
@[simp] theorem State.driveLines_params (w : DriveWord) : (s.driveLines w).params = s.params := rfl
@[simp] theorem State.driveLines_inbox (w : DriveWord) : (s.driveLines w).inbox = s.inbox := rfl
@[simp] theorem State.driveLines_turn (w : DriveWord) : (s.driveLines w).turn = s.turn := rfl
@[simp] theorem State.driveLines_draws (w : DriveWord) : (s.driveLines w).draws = s.draws := rfl

/-! ### delayHook -/

@[simp] theorem State.delayHook_busy : (s.delayHook).busy = s.busy := rfl
@[simp] theorem State.delayHook_job : (s.delayHook).job = s.job := rfl
@[simp] theorem State.delayHook_actions : (s.delayHook).actions = s.actions := rfl
@[simp] theorem State.delayHook_pc : (s.delayHook).pc = s.pc := rfl
@[simp] theorem State.delayHook_txn : (s.delayHook).txn = s.txn := rfl
@[simp] theorem State.delayHook_rdata : (s.delayHook).rdata = s.rdata := rfl
@[simp] theorem State.delayHook_ta : (s.delayHook).ta = s.ta := rfl
@[simp] theorem State.delayHook_lines : (s.delayHook).lines = s.lines := rfl
@[simp] theorem State.delayHook_owner : (s.delayHook).owner = s.owner := rfl
@[simp] theorem State.delayHook_frozen : (s.delayHook).frozen = s.frozen := rfl
@[simp] theorem State.delayHook_pending : (s.delayHook).pending = s.pending := rfl
@[simp] theorem State.delayHook_regmap : (s.delayHook).regmap = s.regmap := rfl
@[simp] theorem State.delayHook_trace : (s.delayHook).trace = s.trace ++ [.delay] := rfl
@[simp] theorem State.delayHook_refusalMark : (s.delayHook).refusalMark = s.refusalMark := rfl
@[simp] theorem State.delayHook_hookWaits : (s.delayHook).hookWaits = s.hookWaits := rfl
@[simp] theorem State.delayHook_params : (s.delayHook).params = s.params := rfl
@[simp] theorem State.delayHook_inbox : (s.delayHook).inbox = s.inbox := rfl
@[simp] theorem State.delayHook_turn : (s.delayHook).turn = s.turn := rfl
@[simp] theorem State.delayHook_draws : (s.delayHook).draws = s.draws := rfl

/-! ### shiftRdata -/

@[simp] theorem State.shiftRdata_busy (b : Bool) : (s.shiftRdata b).busy = s.busy := rfl
@[simp] theorem State.shiftRdata_job (b : Bool) : (s.shiftRdata b).job = s.job := rfl
@[simp] theorem State.shiftRdata_actions (b : Bool) : (s.shiftRdata b).actions = s.actions := rfl
@[simp] theorem State.shiftRdata_pc (b : Bool) : (s.shiftRdata b).pc = s.pc := rfl
@[simp] theorem State.shiftRdata_txn (b : Bool) : (s.shiftRdata b).txn = s.txn := rfl
@[simp] theorem State.shiftRdata_rdata (b : Bool) : (s.shiftRdata b).rdata = (s.rdata <<< 1) ||| BitVec.ofNat 16 b.toNat := rfl
@[simp] theorem State.shiftRdata_ta (b : Bool) : (s.shiftRdata b).ta = s.ta := rfl
@[simp] theorem State.shiftRdata_lines (b : Bool) : (s.shiftRdata b).lines = s.lines := rfl
@[simp] theorem State.shiftRdata_owner (b : Bool) : (s.shiftRdata b).owner = s.owner := rfl
@[simp] theorem State.shiftRdata_frozen (b : Bool) : (s.shiftRdata b).frozen = s.frozen := rfl
@[simp] theorem State.shiftRdata_pending (b : Bool) : (s.shiftRdata b).pending = s.pending := rfl
@[simp] theorem State.shiftRdata_regmap (b : Bool) : (s.shiftRdata b).regmap = s.regmap := rfl
@[simp] theorem State.shiftRdata_trace (b : Bool) : (s.shiftRdata b).trace = s.trace := rfl
@[simp] theorem State.shiftRdata_refusalMark (b : Bool) : (s.shiftRdata b).refusalMark = s.refusalMark := rfl
@[simp] theorem State.shiftRdata_hookWaits (b : Bool) : (s.shiftRdata b).hookWaits = s.hookWaits := rfl
@[simp] theorem State.shiftRdata_params (b : Bool) : (s.shiftRdata b).params = s.params := rfl
@[simp] theorem State.shiftRdata_inbox (b : Bool) : (s.shiftRdata b).inbox = s.inbox := rfl
@[simp] theorem State.shiftRdata_turn (b : Bool) : (s.shiftRdata b).turn = s.turn := rfl
@[simp] theorem State.shiftRdata_draws (b : Bool) : (s.shiftRdata b).draws = s.draws := rfl

/-! ### blockReset -/

@[simp] theorem State.blockReset_busy : (s.blockReset).busy = false := rfl
@[simp] theorem State.blockReset_job : (s.blockReset).job = none := rfl
@[simp] theorem State.blockReset_actions : (s.blockReset).actions = [] := rfl
@[simp] theorem State.blockReset_pc : (s.blockReset).pc = 0 := rfl
@[simp] theorem State.blockReset_txn : (s.blockReset).txn = none := rfl
@[simp] theorem State.blockReset_rdata : (s.blockReset).rdata = Config.rdataAfterReset s.draws := rfl
@[simp] theorem State.blockReset_ta : (s.blockReset).ta = none := rfl
@[simp] theorem State.blockReset_lines : (s.blockReset).lines = none := rfl
@[simp] theorem State.blockReset_owner : (s.blockReset).owner = none := rfl
@[simp] theorem State.blockReset_frozen : (s.blockReset).frozen = s.frozen := rfl
@[simp] theorem State.blockReset_pending : (s.blockReset).pending = [] := rfl
@[simp] theorem State.blockReset_regmap : (s.blockReset).regmap = s.regmap := rfl
@[simp] theorem State.blockReset_trace : (s.blockReset).trace = s.trace := rfl
@[simp] theorem State.blockReset_refusalMark : (s.blockReset).refusalMark = s.refusalMark := rfl
@[simp] theorem State.blockReset_hookWaits : (s.blockReset).hookWaits = false := rfl
@[simp] theorem State.blockReset_params : (s.blockReset).params = s.params := rfl
@[simp] theorem State.blockReset_inbox : (s.blockReset).inbox = s.inbox := rfl
@[simp] theorem State.blockReset_turn : (s.blockReset).turn = s.turn := rfl
@[simp] theorem State.blockReset_draws : (s.blockReset).draws = s.draws + 1 := rfl

/-! ### advancePc -/

@[simp] theorem State.advancePc_busy : (s.advancePc).busy = s.busy := rfl
@[simp] theorem State.advancePc_job : (s.advancePc).job = s.job := rfl
@[simp] theorem State.advancePc_actions : (s.advancePc).actions = s.actions := rfl
@[simp] theorem State.advancePc_pc : (s.advancePc).pc = s.pc + 1 := rfl
@[simp] theorem State.advancePc_txn : (s.advancePc).txn = s.txn := rfl
@[simp] theorem State.advancePc_rdata : (s.advancePc).rdata = s.rdata := rfl
@[simp] theorem State.advancePc_ta : (s.advancePc).ta = s.ta := rfl
@[simp] theorem State.advancePc_lines : (s.advancePc).lines = s.lines := rfl
@[simp] theorem State.advancePc_owner : (s.advancePc).owner = s.owner := rfl
@[simp] theorem State.advancePc_frozen : (s.advancePc).frozen = s.frozen := rfl
@[simp] theorem State.advancePc_pending : (s.advancePc).pending = s.pending := rfl
@[simp] theorem State.advancePc_regmap : (s.advancePc).regmap = s.regmap := rfl
@[simp] theorem State.advancePc_trace : (s.advancePc).trace = s.trace := rfl
@[simp] theorem State.advancePc_refusalMark : (s.advancePc).refusalMark = s.refusalMark := rfl
@[simp] theorem State.advancePc_hookWaits : (s.advancePc).hookWaits = s.hookWaits := rfl
@[simp] theorem State.advancePc_params : (s.advancePc).params = s.params := rfl
@[simp] theorem State.advancePc_inbox : (s.advancePc).inbox = s.inbox := rfl
@[simp] theorem State.advancePc_turn : (s.advancePc).turn = s.turn := rfl
@[simp] theorem State.advancePc_draws : (s.advancePc).draws = s.draws := rfl

/-! ### redrawTurn -/

@[simp] theorem State.redrawTurn_busy : (s.redrawTurn).busy = s.busy := rfl
@[simp] theorem State.redrawTurn_job : (s.redrawTurn).job = s.job := rfl
@[simp] theorem State.redrawTurn_actions : (s.redrawTurn).actions = s.actions := rfl
@[simp] theorem State.redrawTurn_pc : (s.redrawTurn).pc = s.pc := rfl
@[simp] theorem State.redrawTurn_txn : (s.redrawTurn).txn = s.txn := rfl
@[simp] theorem State.redrawTurn_rdata : (s.redrawTurn).rdata = s.rdata := rfl
@[simp] theorem State.redrawTurn_ta : (s.redrawTurn).ta = s.ta := rfl
@[simp] theorem State.redrawTurn_lines : (s.redrawTurn).lines = s.lines := rfl
@[simp] theorem State.redrawTurn_owner : (s.redrawTurn).owner = s.owner := rfl
@[simp] theorem State.redrawTurn_frozen : (s.redrawTurn).frozen = s.frozen := rfl
@[simp] theorem State.redrawTurn_pending : (s.redrawTurn).pending = s.pending := rfl
@[simp] theorem State.redrawTurn_regmap : (s.redrawTurn).regmap = s.regmap := rfl
@[simp] theorem State.redrawTurn_trace : (s.redrawTurn).trace = s.trace := rfl
@[simp] theorem State.redrawTurn_refusalMark : (s.redrawTurn).refusalMark = s.refusalMark := rfl
@[simp] theorem State.redrawTurn_hookWaits : (s.redrawTurn).hookWaits = s.hookWaits := rfl
@[simp] theorem State.redrawTurn_params : (s.redrawTurn).params = s.params := rfl
@[simp] theorem State.redrawTurn_inbox : (s.redrawTurn).inbox = s.inbox := rfl
@[simp] theorem State.redrawTurn_turn : (s.redrawTurn).turn = Config.turnPick (s.draws + 1) := rfl
@[simp] theorem State.redrawTurn_draws : (s.redrawTurn).draws = s.draws + 1 := rfl

/-! ### hookAsks -/

section hookAsks
variable (bytes : List Byte) (w : Bool)
@[simp] theorem State.hookAsks_busy : (s.hookAsks bytes w).busy = s.busy := rfl
@[simp] theorem State.hookAsks_job : (s.hookAsks bytes w).job = s.job := rfl
@[simp] theorem State.hookAsks_actions : (s.hookAsks bytes w).actions = s.actions := rfl
@[simp] theorem State.hookAsks_pc : (s.hookAsks bytes w).pc = s.pc := rfl
@[simp] theorem State.hookAsks_txn : (s.hookAsks bytes w).txn = s.txn := rfl
@[simp] theorem State.hookAsks_rdata : (s.hookAsks bytes w).rdata = s.rdata := rfl
@[simp] theorem State.hookAsks_ta : (s.hookAsks bytes w).ta = s.ta := rfl
@[simp] theorem State.hookAsks_lines : (s.hookAsks bytes w).lines = s.lines := rfl
@[simp] theorem State.hookAsks_owner : (s.hookAsks bytes w).owner = s.owner := rfl
@[simp] theorem State.hookAsks_frozen : (s.hookAsks bytes w).frozen = s.frozen := rfl
@[simp] theorem State.hookAsks_pending : (s.hookAsks bytes w).pending = s.pending := rfl
@[simp] theorem State.hookAsks_regmap : (s.hookAsks bytes w).regmap = s.regmap := rfl
@[simp] theorem State.hookAsks_trace : (s.hookAsks bytes w).trace = s.trace := rfl
@[simp] theorem State.hookAsks_refusalMark : (s.hookAsks bytes w).refusalMark = s.refusalMark := rfl
@[simp] theorem State.hookAsks_params : (s.hookAsks bytes w).params = s.params := rfl
@[simp] theorem State.hookAsks_inbox : (s.hookAsks bytes w).inbox = s.inbox := rfl
@[simp] theorem State.hookAsks_turn : (s.hookAsks bytes w).turn = s.turn := rfl
@[simp] theorem State.hookAsks_draws : (s.hookAsks bytes w).draws = s.draws := rfl
@[simp] theorem State.hookAsks_hookWaits :
    (s.hookAsks bytes w).hookWaits = (s.hookWaits || (w && recordUsesBus bytes)) := rfl
end hookAsks

/-! ### settleTurn -/

@[simp] theorem State.settleTurn_busy : (s.settleTurn).busy = s.busy := by unfold State.settleTurn; split <;> rfl
@[simp] theorem State.settleTurn_job : (s.settleTurn).job = s.job := by unfold State.settleTurn; split <;> rfl
@[simp] theorem State.settleTurn_actions : (s.settleTurn).actions = s.actions := by unfold State.settleTurn; split <;> rfl
@[simp] theorem State.settleTurn_pc : (s.settleTurn).pc = s.pc := by unfold State.settleTurn; split <;> rfl
@[simp] theorem State.settleTurn_txn : (s.settleTurn).txn = s.txn := by unfold State.settleTurn; split <;> rfl
@[simp] theorem State.settleTurn_rdata : (s.settleTurn).rdata = s.rdata := by unfold State.settleTurn; split <;> rfl
@[simp] theorem State.settleTurn_ta : (s.settleTurn).ta = s.ta := by unfold State.settleTurn; split <;> rfl
@[simp] theorem State.settleTurn_lines : (s.settleTurn).lines = s.lines := by unfold State.settleTurn; split <;> rfl
@[simp] theorem State.settleTurn_owner : (s.settleTurn).owner = s.owner := by unfold State.settleTurn; split <;> rfl
@[simp] theorem State.settleTurn_frozen : (s.settleTurn).frozen = s.frozen := by unfold State.settleTurn; split <;> rfl
@[simp] theorem State.settleTurn_pending : (s.settleTurn).pending = s.pending := by unfold State.settleTurn; split <;> rfl
@[simp] theorem State.settleTurn_regmap : (s.settleTurn).regmap = s.regmap := by unfold State.settleTurn; split <;> rfl
@[simp] theorem State.settleTurn_trace : (s.settleTurn).trace = s.trace := by unfold State.settleTurn; split <;> rfl
@[simp] theorem State.settleTurn_refusalMark : (s.settleTurn).refusalMark = s.refusalMark := by unfold State.settleTurn; split <;> rfl
@[simp] theorem State.settleTurn_hookWaits : (s.settleTurn).hookWaits = s.hookWaits := by unfold State.settleTurn; split <;> rfl
@[simp] theorem State.settleTurn_params : (s.settleTurn).params = s.params := by unfold State.settleTurn; split <;> rfl
@[simp] theorem State.settleTurn_inbox : (s.settleTurn).inbox = s.inbox := by unfold State.settleTurn; split <;> rfl
theorem State.settleTurn_turn :
    (s.settleTurn).turn = if 1 < s.moves.length then Config.turnPick (s.draws + 1) else s.turn := by
  unfold State.settleTurn; split <;> rfl
theorem State.settleTurn_draws :
    (s.settleTurn).draws = if 1 < s.moves.length then s.draws + 1 else s.draws := by
  unfold State.settleTurn; split <;> rfl

/-- Only the turn and the draw counter can change. -/
theorem State.settleTurn_eq :
    s.settleTurn = { s with turn := (s.settleTurn).turn, draws := (s.settleTurn).draws } := by
  unfold State.settleTurn; split <;> rfl

/-! ### withPrimitive -/

section withPrimitive
variable (i : Instr)
@[simp] theorem State.withPrimitive_busy : (s.withPrimitive i).busy = true := rfl
@[simp] theorem State.withPrimitive_job : (s.withPrimitive i).job = some (.frame (.read 0 0)) := rfl
@[simp] theorem State.withPrimitive_pc : (s.withPrimitive i).pc = primitivePlace s.params i := rfl
@[simp] theorem State.withPrimitive_txn : (s.withPrimitive i).txn = some (.read 0 0) := rfl
@[simp] theorem State.withPrimitive_rdata : (s.withPrimitive i).rdata = 0 := rfl
@[simp] theorem State.withPrimitive_ta : (s.withPrimitive i).ta = none := rfl
@[simp] theorem State.withPrimitive_lines : (s.withPrimitive i).lines = s.lines := rfl
@[simp] theorem State.withPrimitive_owner : (s.withPrimitive i).owner = some 0 := rfl
@[simp] theorem State.withPrimitive_frozen : (s.withPrimitive i).frozen = s.frozen := rfl
@[simp] theorem State.withPrimitive_pending : (s.withPrimitive i).pending = [(0, .mdioRead 0 0 0)] := rfl
@[simp] theorem State.withPrimitive_regmap : (s.withPrimitive i).regmap = s.regmap := rfl
@[simp] theorem State.withPrimitive_trace : (s.withPrimitive i).trace = s.trace := rfl
@[simp] theorem State.withPrimitive_refusalMark : (s.withPrimitive i).refusalMark = s.refusalMark := rfl
@[simp] theorem State.withPrimitive_hookWaits : (s.withPrimitive i).hookWaits = false := rfl
@[simp] theorem State.withPrimitive_params : (s.withPrimitive i).params = s.params := rfl
@[simp] theorem State.withPrimitive_inbox : (s.withPrimitive i).inbox = s.inbox := rfl
@[simp] theorem State.withPrimitive_turn : (s.withPrimitive i).turn = 0 := rfl
@[simp] theorem State.withPrimitive_draws : (s.withPrimitive i).draws = s.draws := rfl
@[simp] theorem State.withPrimitive_actions : (s.withPrimitive i).actions =
    (frameActions s.params (.read 0 0)).take (primitivePlace s.params i) ++ primitiveActions s.params i := rfl
end withPrimitive

/-! ### withRecord -/

@[simp] theorem State.withRecord_busy (bytes : List Byte) : (s.withRecord bytes).busy = false := rfl
@[simp] theorem State.withRecord_job (bytes : List Byte) : (s.withRecord bytes).job = none := rfl
@[simp] theorem State.withRecord_actions (bytes : List Byte) : (s.withRecord bytes).actions = [] := rfl
@[simp] theorem State.withRecord_pc (bytes : List Byte) : (s.withRecord bytes).pc = 0 := rfl
@[simp] theorem State.withRecord_txn (bytes : List Byte) : (s.withRecord bytes).txn = none := rfl
@[simp] theorem State.withRecord_rdata (bytes : List Byte) : (s.withRecord bytes).rdata = s.rdata := rfl
@[simp] theorem State.withRecord_ta (bytes : List Byte) : (s.withRecord bytes).ta = s.ta := rfl
@[simp] theorem State.withRecord_lines (bytes : List Byte) : (s.withRecord bytes).lines = s.lines := rfl
@[simp] theorem State.withRecord_owner (bytes : List Byte) : (s.withRecord bytes).owner = none := rfl
@[simp] theorem State.withRecord_frozen (bytes : List Byte) : (s.withRecord bytes).frozen = s.frozen := rfl
@[simp] theorem State.withRecord_pending (bytes : List Byte) : (s.withRecord bytes).pending = [] := rfl
@[simp] theorem State.withRecord_regmap (bytes : List Byte) : (s.withRecord bytes).regmap = s.regmap := rfl
@[simp] theorem State.withRecord_trace (bytes : List Byte) : (s.withRecord bytes).trace = s.trace := rfl
@[simp] theorem State.withRecord_refusalMark (bytes : List Byte) : (s.withRecord bytes).refusalMark = s.refusalMark := rfl
@[simp] theorem State.withRecord_hookWaits (bytes : List Byte) : (s.withRecord bytes).hookWaits = false := rfl
@[simp] theorem State.withRecord_params (bytes : List Byte) : (s.withRecord bytes).params = s.params := rfl
@[simp] theorem State.withRecord_inbox (bytes : List Byte) : (s.withRecord bytes).inbox = .record bytes :: s.inbox := rfl
@[simp] theorem State.withRecord_turn (bytes : List Byte) : (s.withRecord bytes).turn = 0 := rfl
@[simp] theorem State.withRecord_draws (bytes : List Byte) : (s.withRecord bytes).draws = s.draws := rfl

/-! ### afterStage -/

section afterStage
variable (j : Job) (t : Transaction)
@[simp] theorem State.afterStage_busy : (s.afterStage j t).busy = s.busy := rfl
@[simp] theorem State.afterStage_job : (s.afterStage j t).job = some j := rfl
@[simp] theorem State.afterStage_actions : (s.afterStage j t).actions = frameActions s.params t := rfl
@[simp] theorem State.afterStage_pc : (s.afterStage j t).pc = 0 := rfl
@[simp] theorem State.afterStage_txn : (s.afterStage j t).txn = some t := rfl
@[simp] theorem State.afterStage_rdata : (s.afterStage j t).rdata = if t.dir = .read then 0 else s.rdata := rfl
@[simp] theorem State.afterStage_ta : (s.afterStage j t).ta = if t.dir = .read then none else s.ta := rfl
@[simp] theorem State.afterStage_lines : (s.afterStage j t).lines = s.lines := rfl
@[simp] theorem State.afterStage_owner : (s.afterStage j t).owner = s.owner := rfl
@[simp] theorem State.afterStage_frozen : (s.afterStage j t).frozen = s.frozen := rfl
@[simp] theorem State.afterStage_pending : (s.afterStage j t).pending = s.pending := rfl
@[simp] theorem State.afterStage_regmap : (s.afterStage j t).regmap = s.regmap := rfl
@[simp] theorem State.afterStage_trace : (s.afterStage j t).trace = s.trace := rfl
@[simp] theorem State.afterStage_refusalMark : (s.afterStage j t).refusalMark = s.refusalMark := rfl
@[simp] theorem State.afterStage_hookWaits : (s.afterStage j t).hookWaits = s.hookWaits := rfl
@[simp] theorem State.afterStage_params : (s.afterStage j t).params = s.params := rfl
@[simp] theorem State.afterStage_inbox : (s.afterStage j t).inbox = s.inbox := rfl
@[simp] theorem State.afterStage_turn : (s.afterStage j t).turn = s.turn := rfl
@[simp] theorem State.afterStage_draws : (s.afterStage j t).draws = s.draws := rfl
end afterStage

/-! ### withEvents -/

@[simp] theorem State.withEvents_busy (es : List Event) : (s.withEvents es).busy = s.busy := rfl
@[simp] theorem State.withEvents_job (es : List Event) : (s.withEvents es).job = s.job := rfl
@[simp] theorem State.withEvents_actions (es : List Event) : (s.withEvents es).actions = s.actions := rfl
@[simp] theorem State.withEvents_pc (es : List Event) : (s.withEvents es).pc = s.pc := rfl
@[simp] theorem State.withEvents_txn (es : List Event) : (s.withEvents es).txn = s.txn := rfl
@[simp] theorem State.withEvents_rdata (es : List Event) : (s.withEvents es).rdata = s.rdata := rfl
@[simp] theorem State.withEvents_ta (es : List Event) : (s.withEvents es).ta = s.ta := rfl
@[simp] theorem State.withEvents_lines (es : List Event) : (s.withEvents es).lines = s.lines := rfl
@[simp] theorem State.withEvents_owner (es : List Event) : (s.withEvents es).owner = s.owner := rfl
@[simp] theorem State.withEvents_frozen (es : List Event) : (s.withEvents es).frozen = s.frozen := rfl
@[simp] theorem State.withEvents_pending (es : List Event) : (s.withEvents es).pending = s.pending := rfl
@[simp] theorem State.withEvents_regmap (es : List Event) : (s.withEvents es).regmap = s.regmap := rfl
@[simp] theorem State.withEvents_trace (es : List Event) : (s.withEvents es).trace = s.trace ++ es := rfl
@[simp] theorem State.withEvents_refusalMark (es : List Event) : (s.withEvents es).refusalMark = s.refusalMark := rfl
@[simp] theorem State.withEvents_hookWaits (es : List Event) : (s.withEvents es).hookWaits = s.hookWaits := rfl
@[simp] theorem State.withEvents_params (es : List Event) : (s.withEvents es).params = s.params := rfl
@[simp] theorem State.withEvents_inbox (es : List Event) : (s.withEvents es).inbox = s.inbox := rfl
@[simp] theorem State.withEvents_turn (es : List Event) : (s.withEvents es).turn = s.turn := rfl
@[simp] theorem State.withEvents_draws (es : List Event) : (s.withEvents es).draws = s.draws := rfl

/-! ### beginResetWrite -/

@[simp] theorem State.beginResetWrite_busy (phy : Nat) (w : Word) : (s.beginResetWrite phy w).busy = s.busy := rfl
@[simp] theorem State.beginResetWrite_job (phy : Nat) (w : Word) : (s.beginResetWrite phy w).job = some (.resetWrite phy w) := rfl
@[simp] theorem State.beginResetWrite_actions (phy : Nat) (w : Word) : (s.beginResetWrite phy w).actions = writeActions (BitVec.ofNat 5 phy) (wireIndex Config.ctrlRegAddr) w := rfl
@[simp] theorem State.beginResetWrite_pc (phy : Nat) (w : Word) : (s.beginResetWrite phy w).pc = 0 := rfl
@[simp] theorem State.beginResetWrite_txn (phy : Nat) (w : Word) : (s.beginResetWrite phy w).txn = some (.write (BitVec.ofNat 5 phy) (wireIndex Config.ctrlRegAddr) w) := rfl
@[simp] theorem State.beginResetWrite_rdata (phy : Nat) (w : Word) : (s.beginResetWrite phy w).rdata = s.rdata := rfl
@[simp] theorem State.beginResetWrite_ta (phy : Nat) (w : Word) : (s.beginResetWrite phy w).ta = s.ta := rfl
@[simp] theorem State.beginResetWrite_lines (phy : Nat) (w : Word) : (s.beginResetWrite phy w).lines = s.lines := rfl
@[simp] theorem State.beginResetWrite_owner (phy : Nat) (w : Word) : (s.beginResetWrite phy w).owner = s.owner := rfl
@[simp] theorem State.beginResetWrite_frozen (phy : Nat) (w : Word) : (s.beginResetWrite phy w).frozen = s.frozen := rfl
@[simp] theorem State.beginResetWrite_pending (phy : Nat) (w : Word) : (s.beginResetWrite phy w).pending = s.pending := rfl
@[simp] theorem State.beginResetWrite_regmap (phy : Nat) (w : Word) : (s.beginResetWrite phy w).regmap = s.regmap := rfl
@[simp] theorem State.beginResetWrite_trace (phy : Nat) (w : Word) : (s.beginResetWrite phy w).trace = s.trace := rfl
@[simp] theorem State.beginResetWrite_refusalMark (phy : Nat) (w : Word) : (s.beginResetWrite phy w).refusalMark = s.refusalMark := rfl
@[simp] theorem State.beginResetWrite_hookWaits (phy : Nat) (w : Word) : (s.beginResetWrite phy w).hookWaits = s.hookWaits := rfl
@[simp] theorem State.beginResetWrite_params (phy : Nat) (w : Word) : (s.beginResetWrite phy w).params = s.params := rfl
@[simp] theorem State.beginResetWrite_inbox (phy : Nat) (w : Word) : (s.beginResetWrite phy w).inbox = s.inbox := rfl
@[simp] theorem State.beginResetWrite_turn (phy : Nat) (w : Word) : (s.beginResetWrite phy w).turn = s.turn := rfl
@[simp] theorem State.beginResetWrite_draws (phy : Nat) (w : Word) : (s.beginResetWrite phy w).draws = s.draws := rfl

/-! ### loadFrame -/

@[simp] theorem State.loadFrame_busy (t : Transaction) : (s.loadFrame t).busy = s.busy := by
  cases t <;> rfl
@[simp] theorem State.loadFrame_job (t : Transaction) : (s.loadFrame t).job = s.job := by
  cases t <;> rfl
@[simp] theorem State.loadFrame_actions (t : Transaction) : (s.loadFrame t).actions = frameActions s.params t := by
  cases t <;> rfl
@[simp] theorem State.loadFrame_pc (t : Transaction) : (s.loadFrame t).pc = 0 := by
  cases t <;> rfl
@[simp] theorem State.loadFrame_txn (t : Transaction) : (s.loadFrame t).txn = some t := by
  cases t <;> rfl
@[simp] theorem State.loadFrame_rdata (t : Transaction) : (s.loadFrame t).rdata = if t.dir = .read then 0 else s.rdata := by
  cases t <;> rfl
@[simp] theorem State.loadFrame_ta (t : Transaction) : (s.loadFrame t).ta = if t.dir = .read then none else s.ta := by
  cases t <;> rfl
@[simp] theorem State.loadFrame_lines (t : Transaction) : (s.loadFrame t).lines = s.lines := by
  cases t <;> rfl
@[simp] theorem State.loadFrame_owner (t : Transaction) : (s.loadFrame t).owner = s.owner := by
  cases t <;> rfl
@[simp] theorem State.loadFrame_frozen (t : Transaction) : (s.loadFrame t).frozen = s.frozen := by
  cases t <;> rfl
@[simp] theorem State.loadFrame_pending (t : Transaction) : (s.loadFrame t).pending = s.pending := by
  cases t <;> rfl
@[simp] theorem State.loadFrame_regmap (t : Transaction) : (s.loadFrame t).regmap = s.regmap := by
  cases t <;> rfl
@[simp] theorem State.loadFrame_trace (t : Transaction) : (s.loadFrame t).trace = s.trace := by
  cases t <;> rfl
@[simp] theorem State.loadFrame_refusalMark (t : Transaction) : (s.loadFrame t).refusalMark = s.refusalMark := by
  cases t <;> rfl
@[simp] theorem State.loadFrame_hookWaits (t : Transaction) : (s.loadFrame t).hookWaits = s.hookWaits := by
  cases t <;> rfl
@[simp] theorem State.loadFrame_params (t : Transaction) : (s.loadFrame t).params = s.params := by
  cases t <;> rfl
@[simp] theorem State.loadFrame_inbox (t : Transaction) : (s.loadFrame t).inbox = s.inbox := by
  cases t <;> rfl
@[simp] theorem State.loadFrame_turn (t : Transaction) : (s.loadFrame t).turn = s.turn := by
  cases t <;> rfl
@[simp] theorem State.loadFrame_draws (t : Transaction) : (s.loadFrame t).draws = s.draws := by
  cases t <;> rfl

/-! ### accept -/

@[simp] theorem State.accept_busy (c : Nat) (req : Instr) (j : Job) (t : Transaction) :
    (s.accept c req j t).busy = true := by
  cases t <;> rfl
@[simp] theorem State.accept_job (c : Nat) (req : Instr) (j : Job) (t : Transaction) :
    (s.accept c req j t).job = some j := by
  cases t <;> rfl
@[simp] theorem State.accept_actions (c : Nat) (req : Instr) (j : Job) (t : Transaction) :
    (s.accept c req j t).actions = frameActions s.params t := by
  cases t <;> rfl
@[simp] theorem State.accept_pc (c : Nat) (req : Instr) (j : Job) (t : Transaction) :
    (s.accept c req j t).pc = 0 := by
  cases t <;> rfl
@[simp] theorem State.accept_txn (c : Nat) (req : Instr) (j : Job) (t : Transaction) :
    (s.accept c req j t).txn = some t := by
  cases t <;> rfl
@[simp] theorem State.accept_rdata (c : Nat) (req : Instr) (j : Job) (t : Transaction) :
    (s.accept c req j t).rdata = if t.dir = .read then 0 else s.rdata := by
  cases t <;> rfl
@[simp] theorem State.accept_ta (c : Nat) (req : Instr) (j : Job) (t : Transaction) :
    (s.accept c req j t).ta = if t.dir = .read then none else s.ta := by
  cases t <;> rfl
@[simp] theorem State.accept_lines (c : Nat) (req : Instr) (j : Job) (t : Transaction) :
    (s.accept c req j t).lines = s.lines := by
  cases t <;> rfl
@[simp] theorem State.accept_owner (c : Nat) (req : Instr) (j : Job) (t : Transaction) :
    (s.accept c req j t).owner = some c := by
  cases t <;> rfl
@[simp] theorem State.accept_frozen (c : Nat) (req : Instr) (j : Job) (t : Transaction) :
    (s.accept c req j t).frozen = s.frozen := by
  cases t <;> rfl
@[simp] theorem State.accept_pending (c : Nat) (req : Instr) (j : Job) (t : Transaction) :
    (s.accept c req j t).pending = pendingPut c req s.pending := by
  cases t <;> rfl
@[simp] theorem State.accept_regmap (c : Nat) (req : Instr) (j : Job) (t : Transaction) :
    (s.accept c req j t).regmap = s.regmap := by
  cases t <;> rfl
@[simp] theorem State.accept_trace (c : Nat) (req : Instr) (j : Job) (t : Transaction) :
    (s.accept c req j t).trace = s.trace ++ [.accept c req] := by
  cases t <;> rfl
@[simp] theorem State.accept_refusalMark (c : Nat) (req : Instr) (j : Job) (t : Transaction) :
    (s.accept c req j t).refusalMark = s.refusalMark := by
  cases t <;> rfl
@[simp] theorem State.accept_hookWaits (c : Nat) (req : Instr) (j : Job) (t : Transaction) :
    (s.accept c req j t).hookWaits = s.hookWaits := by
  cases t <;> rfl
@[simp] theorem State.accept_params (c : Nat) (req : Instr) (j : Job) (t : Transaction) :
    (s.accept c req j t).params = s.params := by
  cases t <;> rfl
@[simp] theorem State.accept_inbox (c : Nat) (req : Instr) (j : Job) (t : Transaction) :
    (s.accept c req j t).inbox = s.inbox := by
  cases t <;> rfl
@[simp] theorem State.accept_turn (c : Nat) (req : Instr) (j : Job) (t : Transaction) :
    (s.accept c req j t).turn = s.turn := by
  cases t <;> rfl
@[simp] theorem State.accept_draws (c : Nat) (req : Instr) (j : Job) (t : Transaction) :
    (s.accept c req j t).draws = s.draws := by
  cases t <;> rfl

/-! ### latchTa -/

@[simp] theorem State.latchTa_busy (b : Bool) : (s.latchTa b).busy = s.busy := by
  unfold State.latchTa; split <;> rfl
@[simp] theorem State.latchTa_job (b : Bool) : (s.latchTa b).job = s.job := by
  unfold State.latchTa; split <;> rfl
@[simp] theorem State.latchTa_actions (b : Bool) : (s.latchTa b).actions = s.actions := by
  unfold State.latchTa; split <;> rfl
@[simp] theorem State.latchTa_pc (b : Bool) : (s.latchTa b).pc = s.pc := by
  unfold State.latchTa; split <;> rfl
@[simp] theorem State.latchTa_txn (b : Bool) : (s.latchTa b).txn = s.txn := by
  unfold State.latchTa; split <;> rfl
@[simp] theorem State.latchTa_rdata (b : Bool) : (s.latchTa b).rdata = s.rdata := by
  unfold State.latchTa; split <;> rfl
@[simp] theorem State.latchTa_ta (b : Bool) : (s.latchTa b).ta = if s.params.checkTa then some b else s.ta := by
  unfold State.latchTa; split <;> rfl
@[simp] theorem State.latchTa_lines (b : Bool) : (s.latchTa b).lines = s.lines := by
  unfold State.latchTa; split <;> rfl
@[simp] theorem State.latchTa_owner (b : Bool) : (s.latchTa b).owner = s.owner := by
  unfold State.latchTa; split <;> rfl
@[simp] theorem State.latchTa_frozen (b : Bool) : (s.latchTa b).frozen = s.frozen := by
  unfold State.latchTa; split <;> rfl
@[simp] theorem State.latchTa_pending (b : Bool) : (s.latchTa b).pending = s.pending := by
  unfold State.latchTa; split <;> rfl
@[simp] theorem State.latchTa_regmap (b : Bool) : (s.latchTa b).regmap = s.regmap := by
  unfold State.latchTa; split <;> rfl
@[simp] theorem State.latchTa_trace (b : Bool) : (s.latchTa b).trace = s.trace := by
  unfold State.latchTa; split <;> rfl
@[simp] theorem State.latchTa_refusalMark (b : Bool) : (s.latchTa b).refusalMark = s.refusalMark := by
  unfold State.latchTa; split <;> rfl
@[simp] theorem State.latchTa_hookWaits (b : Bool) : (s.latchTa b).hookWaits = s.hookWaits := by
  unfold State.latchTa; split <;> rfl
@[simp] theorem State.latchTa_params (b : Bool) : (s.latchTa b).params = s.params := by
  unfold State.latchTa; split <;> rfl
@[simp] theorem State.latchTa_inbox (b : Bool) : (s.latchTa b).inbox = s.inbox := by
  unfold State.latchTa; split <;> rfl
@[simp] theorem State.latchTa_turn (b : Bool) : (s.latchTa b).turn = s.turn := by
  unfold State.latchTa; split <;> rfl
@[simp] theorem State.latchTa_draws (b : Bool) : (s.latchTa b).draws = s.draws := by
  unfold State.latchTa; split <;> rfl

/-! ### takeBit -/

@[simp] theorem State.takeBit_busy (d : SampleDest) (b : Bool) :
    (s.takeBit d b).busy = s.busy := by
  cases d <;> simp [State.takeBit]
@[simp] theorem State.takeBit_job (d : SampleDest) (b : Bool) :
    (s.takeBit d b).job = s.job := by
  cases d <;> simp [State.takeBit]
@[simp] theorem State.takeBit_actions (d : SampleDest) (b : Bool) :
    (s.takeBit d b).actions = s.actions := by
  cases d <;> simp [State.takeBit]
@[simp] theorem State.takeBit_pc (d : SampleDest) (b : Bool) :
    (s.takeBit d b).pc = s.pc := by
  cases d <;> simp [State.takeBit]
@[simp] theorem State.takeBit_txn (d : SampleDest) (b : Bool) :
    (s.takeBit d b).txn = s.txn := by
  cases d <;> simp [State.takeBit]
@[simp] theorem State.takeBit_rdata (d : SampleDest) (b : Bool) :
    (s.takeBit d b).rdata = if d = .rdata then (s.rdata <<< 1) ||| BitVec.ofNat 16 b.toNat else s.rdata := by
  cases d <;> simp [State.takeBit]
@[simp] theorem State.takeBit_ta (d : SampleDest) (b : Bool) :
    (s.takeBit d b).ta = if d = .ta ∧ s.params.checkTa = true then some b else s.ta := by
  cases d <;> simp [State.takeBit]
@[simp] theorem State.takeBit_lines (d : SampleDest) (b : Bool) :
    (s.takeBit d b).lines = s.lines := by
  cases d <;> simp [State.takeBit]
@[simp] theorem State.takeBit_owner (d : SampleDest) (b : Bool) :
    (s.takeBit d b).owner = s.owner := by
  cases d <;> simp [State.takeBit]
@[simp] theorem State.takeBit_frozen (d : SampleDest) (b : Bool) :
    (s.takeBit d b).frozen = s.frozen := by
  cases d <;> simp [State.takeBit]
@[simp] theorem State.takeBit_pending (d : SampleDest) (b : Bool) :
    (s.takeBit d b).pending = s.pending := by
  cases d <;> simp [State.takeBit]
@[simp] theorem State.takeBit_regmap (d : SampleDest) (b : Bool) :
    (s.takeBit d b).regmap = s.regmap := by
  cases d <;> simp [State.takeBit]
@[simp] theorem State.takeBit_trace (d : SampleDest) (b : Bool) :
    (s.takeBit d b).trace = s.trace ++ [.sample b] := by
  cases d <;> simp [State.takeBit]
@[simp] theorem State.takeBit_refusalMark (d : SampleDest) (b : Bool) :
    (s.takeBit d b).refusalMark = s.refusalMark := by
  cases d <;> simp [State.takeBit]
@[simp] theorem State.takeBit_hookWaits (d : SampleDest) (b : Bool) :
    (s.takeBit d b).hookWaits = s.hookWaits := by
  cases d <;> simp [State.takeBit]
@[simp] theorem State.takeBit_params (d : SampleDest) (b : Bool) :
    (s.takeBit d b).params = s.params := by
  cases d <;> simp [State.takeBit]
@[simp] theorem State.takeBit_inbox (d : SampleDest) (b : Bool) :
    (s.takeBit d b).inbox = s.inbox := by
  cases d <;> simp [State.takeBit]
@[simp] theorem State.takeBit_turn (d : SampleDest) (b : Bool) :
    (s.takeBit d b).turn = s.turn := by
  cases d <;> simp [State.takeBit]
@[simp] theorem State.takeBit_draws (d : SampleDest) (b : Bool) :
    (s.takeBit d b).draws = s.draws := by
  cases d <;> simp [State.takeBit]

/-! ### sampleTo -/

@[simp] theorem State.sampleTo_busy (d : SampleDest) :
    (s.sampleTo d).busy = s.busy := by
  simp [State.sampleTo]
@[simp] theorem State.sampleTo_job (d : SampleDest) :
    (s.sampleTo d).job = s.job := by
  simp [State.sampleTo]
@[simp] theorem State.sampleTo_actions (d : SampleDest) :
    (s.sampleTo d).actions = s.actions := by
  simp [State.sampleTo]
@[simp] theorem State.sampleTo_pc (d : SampleDest) :
    (s.sampleTo d).pc = s.pc := by
  simp [State.sampleTo]
@[simp] theorem State.sampleTo_txn (d : SampleDest) :
    (s.sampleTo d).txn = s.txn := by
  simp [State.sampleTo]
@[simp] theorem State.sampleTo_rdata (d : SampleDest) :
    (s.sampleTo d).rdata = if d = .rdata then (s.rdata <<< 1) ||| BitVec.ofNat 16 (dataIn (Config.sampleAnswer s.draws)).toNat else s.rdata := by
  simp [State.sampleTo]
@[simp] theorem State.sampleTo_ta (d : SampleDest) :
    (s.sampleTo d).ta = if d = .ta ∧ s.params.checkTa = true then some (dataIn (Config.sampleAnswer s.draws)) else s.ta := by
  simp [State.sampleTo]
@[simp] theorem State.sampleTo_lines (d : SampleDest) :
    (s.sampleTo d).lines = s.lines := by
  simp [State.sampleTo]
@[simp] theorem State.sampleTo_owner (d : SampleDest) :
    (s.sampleTo d).owner = s.owner := by
  simp [State.sampleTo]
@[simp] theorem State.sampleTo_frozen (d : SampleDest) :
    (s.sampleTo d).frozen = s.frozen := by
  simp [State.sampleTo]
@[simp] theorem State.sampleTo_pending (d : SampleDest) :
    (s.sampleTo d).pending = s.pending := by
  simp [State.sampleTo]
@[simp] theorem State.sampleTo_regmap (d : SampleDest) :
    (s.sampleTo d).regmap = s.regmap := by
  simp [State.sampleTo]
@[simp] theorem State.sampleTo_trace (d : SampleDest) :
    (s.sampleTo d).trace = s.trace ++ [.sample (dataIn (Config.sampleAnswer s.draws))] := by
  simp [State.sampleTo]
@[simp] theorem State.sampleTo_refusalMark (d : SampleDest) :
    (s.sampleTo d).refusalMark = s.refusalMark := by
  simp [State.sampleTo]
@[simp] theorem State.sampleTo_hookWaits (d : SampleDest) :
    (s.sampleTo d).hookWaits = s.hookWaits := by
  simp [State.sampleTo]
@[simp] theorem State.sampleTo_params (d : SampleDest) :
    (s.sampleTo d).params = s.params := by
  simp [State.sampleTo]
@[simp] theorem State.sampleTo_inbox (d : SampleDest) :
    (s.sampleTo d).inbox = s.inbox := by
  simp [State.sampleTo]
@[simp] theorem State.sampleTo_turn (d : SampleDest) :
    (s.sampleTo d).turn = s.turn := by
  simp [State.sampleTo]
@[simp] theorem State.sampleTo_draws (d : SampleDest) :
    (s.sampleTo d).draws = s.draws + 1 := by
  simp [State.sampleTo]

end Sys2Proof.Machine
end

