-- ==== Sys2Proof/Laws/Ops.lean ====
section
/-!
SUPPORT. One lemma per shared operation that says what it can do: REGMAP, outstanding requests, the three shapes of a
request step, transport actions, the checks.
-/

namespace Sys2Proof.Machine

/-! ### REGMAP -/

@[simp] theorem regFind_nil (a : Nat) : regFind [] a = none := rfl

theorem regFind_cons (r : RegDef) (m : RegMap) (a : Nat) :
    regFind (r :: m) a = if r.addr = a then some r else regFind m a := by
  by_cases h : r.addr = a <;> simp [regFind, h]

theorem regFind_addr {m : RegMap} {a : Nat} {r : RegDef} (h : regFind m a = some r) : r.addr = a := by
  simpa using List.find?_some h

theorem regFind_mem {m : RegMap} {a : Nat} {r : RegDef} (h : regFind m a = some r) : r ∈ m :=
  List.mem_of_find?_eq_some h

theorem regFind_eq_none_of_lt {m : RegMap} {a : Nat} (h : ∀ r ∈ m, a < r.addr) : regFind m a = none := by
  simp only [regFind, List.find?_eq_none, beq_iff_eq]
  intro r hr he
  have := h r hr
  omega

@[simp] theorem regFind_regPut_self (d : RegDef) (m : RegMap) : regFind (regPut d m) d.addr = some d := by
  induction m with
  | nil => simp [regPut, regFind_cons]
  | cons r m ih =>
    unfold regPut
    split
    · simp [regFind_cons]
    · split
      · simp [regFind_cons]
      · rw [regFind_cons, if_neg (by omega), ih]

theorem regFind_regPut_ne (d : RegDef) (m : RegMap) {a : Nat} (h : a ≠ d.addr) :
    regFind (regPut d m) a = regFind m a := by
  induction m with
  | nil => simp [regPut, regFind_cons, Ne.symm h]
  | cons r m ih =>
    unfold regPut
    split
    · simp [regFind_cons, Ne.symm h]
    · split
      · next he => simp [regFind_cons, ← he, Ne.symm h]
      · rw [regFind_cons, regFind_cons, ih]

theorem mem_regPut {d r : RegDef} {m : RegMap} (h : r ∈ regPut d m) : r = d ∨ r ∈ m := by
  induction m with
  | nil => simpa [regPut] using h
  | cons x m ih =>
    unfold regPut at h
    split at h
    · simpa using h
    · split at h <;> simp only [List.mem_cons] at h ⊢
      · tauto
      · rcases h with h | h
        · tauto
        · have := ih h; tauto

theorem addrsRising_regPut (d : RegDef) {m : RegMap} (h : addrsRising m = true) : addrsRising (regPut d m) = true := by
  induction m with
  | nil => simp [regPut, addrsRising]
  | cons r m ih =>
    simp only [addrsRising, Bool.and_eq_true, List.all_eq_true, decide_eq_true_eq] at h
    unfold regPut
    split
    · next hlt =>
      simp only [addrsRising, Bool.and_eq_true, List.all_eq_true, decide_eq_true_eq, List.mem_cons]
      refine ⟨?_, h⟩
      rintro x (rfl | hx)
      · exact hlt
      · have := h.1 x hx; omega
    · split
      · next he =>
        simp only [addrsRising, Bool.and_eq_true, List.all_eq_true, decide_eq_true_eq]
        exact ⟨fun x hx => he ▸ h.1 x hx, h.2⟩
      · simp only [addrsRising, Bool.and_eq_true, List.all_eq_true, decide_eq_true_eq]
        refine ⟨fun x hx => ?_, ih h.2⟩
        rcases mem_regPut hx with rfl | hx
        · omega
        · exact h.1 x hx

/-- Putting a well-formed definition keeps WF(REGMAP) (40_register_model R148). -/
theorem regmapWf_regPut {d : RegDef} {m : RegMap} (hd : d.wf = true) (h : regmapWf m = true) :
    regmapWf (regPut d m) = true := by
  simp only [regmapWf, Bool.and_eq_true, List.all_eq_true] at h ⊢
  refine ⟨addrsRising_regPut d h.1, fun x hx => ?_⟩
  rcases mem_regPut hx with rfl | hx
  · exact hd
  · exact h.2 x hx

theorem RegDef.wf_of_regFind {m : RegMap} {a : Nat} {r : RegDef} (hm : regmapWf m = true)
    (h : regFind m a = some r) : r.wf = true := by
  simp only [regmapWf, Bool.and_eq_true, List.all_eq_true] at hm
  exact hm.2 r (regFind_mem h)

theorem FieldDef.wf_of_field? {r : RegDef} {n : String} {f : FieldDef} (hr : r.wf = true)
    (h : r.field? n = some f) : 1 ≤ f.w ∧ f.off + f.w ≤ 16 := by
  simp only [RegDef.wf, Bool.and_eq_true, List.all_eq_true] at hr
  simpa [FieldDef.wf] using hr.1.2 f (List.mem_of_find?_eq_some h)

theorem RegDef.field?_name {r : RegDef} {n : String} {f : FieldDef} (h : r.field? n = some f) : f.name = n := by
  simpa using List.find?_some h

/-! ### Outstanding requests -/

@[simp] theorem pendingFind_nil (c : Nat) : pendingFind [] c = none := rfl

theorem pendingFind_cons (e : Nat × Instr) (l : List (Nat × Instr)) (c : Nat) :
    pendingFind (e :: l) c = if e.1 = c then some e.2 else pendingFind l c := by
  by_cases h : e.1 = c <;> simp [pendingFind, h]

@[simp] theorem pendingFind_pendingPut_self (c : Nat) (req : Instr) (l : List (Nat × Instr)) :
    pendingFind (pendingPut c req l) c = some req := by
  induction l with
  | nil => simp [pendingPut, pendingFind_cons]
  | cons e l ih =>
    unfold pendingPut
    split
    · simp [pendingFind_cons]
    · split
      · simp [pendingFind_cons]
      · rw [pendingFind_cons, if_neg (by omega), ih]

theorem pendingFind_pendingPut_ne {c d : Nat} (req : Instr) (l : List (Nat × Instr)) (h : d ≠ c) :
    pendingFind (pendingPut c req l) d = pendingFind l d := by
  induction l with
  | nil => simp [pendingPut, pendingFind_cons, Ne.symm h]
  | cons e l ih =>
    unfold pendingPut
    split
    · simp [pendingFind_cons, Ne.symm h]
    · split
      · next he => simp [pendingFind_cons, ← he, Ne.symm h]
      · rw [pendingFind_cons, pendingFind_cons, ih]

@[simp] theorem pendingFind_pendingErase_self (c : Nat) (l : List (Nat × Instr)) :
    pendingFind (pendingErase c l) c = none := by
  induction l with
  | nil => rfl
  | cons e l ih =>
    by_cases h : e.1 = c
    · simpa [pendingErase, h] using ih
    · simpa [pendingErase, h, pendingFind_cons] using ih

theorem pendingFind_pendingErase_ne {c d : Nat} (l : List (Nat × Instr)) (h : d ≠ c) :
    pendingFind (pendingErase c l) d = pendingFind l d := by
  induction l with
  | nil => rfl
  | cons e l ih =>
    by_cases hc : e.1 = c
    · have : ¬ e.1 = d := fun he => h (he ▸ hc)
      simpa [pendingErase, hc, pendingFind_cons, this, Ne.symm h] using ih
    · by_cases hd : e.1 = d
      · simp [pendingErase, hd, pendingFind_cons, h]
      · simpa [pendingErase, hc, hd, pendingFind_cons] using ih

/-- A caller's request put and answered again leaves the list as it was. -/
theorem pendingErase_pendingPut {c : Nat} {req : Instr} {l : List (Nat × Instr)} (h : pendingFind l c = none) :
    pendingErase c (pendingPut c req l) = l := by
  induction l with
  | nil => simp [pendingPut, pendingErase]
  | cons e l ih =>
    rw [pendingFind_cons] at h
    split at h
    · simp at h
    · next hne =>
      have hl : pendingErase c l = l := by
        have key : ∀ l' : List (Nat × Instr), pendingFind l' c = none → pendingErase c l' = l' := by
          intro l'
          induction l' with
          | nil => intro _; rfl
          | cons e' l' ih' =>
            intro h'
            rw [pendingFind_cons] at h'
            split at h'
            · simp at h'
            · next hn => simpa [pendingErase, hn] using ih' h'
        exact key l h
      unfold pendingPut
      split
      · simpa [pendingErase, hne] using hl
      · split
        · next he => exact absurd he.symm hne
        · simpa [pendingErase, hne] using ih h

/-! ### The shapes of a request step -/

/-- Everything `answer` can do (42_frame_engine R228). -/
theorem State.answer_cases (s : State) (c : Nat) (req : Instr) (r : Except Error (Value × State)) :
    (s.isWaiting c = true ∧ s.answer c req r = .refused .callerStillWaiting) ∨
    (s.isWaiting c = false ∧ ∃ v s', r = .ok (v, s') ∧ s.answer c req r = .next (s'.afterOk c req v)) ∨
    (s.isWaiting c = false ∧ ∃ e, r = .error e ∧ s.answer c req r = .next (s.afterError c e)) := by
  unfold State.answer
  cases hw : s.isWaiting c
  · rcases r with e | ⟨v, s'⟩
    · exact .inr (.inr ⟨rfl, e, rfl, rfl⟩)
    · refine .inr (.inl ⟨rfl, v, s', rfl, ?_⟩)
      simp [State.afterOk, State.withEvents, State.respond, State.record]
  · exact .inl ⟨rfl, rfl⟩

/-- Everything `startJob` can do (42_frame_engine R228). -/
theorem State.startJob_cases (s : State) (c : Nat) (req : Instr) (r : Except Error (Job × Transaction)) :
    (s.isWaiting c = true ∧ s.startJob c req r = .refused .callerStillWaiting) ∨
    (s.isWaiting c = false ∧ ∃ j t, r = .ok (j, t) ∧ s.startJob c req r = .next (s.accept c req j t)) ∨
    (s.isWaiting c = false ∧ ∃ e, r = .error e ∧ s.startJob c req r = .next (s.afterError c e)) := by
  unfold State.startJob
  cases hw : s.isWaiting c
  · rcases r with e | ⟨j, t⟩
    · exact .inr (.inr ⟨rfl, e, rfl, rfl⟩)
    · exact .inr (.inl ⟨rfl, j, t, rfl, rfl⟩)
  · exact .inl ⟨rfl, rfl⟩

/-- Everything `answerView` can do. -/
theorem State.answerView_cases (s : State) (c : Nat) (req : Instr) (v : FieldView) (f : RegDef → Except Error Value) :
    (s.isWaiting c = true ∧ s.answerView c req v f = .refused .callerStillWaiting) ∨
    (s.isWaiting c = false ∧ regFind s.regmap v.addr = none ∧ s.answerView c req v f = .next s.refuse) ∨
    (s.isWaiting c = false ∧ ∃ r x, regFind s.regmap v.addr = some r ∧ f r = .ok x ∧
      s.answerView c req v f = .next (s.afterOk c req x)) ∨
    (s.isWaiting c = false ∧ ∃ r e, regFind s.regmap v.addr = some r ∧ f r = .error e ∧
      s.answerView c req v f = .next (s.afterError c e)) := by
  unfold State.answerView
  cases hr : regFind s.regmap v.addr with
  | none => cases hw : s.isWaiting c <;> simp
  | some r =>
    rcases s.answer_cases c req ((f r).map fun x => (x, s)) with ⟨hw, h⟩ | ⟨hw, x, s', hx, h⟩ | ⟨hw, e, he, h⟩
    · exact .inl ⟨hw, h⟩
    · cases hf : f r with
      | error e => simp [hf, Except.map] at hx
      | ok y =>
        simp only [hf, Except.map, Except.ok.injEq, Prod.mk.injEq] at hx
        obtain ⟨rfl, rfl⟩ := hx
        exact .inr (.inr (.inl ⟨hw, r, y, rfl, hf, h⟩))
    · cases hf : f r with
      | ok y => simp [hf, Except.map] at he
      | error e' =>
        simp only [hf, Except.map, Except.error.injEq] at he
        subst he
        exact .inr (.inr (.inr ⟨hw, r, e', rfl, hf, h⟩))

/-! ### Transport actions -/

theorem State.performAll_append (s : State) (d : SampleDest) (l l' : List Action) :
    s.performAll d (l ++ l') = (s.performAll d l).performAll d l' := by
  induction l generalizing s with
  | nil => rfl
  | cons a l ih => exact ih _

theorem eventsFrom_append (k : Nat) (l l' : List Action) :
    eventsFrom k (l ++ l') = eventsFrom k l ++ eventsFrom (k + l.countP Action.isSample) l' := by
  induction l generalizing k with
  | nil => rfl
  | cons a l ih =>
    cases a <;> simp [eventsFrom, ih, List.countP_cons, Action.isSample]
    congr 1; omega

/-- The frame of one transport action: what it leaves alone. -/
theorem State.performTo_frame (s : State) (d : SampleDest) (a : Action) :
    s.performTo d a =
      { s with lines := (s.performTo d a).lines, rdata := (s.performTo d a).rdata, ta := (s.performTo d a).ta,
               trace := (s.performTo d a).trace, draws := (s.performTo d a).draws } := by
  cases a with
  | drive w => rfl
  | delay => rfl
  | sample =>
    cases d with
    | rdata => rfl
    | discard => rfl
    | ta => simp only [State.performTo, State.sampleTo, State.takeBit, State.latchTa]; split <;> rfl

/-- Everything a list of transport actions leaves alone, and the record it makes (42_frame_engine R231). -/
theorem State.performAll_frame (s : State) (d : SampleDest) (l : List Action) :
    s.performAll d l =
      { s with lines := (s.performAll d l).lines, rdata := (s.performAll d l).rdata, ta := (s.performAll d l).ta,
               trace := s.trace ++ eventsFrom s.draws l, draws := s.draws + l.countP Action.isSample } := by
  induction l generalizing s with
  | nil => simp [State.performAll, eventsFrom]
  | cons a l ih =>
    rw [State.performAll, ih, State.performTo_frame]
    cases a <;> simp [State.performTo, eventsFrom, List.countP_cons, Action.isSample]
    omega

/-! ### The checks -/

section checks
variable {α : Type} (x : Except Error α)

@[simp] theorem checkArg_of_le {arg : String} {v max : Nat} (h : v ≤ max) : checkArg arg v max x = x := by
  simp [checkArg, Nat.not_lt.mpr h]

theorem checkArg_of_gt {arg : String} {v max : Nat} (h : max < v) :
    checkArg arg v max x = .error (.argumentOutOfRange arg v) := by
  simp [checkArg, h]

theorem checkAddr_of_le {a : Nat} (h : a ≤ 63) : checkAddr a x = x := by
  simp [checkAddr, Config.maxRegAddr, Nat.not_lt.mpr h]

theorem checkAddr_of_gt {a : Nat} (h : 63 < a) : checkAddr a x = .error (.addressOutOfRange a) := by
  simp [checkAddr, Config.maxRegAddr, h]

theorem withReg_some {m : RegMap} {a : Nat} {r : RegDef} (f : RegDef → Except Error α) (h : regFind m a = some r) :
    withReg m a f = f r := by simp [withReg, h]

theorem withReg_none {m : RegMap} {a : Nat} (f : RegDef → Except Error α) (h : regFind m a = none) :
    withReg m a f = .error (.unknownRegister a) := by simp [withReg, h]

end checks

/-- A choice is one of the candidates. -/
theorem choose_mem {α : Type} {k : Nat} {l : List α} {a : α} (h : choose k l = some a) : a ∈ l := by
  match l, h with
  | [b], h => simp [choose] at h; simp [h]
  | b :: c :: l, h => exact List.mem_of_getElem? h

/-- Any candidate can be the choice (93 I16). -/
theorem choose_of_mem {α : Type} {l : List α} {a : α} (h : a ∈ l) : ∃ k, choose k l = some a := by
  obtain ⟨k, hk, rfl⟩ := List.getElem_of_mem h
  match l, hk with
  | [b], hk => exact ⟨0, by obtain rfl : k = 0 := by simpa using hk
                            rfl⟩
  | b :: c :: l, hk =>
    refine ⟨k, ?_⟩
    have hm : k % (l.length + 2) = k := Nat.mod_eq_of_lt hk
    rw [choose, hm]
    exact List.getElem?_eq_getElem hk

/-- There is a choice unless there is no candidate. -/
theorem choose_eq_none {α : Type} {k : Nat} {l : List α} : choose k l = none ↔ l = [] := by
  match l with
  | [] => simp [choose]
  | [b] => simp [choose]
  | b :: c :: l =>
    have : k % (l.length + 2) < (b :: c :: l).length := Nat.mod_lt _ (by omega)
    simp only [choose, reduceCtorEq, iff_false, List.getElem?_eq_none_iff]
    omega

/-! ### Who moves -/

/-- Requests of one caller, or of the hook, are ready together. -/
theorem State.ready_of_sameCaller (s : State) {a b : Input} (h : sameCaller a b = true) : s.ready a = s.ready b := by
  cases a <;> cases b <;> simp only [sameCaller, Bool.and_eq_true, beq_iff_eq, Bool.false_eq_true] at h <;>
    simp only [State.ready, h.2]

/-- They name the same caller. -/
theorem inputCaller_of_sameCaller {a b : Input} (h : sameCaller a b = true) :
    (inputCaller a).isSome = true ∧ inputCaller a = inputCaller b := by
  cases a <;> cases b <;> simp only [sameCaller, Bool.and_eq_true, beq_iff_eq, Bool.false_eq_true] at h <;> exact h

theorem mem_inputMoves {s : State} {pre l : List Input} {m : Move} :
    m ∈ inputMoves s pre l ↔ ∃ before inp after, l = before ++ inp :: after ∧
      m = .input inp (pre ++ before ++ after) ∧ s.ready inp = true ∧
      ∀ b ∈ pre ++ before, sameCaller inp b = false := by
  induction l generalizing pre with
  | nil => simp [inputMoves]
  | cons x l ih =>
    rw [inputMoves, List.mem_append, ih]
    constructor
    · rintro (h | ⟨before, inp, after, rfl, rfl, hr, hb⟩)
      · split at h
        · next hc =>
          simp only [Bool.and_eq_true, Bool.not_eq_true', List.any_eq_false, Bool.not_eq_true] at hc
          rw [List.mem_singleton] at h
          exact ⟨[], x, l, rfl, by simpa using h, hc.1, by simpa using hc.2⟩
        · simp at h
      · exact ⟨x :: before, inp, after, rfl, by simp, hr, by simpa using hb⟩
    · rintro ⟨before, inp, after, hl, rfl, hr, hb⟩
      match before, hl with
      | [], hl =>
        simp only [List.nil_append, List.cons.injEq] at hl
        obtain ⟨rfl, rfl⟩ := hl
        refine .inl ?_
        rw [if_pos]
        · simp
        · simp only [Bool.and_eq_true, Bool.not_eq_true', List.any_eq_false, Bool.not_eq_true]
          exact ⟨hr, by simpa using hb⟩
      | y :: before, hl =>
        simp only [List.cons_append, List.cons.injEq] at hl
        obtain ⟨rfl, rfl⟩ := hl
        exact .inr ⟨before, inp, after, rfl, by simp, hr, by simpa using hb⟩

/-- Which inputs can move: one that is ready, with no record of the same caller before it. -/
theorem State.input_mem_moves {s : State} {inp : Input} {rest : List Input} :
    .input inp rest ∈ s.moves ↔ ∃ before after, s.inbox = before ++ inp :: after ∧ rest = before ++ after ∧
      s.ready inp = true ∧ ∀ b ∈ before, sameCaller inp b = false := by
  unfold State.moves
  rw [List.mem_append, mem_inputMoves]
  constructor
  · rintro (h | ⟨before, inp', after, hl, he, hr, hb⟩)
    · split at h <;> simp at h
    · obtain ⟨rfl, rfl⟩ := Move.input.inj he
      exact ⟨before, after, hl, by simp, hr, by simpa using hb⟩
  · rintro ⟨before, after, hl, rfl, hr, hb⟩
    exact .inr ⟨before, inp, after, hl, by simp, hr, by simpa using hb⟩

/-- The framer can move exactly while it holds a job (00_scope R8) and no hook call keeps it (70 R352). -/
@[simp] theorem State.framer_mem_moves {s : State} : .framer ∈ s.moves ↔ s.busy = true ∧ s.hookWaits = false := by
  unfold State.moves State.framerFree
  rw [List.mem_append, mem_inputMoves]
  cases s.busy <;> cases s.hookWaits <;> simp

/-- The moves do not depend on the turn or the draw counter. -/
theorem State.moves_with (s : State) (k d : Nat) : ({ s with turn := k, draws := d } : State).moves = s.moves := by
  have h : ∀ (l pre : List Input), inputMoves { s with turn := k, draws := d } pre l = inputMoves s pre l := by
    intro l
    induction l with
    | nil => intro _; rfl
    | cons x l ih => intro pre; simp only [inputMoves, ih]; rfl
  simp only [State.moves, h]
  rfl

/-- The move made is one of those that can be made. -/
theorem State.mover_mem {s : State} {m : Move} (h : s.mover = some m) : m ∈ s.moves := choose_mem h

/-- Each of them is made for some turn (93 I16). -/
theorem State.mover_of_mem {s : State} {m : Move} (h : m ∈ s.moves) :
    ∃ k, ({ s with turn := k } : State).mover = some m := by
  obtain ⟨k, hk⟩ := choose_of_mem h
  exact ⟨k, by rw [State.mover, s.moves_with k s.draws]; exact hk⟩

/-- Nothing can move exactly when the framer cannot and no input is ready. -/
theorem State.mover_none {s : State} :
    s.mover = none ↔ (s.busy = false ∨ s.hookWaits = true) ∧ ∀ inp ∈ s.inbox, s.ready inp = false := by
  have none_of : (∀ inp ∈ s.inbox, s.ready inp = false) ↔ inputMoves s [] s.inbox = [] := by
    constructor
    · intro h
      rw [List.eq_nil_iff_forall_not_mem]
      intro m hm
      obtain ⟨before, inp, after, hl, _, hr, _⟩ := mem_inputMoves.1 hm
      have := h inp (by simp [hl])
      simp [this] at hr
    · intro h inp hi
      by_contra hr
      rw [Bool.not_eq_false] at hr
      obtain ⟨before, after, hl⟩ := List.append_of_mem hi
      -- the first ready input can move
      have first : ∀ (l pre : List Input), (∀ b ∈ pre, s.ready b = false) → (∃ x ∈ l, s.ready x = true) →
          inputMoves s pre l ≠ [] := by
        intro l
        induction l with
        | nil => intro _ _ h; simp at h
        | cons x l ih =>
          intro pre hp hx
          by_cases hxr : s.ready x = true
          · have : pre.any (sameCaller x) = false := by
              rw [List.any_eq_false]
              intro b hb hs
              rw [s.ready_of_sameCaller hs, hp b hb] at hxr
              simp at hxr
            simp [inputMoves, hxr, this]
          · have hx' : ∃ y ∈ l, s.ready y = true := by
              obtain ⟨y, hy, hyr⟩ := hx
              rcases List.mem_cons.1 hy with rfl | hy
              · exact absurd hyr hxr
              · exact ⟨y, hy, hyr⟩
            refine fun he => ih (pre ++ [x]) ?_ hx' (List.append_eq_nil_iff.1 he).2
            intro b hb
            rcases List.mem_append.1 hb with hb | hb
            · exact hp b hb
            · rw [List.mem_singleton] at hb
              subst hb
              simpa using hxr
      exact first s.inbox [] (by simp) ⟨inp, hi, hr⟩ h
  rw [State.mover, choose_eq_none, State.moves, List.append_eq_nil_iff, none_of, State.framerFree]
  cases s.busy <;> cases s.hookWaits <;> simp

/-- Everything a step can do (00_scope R8, 42_frame_engine R228). -/
theorem step_cases (s : State) :
    (s.mover = none ∧ step s = .next s) ∨
    (s.mover = some .framer ∧ s.busy = true ∧ s.hookWaits = false ∧ step s = framerStep s.settleTurn) ∨
    (∃ inp rest, s.mover = some (.input inp rest) ∧ s.ready inp = true ∧
      step s = takeInput inp { s.settleTurn with inbox := rest }) := by
  unfold step schedule
  match h : s.mover with
  | none => exact .inl ⟨rfl, rfl⟩
  | some .framer => 
    obtain ⟨hb, hw⟩ := State.framer_mem_moves.1 (State.mover_mem h)
    exact .inr (.inl ⟨rfl, hb, hw, rfl⟩)
  | some (.input inp rest) =>
    obtain ⟨_, _, _, _, hr, _⟩ := State.input_mem_moves.1 (State.mover_mem h)
    exact .inr (.inr ⟨inp, rest, rfl, hr, rfl⟩)

end Sys2Proof.Machine
end

