-- ==== Sys2Proof/Laws/Pack.lean ====
section
/-!
SUPPORT. What PACK accepts and which bits its word has (40_register_model R153 to R156).
-/

namespace Sys2Proof.Machine

open Sys2Proof.Config

/-- A bit of a natural's low 16 bits. -/
theorem getLsbD_ofNat16 (n p : Nat) (hp : p < 16) : (BitVec.ofNat 16 n).getLsbD p = n.testBit p := by rw [BitVec.getLsbD_ofNat]; simp [hp]

/-- The check that PACK makes of two entries is the spec's condition (40_register_model R154, R156). -/
theorem entriesConflict_iff {r : RegDef} {e1 e2 : String × Nat} : entriesConflict r e1 e2 = true ↔ Conflicting r e1 e2 := by
  unfold entriesConflict Conflicting
  cases h1 : r.field? e1.1 <;> cases h2 : r.field? e2.1 <;> simp
  rename_i f1 f2
  constructor
  · rintro ⟨i, hi, hc, hn⟩
    refine ⟨f1.off + i, ?_, hc, ?_⟩
    · simp [FieldDef.covers]; omega
    · simp [FieldDef.covers] at hc
      simp [hc.1]; simpa using hn
  · rintro ⟨p, hc1, hc2, hn⟩
    simp [FieldDef.covers] at hc1
    refine ⟨p - f1.off, by omega, ?_, ?_⟩
    · rw [show f1.off + (p - f1.off) = p by omega]; exact hc2
    · simp [FieldDef.covers] at hc2
      rw [show f1.off + (p - f1.off) - f2.off = p - f2.off by omega]
      simpa [hc1.1, hc2.1] using hn

theorem conflicting_symm {r : RegDef} {e1 e2 : String × Nat} (h : Conflicting r e1 e2) : Conflicting r e2 e1 := by
  obtain ⟨f1, f2, p, a, b, c, d, e⟩ := h; exact ⟨f2, f1, p, b, a, d, c, e.symm⟩

theorem not_conflicting_self {r : RegDef} {e : String × Nat} : ¬ Conflicting r e e := by
  rintro ⟨f1, f2, p, a, b, c, d, e⟩; simp [a] at b; subst b; exact e rfl

/-- A reported pair conflicts. -/
theorem conflictPairs_mem {r : RegDef} {F : FieldMap} {n1 n2 : String} (h : (n1, n2) ∈ conflictPairs r F) :
    ∃ e1 ∈ F, ∃ e2 ∈ F, Conflicting r e1 e2 ∧ e1.1 = n1 ∧ e2.1 = n2 := by
  induction F with
  | nil => simp [conflictPairs] at h
  | cons e F ih =>
    simp only [conflictPairs, List.mem_append, List.mem_map, List.mem_filter, Prod.mk.injEq] at h
    rcases h with ⟨e', ⟨hm, hc⟩, h1, h2⟩ | h
    · exact ⟨e, by simp, e', by simp [hm], entriesConflict_iff.1 hc, h1, h2⟩
    · obtain ⟨e1, m1, e2, m2, hh⟩ := ih h
      exact ⟨e1, by simp [m1], e2, by simp [m2], hh⟩

/-- No pair is reported exactly where no two entries conflict. -/
theorem conflictPairs_eq_nil {r : RegDef} {F : FieldMap} : conflictPairs r F = [] ↔ ∀ e1 ∈ F, ∀ e2 ∈ F, ¬ Conflicting r e1 e2 := by
  induction F with
  | nil => simp [conflictPairs]
  | cons e F ih =>
    simp only [conflictPairs, List.append_eq_nil_iff, List.map_eq_nil_iff, List.filter_eq_nil_iff, ih, entriesConflict_iff, List.mem_cons, forall_eq_or_imp]
    constructor
    · rintro ⟨h1, h2⟩
      exact ⟨⟨not_conflicting_self, h1⟩, fun a ha => ⟨fun h => h1 a ha (conflicting_symm h), h2 a ha⟩⟩
    · rintro ⟨⟨_, h1⟩, h2⟩
      exact ⟨h1, fun a ha => (h2 a ha).2⟩

theorem unknownNames_eq_nil {r : RegDef} {F : FieldMap} : unknownNames r F = [] ↔ ∀ e ∈ F, r.field? e.1 ≠ none := by
  simp [unknownNames]

theorem overfullEntries_eq_nil {r : RegDef} {F : FieldMap} : overfullEntries r F = [] ↔ ∀ e ∈ F, ∀ f, r.field? e.1 = some f → e.2 < 2 ^ f.w := by
  simp only [overfullEntries, List.filter_eq_nil_iff]
  refine forall₂_congr fun e he => ?_
  cases r.field? e.1 <;> simp

/-- All that is known when PACK accepts a field map. -/
theorem packFields_ok {mode k a r F x w} (h : packFields mode k a r F x = .ok w) :
    (∀ e ∈ F, r.field? e.1 ≠ none) ∧ (∀ e ∈ F, ∀ f, r.field? e.1 = some f → e.2 < 2 ^ f.w) ∧
    (∀ e1 ∈ F, ∀ e2 ∈ F, ¬ Conflicting r e1 e2) ∧ w = mergeAll mode r F x := by
  unfold packFields at h
  split at h
  · simp at h
  · next h1 =>
    split at h
    · simp at h
    · next h2 =>
      split at h
      · simp at h
      · next h3 =>
        simp at h
        exact ⟨unknownNames_eq_nil.1 (choose_eq_none.1 h1), overfullEntries_eq_nil.1 (choose_eq_none.1 h2), conflictPairs_eq_nil.1 (choose_eq_none.1 h3), h.symm⟩

/-- PACK accepts what passes its three checks. -/
theorem packFields_eq_ok {mode k a r F x} (h1 : ∀ e ∈ F, r.field? e.1 ≠ none) (h2 : ∀ e ∈ F, ∀ f, r.field? e.1 = some f → e.2 < 2 ^ f.w)
    (h3 : ∀ e1 ∈ F, ∀ e2 ∈ F, ¬ Conflicting r e1 e2) : packFields mode k a r F x = .ok (mergeAll mode r F x) := by
  unfold packFields
  rw [choose_eq_none.2 (unknownNames_eq_nil.2 h1), choose_eq_none.2 (overfullEntries_eq_nil.2 h2), choose_eq_none.2 (conflictPairs_eq_nil.2 h3)]

theorem packWord_ok {mode k m a F b w} (h : packWord mode k m a F b = .ok w) :
    a ≤ 63 ∧ b ≤ 0xFFFF ∧ ∃ r, regFind m a = some r ∧ packFields mode k a r F (BitVec.ofNat 16 b) = .ok w := by
  unfold packWord checkAddr checkArg withReg maxRegAddr at h
  split at h; · simp at h
  split at h; · simp at h
  split at h
  · next r hr => exact ⟨by omega, by omega, r, hr, h⟩
  · simp at h

theorem packWord_eq_packFields {mode k m a F b r} (h1 : a ≤ 63) (h2 : b ≤ 0xFFFF) (h3 : regFind m a = some r) :
   packWord mode k m a F b = packFields mode k a r F (BitVec.ofNat 16 b) := by
  simp [packWord, checkAddr_of_le _ h1, h2, withReg_some _ h3]

/-- The bits of a field's mask are those the field covers. -/
theorem fmask_getLsbD (f : FieldDef) (p : Nat) (hp : p < 16) : (fmask f).getLsbD p = f.covers p := by
  rw [fmask, getLsbD_ofNat16 _ _ hp, mask, Nat.testBit_shiftLeft, Nat.testBit_two_pow_sub_one, Bool.eq_iff_iff]
  simp [FieldDef.covers]; omega

/-- The bits of a value at its field's place. -/
theorem shiftLeft_getLsbD (f : FieldDef) (v p : Nat) (hp : p < 16) (hv : v < 2 ^ f.w) :
    (BitVec.ofNat 16 (v <<< f.off)).getLsbD p = (f.covers p && v.testBit (p - f.off)) := by
  rw [getLsbD_ofNat16 _ _ hp, Nat.testBit_shiftLeft]
  unfold FieldDef.covers
  by_cases h : f.off ≤ p <;> simp [h]
  intro ht
  by_contra hcon
  have : v < 2 ^ (p - f.off) := lt_of_lt_of_le hv (Nat.pow_le_pow_right (by omega) (by omega))
  rw [Nat.testBit_lt_two_pow this] at ht; simp at ht

/-- A bit after one merge, under either PACK_MERGE (40_register_model R155). -/
theorem mergeField_getLsbD (mode : PackMerge) (f : FieldDef) (x : Word) (v p : Nat) (hp : p < 16) (hv : v < 2 ^ f.w) :
    (mergeField mode f x v).getLsbD p = if f.covers p then (v.testBit (p - f.off) || (x.getLsbD p && mode == .orIn)) else x.getLsbD p := by
  cases mode
  · simp only [mergeField, fput, BitVec.getLsbD_or, BitVec.getLsbD_and, BitVec.getLsbD_not, fmask_getLsbD f p hp, shiftLeft_getLsbD f v p hp hv, hp]
    cases f.covers p <;> simp
  · simp only [mergeField, BitVec.getLsbD_or, shiftLeft_getLsbD f v p hp hv]
    cases f.covers p <;> simp [Bool.or_comm]

/-- A bit that no entry covers keeps its value. -/
theorem mergeAll_uncovered (mode) (r : RegDef) (F : FieldMap) (x : Word) (p : Nat) (hp : p < 16)
    (h2 : ∀ e ∈ F, ∀ f, r.field? e.1 = some f → e.2 < 2 ^ f.w) (h : ¬ CoveredBy r F p) : (mergeAll mode r F x).getLsbD p = x.getLsbD p := by
  induction F generalizing x with
  | nil => rfl
  | cons e F ih =>
    have hF : ¬ CoveredBy r F p := fun ⟨e', he', hh⟩ => h ⟨e', by simp [he'], hh⟩
    have h2' : ∀ e ∈ F, ∀ f, r.field? e.1 = some f → e.2 < 2 ^ f.w := fun e he => h2 e (by simp [he])
    unfold mergeAll
    split
    · next f hf =>
      rw [ih _ h2' hF, mergeField_getLsbD _ _ _ _ _ hp (h2 e (by simp) f hf), if_neg]
      intro hc; exact h ⟨e, by simp, f, hf, hc⟩
    · exact ih _ h2' hF

/-- A bit that an entry covers takes that entry's value. -/
theorem mergeAll_covered (mode) (r : RegDef) (F : FieldMap) (x : Word) (p : Nat) (hp : p < 16)
    (h2 : ∀ e ∈ F, ∀ f, r.field? e.1 = some f → e.2 < 2 ^ f.w) (h3 : ∀ e1 ∈ F, ∀ e2 ∈ F, ¬ Conflicting r e1 e2)
    (e : String × Nat) (he : e ∈ F) (f : FieldDef) (hf : r.field? e.1 = some f) (hc : f.covers p = true) :
    (mergeAll mode r F x).getLsbD p = (e.2.testBit (p - f.off) || (x.getLsbD p && mode == .orIn)) := by
  induction F generalizing x e f with
  | nil => simp at he
  | cons e' F ih =>
    have h2' : ∀ e ∈ F, ∀ f, r.field? e.1 = some f → e.2 < 2 ^ f.w := fun e he => h2 e (by simp [he])
    have h3' : ∀ e1 ∈ F, ∀ e2 ∈ F, ¬ Conflicting r e1 e2 := fun a ha b hb => h3 a (by simp [ha]) b (by simp [hb])
    unfold mergeAll
    by_cases hF : CoveredBy r F p
    · obtain ⟨e2, he2, f2, hf2, hc2⟩ := hF
      have agree : e2.2.testBit (p - f2.off) = e.2.testBit (p - f.off) := by
        by_contra hne
        refine h3 e he e2 (by simp [he2]) ⟨f, f2, p, hf, hf2, hc, hc2, ?_⟩
        simp [FieldDef.covers] at hc hc2
        rw [Nat.testBit_shiftLeft, Nat.testBit_shiftLeft]; simp [hc.1, hc2.1]; exact fun h => hne h.symm
      split
      · next f' hf' =>
        rw [ih _ h2' h3' e2 he2 f2 hf2 hc2, mergeField_getLsbD _ _ _ _ _ hp (h2 e' (by simp) f' hf'), agree]
        split
        · next hc' =>
          have agree' : e'.2.testBit (p - f'.off) = e.2.testBit (p - f.off) := by
            by_contra hne
            refine h3 e he e' (by simp) ⟨f, f', p, hf, hf', hc, hc', ?_⟩
            simp [FieldDef.covers] at hc hc'
            rw [Nat.testBit_shiftLeft, Nat.testBit_shiftLeft]; simp [hc.1, hc'.1]; exact fun h => hne h.symm
          rw [agree']; cases e.2.testBit (p - f.off) <;> simp
        · rfl
      · rw [ih _ h2' h3' e2 he2 f2 hf2 hc2, agree]
    · have : e = e' := by
        rcases List.mem_cons.1 he with h | h
        · exact h
        · exact absurd ⟨e, h, f, hf, hc⟩ hF
      subst this
      simp only [hf]
      rw [mergeAll_uncovered _ _ _ _ _ hp h2' hF, mergeField_getLsbD _ _ _ _ _ hp (h2 e (by simp) f hf), if_pos hc]

/-- The merged word is the one with these bits. -/
theorem mergeAll_eq {mode r F x w} (h2 : ∀ e ∈ F, ∀ f, r.field? e.1 = some f → e.2 < 2 ^ f.w) (h3 : ∀ e1 ∈ F, ∀ e2 ∈ F, ¬ Conflicting r e1 e2)
   (hu : ∀ p < 16, ¬ CoveredBy r F p → w.getLsbD p = x.getLsbD p)
   (hc : ∀ p < 16, ∀ e ∈ F, ∀ f, r.field? e.1 = some f → f.covers p = true → w.getLsbD p = (e.2.testBit (p - f.off) || (x.getLsbD p && mode == .orIn))) : mergeAll mode r F x = w := by
  apply BitVec.eq_of_getLsbD_eq
  intro p hp
  by_cases h : CoveredBy r F p
  · obtain ⟨e, he, f, hf, hcv⟩ := h
    rw [mergeAll_covered _ _ _ _ _ hp h2 h3 e he f hf hcv, hc p hp e he f hf hcv]
  · rw [mergeAll_uncovered _ _ _ _ _ hp h2 h, hu p hp h]

end Sys2Proof.Machine
end

