-- ==== Sys2Proof/Laws/PerInstr.lean ====
section
/-!
SUPPORT. Per instruction: the first byte of its encoding holds the code of its row in the opcode table (30_encoding R103,
R108, R109; 41_bitbang R191).
-/

namespace Sys2Proof.Laws.FirstByte

/-- The first byte a row's words have: a request's selector, an action's code, a symbol's or a frame's first eight bits. -/
def firstByte : Instr → Byte
  | .cl22WriteFrame _ _ _ _ => 0xFF
  | .cl22ReadFrame _ _ _ => 0xFF
  | .invalid0 _ => 0x00
  | .defineRegister _ _ _ _ => 0x01
  | .defineField _ _ _ _ _ => 0x02
  | .freeze _ => 0x03
  | .lookup _ _ => 0x04
  | .pack _ _ _ _ => 0x05
  | .unpack _ _ _ => 0x06
  | .viewGet _ _ _ => 0x07
  | .viewFields _ _ => 0x08
  | .reverse _ _ _ => 0x09
  | .mdioWrite _ _ _ _ => 0x0A
  | .mdioRead _ _ _ => 0x0B
  | .readRegister _ _ _ => 0x0C
  | .writeRegister _ _ _ _ _ => 0x0D
  | .reset _ _ => 0x0E
  | .invalidF _ => 0x0F
  | .drive w => BitVec.ofNat 8 (0x28 + w.toNat)
  | .sample => 0x21
  | .delay => 0x20
  | .writeBit v e => BitVec.ofNat 8 (0x80 + 0x40 * v.toNat + 0x20 * e.toNat)
  | .readBit => 0x10
  | .release => 0x80
  | .relc => 0x80
  | .shiftOut _ _ _ => 0x30
  | .shiftIn => 0x31

/-- What the family says of an instruction. -/
def Statement (i : Instr) : Prop := (encode i).head? = some (firstByte i)

theorem cl22WriteFrame (c : Nat) (phy reg : Addr5) (data : Word) : Statement (.cl22WriteFrame c phy reg data) := by
  show some ((writeFrameWord phy reg data).extractLsb' 56 8) = some 0xFF#8
  congr 1
  apply BitVec.eq_of_getLsbD_eq
  intro i hi
  simp only [writeFrameWord, BitVec.getLsbD_append, BitVec.getLsbD_extractLsb']
  interval_cases i <;> simp
theorem cl22ReadFrame (c : Nat) (phy reg : Addr5) : Statement (.cl22ReadFrame c phy reg) := by
  show some ((readFrameWord phy reg).extractLsb' 56 8) = some 0xFF#8
  congr 1
  apply BitVec.eq_of_getLsbD_eq
  intro i hi
  simp only [readFrameWord, BitVec.getLsbD_append, BitVec.getLsbD_extractLsb']
  interval_cases i <;> simp
theorem invalid0 (c : Nat) : Statement (.invalid0 c) := rfl
theorem defineRegister (c addr : Nat) (width : Option Nat) (name : Option String) : Statement (.defineRegister c addr width name) := rfl
theorem defineField (c addr : Nat) (name : String) (off w : Nat) : Statement (.defineField c addr name off w) := rfl
theorem freeze (c : Nat) : Statement (.freeze c) := rfl
theorem lookup (c addr : Nat) : Statement (.lookup c addr) := rfl
theorem pack (c addr : Nat) (F : FieldMap) (base : Option Nat) : Statement (.pack c addr F base) := rfl
theorem unpack (c addr word : Nat) : Statement (.unpack c addr word) := rfl
theorem viewGet (c : Nat) (view : FieldView) (name : String) : Statement (.viewGet c view name) := rfl
theorem viewFields (c : Nat) (view : FieldView) : Statement (.viewFields c view) := rfl
theorem reverse (c v n : Nat) : Statement (.reverse c v n) := rfl
theorem mdioWrite (c phy reg data : Nat) : Statement (.mdioWrite c phy reg data) := rfl
theorem mdioRead (c phy reg : Nat) : Statement (.mdioRead c phy reg) := rfl
theorem readRegister (c phy addr : Nat) : Statement (.readRegister c phy addr) := rfl
theorem writeRegister (c phy addr : Nat) (F : FieldMap) (base : Option FieldView) : Statement (.writeRegister c phy addr F base) := rfl
theorem reset (c phy : Nat) : Statement (.reset c phy) := rfl
theorem invalidF (c : Nat) : Statement (.invalidF c) := rfl
theorem drive (w : DriveWord) : Statement (.drive w) := by
  unfold Statement encode firstByte
  revert w
  decide
theorem sample : Statement (.sample) := rfl
theorem delay : Statement (.delay) := rfl
theorem writeBit (v e : Bool) : Statement (.writeBit v e) := by
  cases v <;> cases e <;> rfl
theorem readBit : Statement (.readBit) := rfl
theorem release : Statement (.release) := rfl
theorem relc : Statement (.relc) := rfl
theorem shiftOut (v n : Nat) (e : Bool) : Statement (.shiftOut v n e) := rfl
theorem shiftIn : Statement (.shiftIn) := rfl

end Sys2Proof.Laws.FirstByte
end

