-- ==== Sys2Proof/Laws/Step.lean ====
section
/-!
SUPPORT. What an instruction can do, once for each kind of row: a request that uses the bus, a request that does not,
an invocation of the bit-bang layer. Cite these instead of unfolding `exec`.
-/

namespace Sys2Proof.Machine

open Sys2Proof.Config

/-! ### The shapes of a request step, in the terms of Safety.lean -/

theorem State.accept_eq_afterAccept (s : State) (c : Nat) (req : Instr) (j : Job) (t : Transaction) :
    s.accept c req j t = s.afterAccept c req j t := by
  cases t <;> rfl

theorem State.finish_eq_afterFinish (s : State) (c : Nat) (r : Result) : s.finish c r = s.afterFinish c r := by
  simp only [State.finish, State.afterFinish, State.goIdle, State.respond, State.record, State.clearBusy, pendingErase]
  congr 1
  apply List.filter_congr
  intro x _
  by_cases h : x.1 = c <;> simp [h]

theorem State.readResult_eq_resultOfRead (s : State) (v : Value) : s.readResult v = s.resultOfRead v := by
  unfold State.readResult State.resultOfRead State.noPhy
  cases s.params.checkTa <;> cases s.ta <;> simp

theorem State.startJob_error {s : State} {c : Nat} {req : Instr} {e : Error} (h : s.isWaiting c = false) :
    s.startJob c req (.error e) = .next (s.afterError c e) := by
  simp [State.startJob, h]; rfl

theorem State.startJob_ok {s : State} {c : Nat} {req : Instr} {j : Job} {t : Transaction} (h : s.isWaiting c = false) :
    s.startJob c req (.ok (j, t)) = .next (s.afterAccept c req j t) := by
  simp [State.startJob, h, State.accept_eq_afterAccept]

theorem State.answer_error {s : State} {c : Nat} {req : Instr} {e : Error} (h : s.isWaiting c = false) :
    s.answer c req (.error e) = .next (s.afterError c e) := by
  simp [State.answer, h]; rfl

theorem State.answer_ok {s s' : State} {c : Nat} {req : Instr} {v : Value} (h : s.isWaiting c = false) :
    s.answer c req (.ok (v, s')) = .next (s'.afterOk c req v) := by
  simp [State.answer, h, State.afterOk, State.withEvents, State.respond, State.record]

/-! ### A check that has passed -/

section passed
variable {α : Type} {next : Except Error α} {x : α}

theorem checkArg_ok {arg : String} {v max : Nat} (h : checkArg arg v max next = .ok x) : v ≤ max ∧ next = .ok x := by
  unfold checkArg at h
  split at h
  · simp at h
  · exact ⟨by omega, h⟩

theorem checkAddr_ok {a : Nat} (h : checkAddr a next = .ok x) : a ≤ 63 ∧ next = .ok x := by
  unfold checkAddr at h
  split at h
  · simp at h
  · next hn => exact ⟨by simpa [maxRegAddr] using hn, h⟩

theorem checkBank_ok {ext : ExtAccess} {a : Nat} (h : checkBank ext a next = .ok x) :
    (ext = .refuse → isExtended a = false) ∧ next = .ok x := by
  unfold checkBank at h
  split at h
  · split at h
    · simp at h
    · next hn => exact ⟨fun _ => by simpa using hn, h⟩
  · exact ⟨fun he => by simp at he, h⟩

theorem needFrozen_ok {s : State} (h : s.needFrozen next = .ok x) : s.frozen = true ∧ next = .ok x := by
  unfold State.needFrozen at h
  split at h
  · next hf => exact ⟨hf, h⟩
  · simp at h

theorem needUnfrozen_ok {s : State} (h : s.needUnfrozen next = .ok x) : s.frozen = false ∧ next = .ok x := by
  unfold State.needUnfrozen at h
  split at h
  · simp at h
  · next hf => exact ⟨by simpa using hf, h⟩

theorem needIdle_ok {s : State} (h : s.needIdle next = .ok x) : s.busy = false ∧ next = .ok x := by
  unfold State.needIdle at h
  split at h
  · simp at h
  · next hf => exact ⟨by simpa using hf, h⟩

theorem checkBaseView_ok {a : Nat} {base : Option FieldView} (h : checkBaseView a base next = .ok x) :
    (∀ v, base = some v → v.addr = a) ∧ next = .ok x := by
  unfold checkBaseView at h
  split at h
  · split at h
    · simp at h
    · next v hv => exact ⟨fun v' hv' => by simp_all, h⟩
  · exact ⟨fun v hv => by simp at hv, h⟩

theorem withReg_ok {m : RegMap} {a : Nat} {f : RegDef → Except Error α} (h : withReg m a f = .ok x) :
    ∃ r, regFind m a = some r ∧ f r = .ok x := by
  unfold withReg at h
  split at h
  · next r hr => exact ⟨r, hr, h⟩
  · simp at h

theorem withField_ok {a : Nat} {r : RegDef} {n : String} {f : FieldDef → Except Error α}
    (h : withField a r n f = .ok x) : ∃ d, r.field? n = some d ∧ f d = .ok x := by
  unfold withField at h
  split at h
  · next d hd => exact ⟨d, hd, h⟩
  · simp at h

end passed

/-- What is known when a bus-using request's checks have passed: the flags, the direction of its frame, and for RESET
the reset field (42_frame_engine R226, R227; 43_client R272, R273, R280). -/
def Startable (s : State) (j : Job) (t : Transaction) : Prop :=
  s.frozen = true ∧ s.busy = false ∧ (∀ d, j.dir = some d → t.dir = d) ∧
  ∀ phy, j = .resetRead phy → ∃ r f, regFind s.regmap ctrlRegAddr = some r ∧ r.field? resetField = some f

theorem phyWrite_ok {s : State} {phy reg data : Nat} {j : Job} {t : Transaction}
    (h : phyWrite s phy reg data = .ok (j, t)) : Startable s j t := by
  obtain ⟨hf, h⟩ := needFrozen_ok h
  obtain ⟨_, h⟩ := checkArg_ok h
  obtain ⟨_, h⟩ := checkArg_ok h
  obtain ⟨_, h⟩ := checkArg_ok h
  obtain ⟨hb, h⟩ := needIdle_ok h
  simp only [Except.ok.injEq, Prod.mk.injEq] at h
  obtain ⟨rfl, rfl⟩ := h
  exact ⟨hf, hb, fun _ h => by cases h; rfl, fun _ h => nomatch h⟩

theorem phyRead_ok {s : State} {phy reg : Nat} {j : Job} {t : Transaction}
    (h : phyRead s phy reg = .ok (j, t)) : Startable s j t := by
  obtain ⟨hf, h⟩ := needFrozen_ok h
  obtain ⟨_, h⟩ := checkArg_ok h
  obtain ⟨_, h⟩ := checkArg_ok h
  obtain ⟨hb, h⟩ := needIdle_ok h
  simp only [Except.ok.injEq, Prod.mk.injEq] at h
  obtain ⟨rfl, rfl⟩ := h
  exact ⟨hf, hb, fun _ h => by cases h; rfl, fun _ h => nomatch h⟩

theorem readPlan_startable {s : State} (phy a : Nat) (hf : s.frozen = true) (hb : s.busy = false) :
    Startable s (readPlan phy a).1 (readPlan phy a).2 := by
  unfold readPlan
  split
  · simp [Startable, Job.dir, hf, hb]
  · simp [Startable, Job.dir, Transaction.dir, hf, hb]

theorem writePlan_startable {s : State} (phy a : Nat) (F : FieldMap) (base : Option FieldView) (w : Word)
    (hf : s.frozen = true) (hb : s.busy = false) :
    Startable s (writePlan phy a F base w).1 (writePlan phy a F base w).2 := by
  unfold writePlan
  split
  · simp [Startable, Job.dir, hf, hb]
  · simp [Startable, Job.dir, Transaction.dir, hf, hb]

theorem readRegisterJob_ok {s : State} {phy a : Nat} {j : Job} {t : Transaction}
    (h : readRegisterJob s phy a = .ok (j, t)) :
    Startable s j t ∧ a ≤ 63 ∧ (s.params.extAccess = .refuse → isExtended a = false) ∧ (j, t) = readPlan phy a := by
  obtain ⟨hf, h⟩ := needFrozen_ok h
  obtain ⟨_, h⟩ := checkArg_ok h
  obtain ⟨ha, h⟩ := checkAddr_ok h
  obtain ⟨r, _, h⟩ := withReg_ok h
  obtain ⟨he, h⟩ := checkBank_ok h
  obtain ⟨hb, h⟩ := needIdle_ok h
  simp only [Except.ok.injEq] at h
  have hp := readPlan_startable phy a hf hb
  rw [h] at hp
  exact ⟨hp, ha, he, h.symm⟩

theorem writeRegisterJob_ok {s : State} {k phy a : Nat} {F : FieldMap} {base : Option FieldView} {j : Job}
    {t : Transaction} (h : writeRegisterJob s k phy a F base = .ok (j, t)) :
    Startable s j t ∧ a ≤ 63 ∧ (s.params.extAccess = .refuse → isExtended a = false) ∧
      ∃ w, (j, t) = writePlan phy a F base w := by
  obtain ⟨hf, h⟩ := needFrozen_ok h
  obtain ⟨_, h⟩ := checkArg_ok h
  obtain ⟨ha, h⟩ := checkAddr_ok h
  obtain ⟨r, _, h⟩ := withReg_ok h
  obtain ⟨_, h⟩ := checkBaseView_ok h
  split at h
  · simp at h
  · next w _ =>
    obtain ⟨he, h⟩ := checkBank_ok h
    obtain ⟨hb, h⟩ := needIdle_ok h
    simp only [Except.ok.injEq] at h
    have hp := writePlan_startable phy a F base w hf hb
    rw [h] at hp
    exact ⟨hp, ha, he, w, h.symm⟩

theorem resetJob_ok {s : State} {phy : Nat} {j : Job} {t : Transaction}
    (h : resetJob s phy = .ok (j, t)) : Startable s j t := by
  obtain ⟨hf, h⟩ := needFrozen_ok h
  obtain ⟨_, h⟩ := checkArg_ok h
  obtain ⟨r, hr, h⟩ := withReg_ok h
  obtain ⟨f, hfl, h⟩ := withField_ok h
  obtain ⟨hb, h⟩ := needIdle_ok h
  simp only [Except.ok.injEq, Prod.mk.injEq] at h
  obtain ⟨rfl, rfl⟩ := h
  exact ⟨hf, hb, fun _ h => by cases h; rfl, fun _ _ => ⟨r, f, hr, hfl⟩⟩

/-! ### exec, by kind of row -/

/-- The outcomes of a request that uses the bus, from `s` with `d` draws. -/
def BusOutcome (i : Instr) (c : Nat) (s : State) (d : Nat) (o : Answer) : Prop :=
  (s.isWaiting c = true ∧ o = .refused .callerStillWaiting) ∨
  (s.isWaiting c = false ∧ ∃ e, o = .next ({ s with draws := d }.afterError c e)) ∨
  (s.isWaiting c = false ∧ ∃ j t, Startable s j t ∧ o = .next ({ s with draws := d }.afterAccept c i j t))

theorem State.startJob_outcome {s : State} {c d : Nat} {i : Instr} {r : Except Error (Job × Transaction)}
    (h : ∀ j t, r = .ok (j, t) → Startable s j t) :
    BusOutcome i c s d ({ s with draws := d }.startJob c i r) := by
  cases hw : s.isWaiting c
  · have hw' : ({ s with draws := d } : State).isWaiting c = false := hw
    rcases r with e | ⟨j, t⟩
    · exact .inr (.inl ⟨hw, e, State.startJob_error hw'⟩)
    · exact .inr (.inr ⟨hw, j, t, h j t rfl, State.startJob_ok hw'⟩)
  · exact .inl ⟨hw, by simp only [State.startJob]; rw [if_pos]; exact hw⟩

/-- Everything a request that uses the bus can do (42_frame_engine R228). -/
theorem exec_bus_cases {i : Instr} {c : Nat} (s : State) (hu : usesBus i = true) (hc : callerOf i = some c) :
    ∃ d, BusOutcome i c s d (exec i s) := by
  cases i <;> simp only [usesBus, Bool.false_eq_true] at hu <;>
    simp only [callerOf, Option.some.injEq] at hc <;> subst hc
  · exact ⟨s.draws, State.startJob_outcome (s := s) fun _ _ => phyWrite_ok⟩
  · exact ⟨s.draws, State.startJob_outcome (s := s) fun _ _ => phyRead_ok⟩
  · exact ⟨s.draws, State.startJob_outcome (s := s) fun _ _ => phyWrite_ok⟩
  · exact ⟨s.draws, State.startJob_outcome (s := s) fun _ _ => phyRead_ok⟩
  · exact ⟨s.draws, State.startJob_outcome (s := s) fun _ _ h => (readRegisterJob_ok h).1⟩
  · exact ⟨s.draws + 1, State.startJob_outcome (s := s) fun _ _ h => (writeRegisterJob_ok h).1⟩
  · exact ⟨s.draws, State.startJob_outcome (s := s) fun _ _ => resetJob_ok⟩

/-- The outcomes of a request that does not use the bus: only REGMAP and S.frozen can change, and only before FREEZE. -/
def ModelOutcome (i : Instr) (c : Nat) (s : State) (d : Nat) (o : Answer) : Prop :=
  (s.isWaiting c = true ∧ o = .refused .callerStillWaiting) ∨
  o = .next { s with refusalMark := true } ∨
  (s.isWaiting c = false ∧ ∃ e, o = .next ({ s with draws := d }.afterError c e)) ∨
  (s.isWaiting c = false ∧ ∃ m f v, o = .next ({ s with regmap := m, frozen := f, draws := d }.afterOk c i v) ∧
    (s.frozen = true → m = s.regmap ∧ f = true) ∧ (regmapWf s.regmap = true → regmapWf m = true))

theorem State.answer_outcome {s : State} {c d : Nat} {i : Instr} {r : Except Error (Value × State)}
    (h : ∀ v s', r = .ok (v, s') → ∃ m f, s' = { s with regmap := m, frozen := f, draws := d } ∧
      (s.frozen = true → m = s.regmap ∧ f = true) ∧ (regmapWf s.regmap = true → regmapWf m = true)) :
    ModelOutcome i c s d ({ s with draws := d }.answer c i r) := by
  cases hw : s.isWaiting c
  · have hw' : ({ s with draws := d } : State).isWaiting c = false := hw
    rcases r with e | ⟨v, s'⟩
    · exact .inr (.inr (.inl ⟨hw, e, State.answer_error hw'⟩))
    · obtain ⟨m, f, rfl, h1, h2⟩ := h v s' rfl
      exact .inr (.inr (.inr ⟨hw, m, f, v, State.answer_ok hw', h1, h2⟩))
  · exact .inl ⟨hw, by simp only [State.answer]; rw [if_pos]; exact hw⟩

theorem State.answerView_outcome {s : State} {c : Nat} {i : Instr} {v : FieldView} {f : RegDef → Except Error Value} :
    ModelOutcome i c s s.draws (s.answerView c i v f) := by
  rcases s.answerView_cases c i v f with ⟨hw, h⟩ | ⟨hw, _, h⟩ | ⟨hw, _, x, _, _, h⟩ | ⟨hw, _, e, _, _, h⟩
  · exact .inl ⟨hw, h⟩
  · exact .inr (.inl h)
  · exact .inr (.inr (.inr ⟨hw, s.regmap, s.frozen, x, h, fun hf => ⟨rfl, hf⟩, id⟩))
  · exact .inr (.inr (.inl ⟨hw, e, h⟩))

/-- A new register is well formed. -/
theorem RegDef.wf_new {a : Nat} (h : a ≤ 63) (name : Option String) :
    (RegDef.mk a regWidth [] name).wf = true := by
  simp [RegDef.wf, maxRegAddr, namesDistinct, h]

theorem namesDistinct_append {l : List FieldDef} {f : FieldDef} (hl : namesDistinct l = true)
    (hf : ∀ g ∈ l, g.name ≠ f.name) : namesDistinct (l ++ [f]) = true := by
  induction l with
  | nil => simp [namesDistinct]
  | cons g l ih =>
    simp only [namesDistinct, Bool.and_eq_true, Bool.not_eq_true', List.any_eq_false, beq_iff_eq,
      List.cons_append, List.mem_append, List.mem_singleton] at hl ⊢
    refine ⟨?_, ih hl.2 fun g' hg => hf g' (List.mem_cons_of_mem _ hg)⟩
    rintro g' (hg | rfl)
    · exact hl.1 g' hg
    · exact fun h => hf g List.mem_cons_self h.symm

/-- A register with one more field is well formed (40_register_model R143, R148). -/
theorem RegDef.wf_addField {r : RegDef} {name : String} {off w : Nat} (hr : r.wf = true)
    (hn : r.field? name = none) (hw : ¬ (w = 0 ∨ off + w > r.width)) :
    ({ r with fields := r.fields ++ [⟨name, off, w⟩] } : RegDef).wf = true := by
  simp only [RegDef.wf, Bool.and_eq_true, decide_eq_true_eq, beq_iff_eq, List.all_eq_true] at hr ⊢
  obtain ⟨⟨⟨ha, hwd⟩, hf⟩, hd⟩ := hr
  simp only [regWidth] at hwd
  refine ⟨⟨⟨ha, hwd⟩, ?_⟩, ?_⟩
  · intro f hf'
    rcases List.mem_append.mp hf' with h | h
    · exact hf f h
    · simp only [List.mem_singleton] at h
      subst h
      simp only [FieldDef.wf, Bool.and_eq_true, decide_eq_true_eq]
      omega
  · refine namesDistinct_append hd fun g hg he => ?_
    simp only [RegDef.field?, List.find?_eq_none, beq_iff_eq] at hn
    exact hn g hg he

/-- Everything a request that does not use the bus can do (10_state R31, 42_frame_engine R228). -/
theorem exec_model_cases {i : Instr} {c : Nat} (s : State) (hu : usesBus i = false) (hc : callerOf i = some c) :
    ∃ d, ModelOutcome i c s d (exec i s) := by
  cases i <;> simp only [usesBus, Bool.true_eq_false] at hu <;>
    simp only [callerOf, Option.some.injEq, reduceCtorEq] at hc <;> subst hc
  · exact ⟨s.draws, .inr (.inl rfl)⟩
  · refine ⟨s.draws, State.answer_outcome (s := s) fun v s' h => ?_⟩
    obtain ⟨hf, h⟩ := needUnfrozen_ok h
    obtain ⟨ha, h⟩ := checkAddr_ok h
    split at h
    · simp at h
    · split at h
      · simp at h
      · simp only [Except.ok.injEq, Prod.mk.injEq] at h
        obtain ⟨rfl, rfl⟩ := h
        exact ⟨_, s.frozen, rfl, fun hf' => by simp_all, fun hm => regmapWf_regPut (RegDef.wf_new ha _) hm⟩
  · refine ⟨s.draws, State.answer_outcome (s := s) fun v s' h => ?_⟩
    obtain ⟨hf, h⟩ := needUnfrozen_ok h
    obtain ⟨ha, h⟩ := checkAddr_ok h
    obtain ⟨r, hr, h⟩ := withReg_ok h
    split at h
    · simp at h
    · next hn =>
      split at h
      · simp at h
      · next hw =>
        simp only [Except.ok.injEq, Prod.mk.injEq] at h
        obtain ⟨rfl, rfl⟩ := h
        exact ⟨_, s.frozen, rfl, fun hf' => by simp_all, fun hm =>
          regmapWf_regPut (RegDef.wf_addField (RegDef.wf_of_regFind hm hr) (by simpa using hn) hw) hm⟩
  · refine ⟨s.draws, State.answer_outcome (s := s) fun v s' h => ?_⟩
    obtain ⟨hf, h⟩ := needUnfrozen_ok h
    simp only [Except.ok.injEq, Prod.mk.injEq] at h
    obtain ⟨rfl, rfl⟩ := h
    exact ⟨s.regmap, true, rfl, fun _ => ⟨rfl, rfl⟩, id⟩
  · refine ⟨s.draws, State.answer_outcome (s := s) fun v s' h => ?_⟩
    obtain ⟨_, h⟩ := checkAddr_ok h
    obtain ⟨r, _, h⟩ := withReg_ok h
    simp only [Except.ok.injEq, Prod.mk.injEq] at h
    obtain ⟨rfl, rfl⟩ := h
    exact ⟨s.regmap, s.frozen, rfl, fun hf => ⟨rfl, hf⟩, id⟩
  · next a F base =>
    refine ⟨s.draws + 1, State.answer_outcome (s := s) fun v s' h => ?_⟩
    cases hp : packWord s.params.packMerge (errorPick s.draws) s.regmap a F (base.getD 0) with
    | error e => simp [hp, Except.map] at h
    | ok x =>
      simp only [hp, Except.map, Except.ok.injEq, Prod.mk.injEq] at h
      obtain ⟨rfl, rfl⟩ := h
      exact ⟨s.regmap, s.frozen, rfl, fun hf => ⟨rfl, hf⟩, id⟩
  · refine ⟨s.draws, State.answer_outcome (s := s) fun v s' h => ?_⟩
    obtain ⟨_, h⟩ := checkAddr_ok h
    obtain ⟨r, _, h⟩ := withReg_ok h
    split at h
    · simp at h
    · simp only [Except.ok.injEq, Prod.mk.injEq] at h
      obtain ⟨rfl, rfl⟩ := h
      exact ⟨s.regmap, s.frozen, rfl, fun hf => ⟨rfl, hf⟩, id⟩
  · exact ⟨s.draws, State.answerView_outcome⟩
  · exact ⟨s.draws, State.answerView_outcome⟩
  · refine ⟨s.draws, State.answer_outcome (s := s) fun v s' h => ?_⟩
    split at h
    · simp at h
    · simp only [Except.ok.injEq, Prod.mk.injEq] at h
      obtain ⟨rfl, rfl⟩ := h
      exact ⟨s.regmap, s.frozen, rfl, fun hf => ⟨rfl, hf⟩, id⟩
  · exact ⟨s.draws, .inr (.inl rfl)⟩

theorem State.performAll_ta (s : State) (d : SampleDest) (l : List Action) (h : s.params.checkTa = false) :
    (s.performAll d l).ta = s.ta := by
  induction l generalizing s with
  | nil => rfl
  | cons a l ih =>
    rw [State.performAll, ih]
    · cases a <;> simp [State.performTo, h]
    · cases a <;> simpa [State.performTo] using h

/-- Everything an invocation of the bit-bang layer can do (41_bitbang R190): the lines, the two sampled registers, the
record and the draw counter; S.ta only with CHECK_TA. -/
theorem exec_primitive_cases {i : Instr} (s : State) (hc : callerOf i = none) :
    ∃ l r ta es d, exec i s =
      .next { s with lines := l, rdata := r, ta := ta, trace := s.trace ++ es, draws := d } ∧
      (s.params.checkTa = false → ta = s.ta) := by
  have all : ∀ (s : State) d l, ∃ li r ta es n, (.next (s.performAll d l) : Answer) =
      .next { s with lines := li, rdata := r, ta := ta, trace := s.trace ++ es, draws := n } ∧
      (s.params.checkTa = false → ta = s.ta) := by
    intro s d l
    exact ⟨_, _, _, _, _, congrArg _ (State.performAll_frame s d l), State.performAll_ta s d l⟩
  cases i <;> simp only [callerOf, reduceCtorEq] at hc
  · exact all s .discard [.drive _]
  · exact all s (destOfPhase s.phase) [.sample]
  · exact all s .discard [.delay]
  · exact all s .discard _
  · exact all s .rdata _
  · exact all s .discard _
  · exact all s .ta _
  · exact all s .discard _
  · obtain ⟨l, r, ta, es, n, h, h'⟩ := all { s with rdata := 0 } .rdata (shiftInActions s.params.samplePoint)
    exact ⟨l, r, ta, es, n, h, h'⟩

/-! ### The framer's step -/

theorem exec_toInstr (a : Action) (s : State) : exec a.toInstr s = .next (s.performTo (destOfPhase s.phase) a) := by
  cases a <;> rfl

/-- The action step (42_frame_engine R230). -/
theorem actionStep_eq (a : Action) (s : State) :
    actionStep a s = .next (s.performTo (destOfPhase s.phase) a).advancePc := by
  rw [actionStep, exec_toInstr]

theorem State.loadFrame_eq_afterStage (s : State) (j : Job) (t : Transaction) :
    { s with job := some j }.loadFrame t = s.afterStage j t := by
  cases t <;> rfl

theorem State.noPhy_iff {s : State} : s.noPhy = true ↔ s.params.checkTa = true ∧ s.ta = some true := by
  simp [State.noPhy]

theorem State.readUnanswered_iff {s : State} : s.readUnanswered = true ↔ s.ReadUnanswered := by
  unfold State.readUnanswered State.ReadUnanswered
  split <;> simp_all [State.noPhy]

/-- Everything the finish of one transaction of a supplied EXT_ACCESS can do (43_client R277). -/
theorem finishExt_cases (c : Nat) (last : Result) (again : List Transaction → Job) (rest : List Transaction) (s : State) :
    (s.ReadUnanswered ∧ finishExt c last again rest s = .next (s.afterFinish c (.err (.noPhyResponse s.rdata)))) ∨
    (¬ s.ReadUnanswered ∧ rest = [] ∧ finishExt c last again rest s = .next (s.afterFinish c last)) ∨
    (¬ s.ReadUnanswered ∧ ∃ t ts, rest = t :: ts ∧ finishExt c last again rest s = .next (s.afterStage (again ts) t)) := by
  simp only [← State.readUnanswered_iff, finishExt, State.finish_eq_afterFinish, State.loadFrame_eq_afterStage]
  cases s.readUnanswered <;> cases rest <;> simp

/-- Everything a finish step can do (42_frame_engine R232, 43_client R277, R280): the job ends with one response, its next
stage is loaded, or RESET's read finds no reset field. -/
theorem finishJob_cases (j : Job) (c : Nat) (s : State) :
    (∃ r, finishJob j c s = .next (s.afterFinish c r)) ∨
    (∃ j' t, finishJob j c s = .next (s.afterStage j' t) ∧ (∀ d, j'.dir = some d → t.dir = d) ∧
      ∀ phy, j' ≠ .resetRead phy) ∨
    (∃ phy e, j = .resetRead phy ∧
      packWord s.params.packMerge 0 s.regmap ctrlRegAddr [(resetField, 1)] s.rdata.toNat = .error e ∧
      finishJob j c s = .fault .resetFieldMissing) := by
  have ext : ∀ last again rest, (∀ ts, (again ts).dir = none ∧ ∀ phy, again ts ≠ .resetRead phy) →
      (∃ r, finishExt c last again rest s = .next (s.afterFinish c r)) ∨
      (∃ j' t, finishExt c last again rest s = .next (s.afterStage j' t) ∧ (∀ d, j'.dir = some d → t.dir = d) ∧
        ∀ phy, j' ≠ .resetRead phy) := by
    intro last again rest h
    rcases finishExt_cases c last again rest s with ⟨_, e⟩ | ⟨_, _, e⟩ | ⟨_, t, ts, _, e⟩
    · exact .inl ⟨_, e⟩
    · exact .inl ⟨_, e⟩
    · exact .inr ⟨_, _, e, fun d hd => by simp [(h ts).1] at hd, (h ts).2⟩
  cases j with
  | frame req => cases req <;> exact .inl ⟨_, congrArg _ (State.finish_eq_afterFinish ..)⟩
  | readReg => exact .inl ⟨_, congrArg _ (State.finish_eq_afterFinish ..)⟩
  | writeReg => exact .inl ⟨_, congrArg _ (State.finish_eq_afterFinish ..)⟩
  | resetWrite => exact .inl ⟨_, congrArg _ (State.finish_eq_afterFinish ..)⟩
  | resetRead phy =>
    simp only [finishJob, finishResetRead]
    split
    · exact .inl ⟨_, congrArg _ (State.finish_eq_afterFinish ..)⟩
    · split
      · next w _ =>
        refine .inr (.inl ⟨.resetWrite phy w, _, congrArg _ (State.loadFrame_eq_afterStage ..), ?_, fun _ h => nomatch h⟩)
        rintro d ⟨⟩
        rfl
      · next e he => exact .inr (.inr ⟨phy, e, rfl, he, rfl⟩)
  | extRead phy a rest => exact (ext _ (.extRead phy a) rest fun _ => ⟨rfl, by simp⟩).imp_right .inl
  | extWrite phy a F base w rest => exact (ext _ (.extWrite phy a F base w) rest fun _ => ⟨rfl, by simp⟩).imp_right .inl

/-- At the end of a frame the framer's step is the finish step. -/
theorem framerStep_atFinish {s : State} {j : Job} {c : Nat} (h : s.atFinish j c) : framerStep s = finishJob j c s := by
  obtain ⟨_, hj, ho, hp⟩ := h
  have : s.actions[s.pc]? = none := by simp [hp]
  rw [framerStep, this]
  simp only [hp, if_pos, finishStep, hj, ho]

/-- Everything the framer's step can do (42_frame_engine R230, R232). -/
theorem framerStep_cases (s : State) :
    (∃ a, s.actions[s.pc]? = some a ∧ framerStep s = .next (s.performTo (destOfPhase s.phase) a).advancePc) ∨
    (∃ j c, s.job = some j ∧ s.owner = some c ∧ s.pc = s.actions.length ∧ framerStep s = finishJob j c s) ∨
    ((s.job = none ∨ s.owner = none) ∧ s.pc = s.actions.length ∧ framerStep s = .fault .busyWithoutJob) ∨
    (s.actions.length < s.pc ∧ framerStep s = .fault .framerPcPastEnd) := by
  unfold framerStep
  split
  · next a ha => exact .inl ⟨a, ha, actionStep_eq a s⟩
  · next hn =>
    rw [List.getElem?_eq_none_iff] at hn
    split
    · next hp =>
      unfold finishStep
      cases hj : s.job with
      | none => exact .inr (.inr (.inl ⟨.inl rfl, hp, rfl⟩))
      | some j =>
        cases ho : s.owner with
        | none => exact .inr (.inr (.inl ⟨.inr rfl, hp, rfl⟩))
        | some c => exact .inr (.inl ⟨j, c, rfl, rfl, hp, rfl⟩)
    · exact .inr (.inr (.inr ⟨by omega, rfl⟩))

/-- Everything the taking of a record can do (42_frame_engine R238, 60_exceptions R321). -/
theorem takeRecord_cases (bytes : List Byte) (s : State) :
    (∃ i c, decodeRecord bytes = .ok i ∧ callerOf i = some c ∧ takeRecord bytes s = exec i s) ∨
    (recordCaller bytes = none ∧ takeRecord bytes s = .next { s with refusalMark := true }) := by
  unfold takeRecord recordCaller
  cases hd : decodeRecord bytes with
  | error e => exact .inr ⟨rfl, rfl⟩
  | ok i =>
    cases hc : callerOf i with
    | none => exact .inr ⟨hc, by simp [hc, State.refuse]⟩
    | some c => exact .inl ⟨i, c, rfl, hc, by simp [hc]⟩

/-- Everything the taking of an input can do (42_frame_engine R238, 70 R352): block reset, or a record, of a caller or of the
hook, in a state in which only `hookWaits` may have been set. -/
theorem takeInput_cases (inp : Input) (s : State) :
    (inp = .blockReset ∧ takeInput inp s = .next s.blockReset) ∨
    (∃ bytes, inp = .record bytes ∧ takeInput inp s = takeRecord bytes s) ∨
    (∃ bytes w, inp = .hook bytes w ∧ takeInput inp s = takeRecord bytes (s.hookAsks bytes w)) := by
  cases inp with
  | blockReset => exact .inl ⟨rfl, rfl⟩
  | record bytes => exact .inr (.inl ⟨bytes, rfl, rfl⟩)
  | hook bytes w => exact .inr (.inr ⟨bytes, w, rfl, rfl⟩)

end Sys2Proof.Machine
end

