-- ==== Sys2Proof/Laws/Run.lean ====
section
/-!
SUPPORT. Runs of the framer alone: with no input waiting, the steps of a busy block perform its actions one after another.
-/

namespace Sys2Proof.Machine

open Sys2Proof.Config

theorem core_run_of_next {s s' : State} (k : Nat) (h : step s = .next s') :
    (Sys2Proof.core.run (k + 1) s : Answer) = Sys2Proof.core.run k s' := by
  have h' : Sys2Proof.core.step s = .next s' := h
  have e := Host.Core.run.eq_2 Sys2Proof.core s k
  rw [h'] at e
  exact e

/-- With no input waiting a busy block's step is the framer's (42_frame_engine R230), unless the hook does not return. -/
theorem step_alone {s : State} (hb : s.busy = true) (hw : s.hookWaits = false) (hi : s.inbox = []) : step s = framerStep s := by
  simp [step, schedule, State.mover, State.moves, State.framerFree, hb, hw, hi, inputMoves, choose, makeMove, State.settleTurn]

/-- S.pc has no part in what the actions do. -/
theorem State.performAll_with_pc (s : State) (d : SampleDest) (l : List Action) (n : Nat) :
    ({ s with pc := n } : State).performAll d l = { s.performAll d l with pc := n } := by
  induction l generalizing s with
  | nil => rfl
  | cons a l ih =>
    simp only [State.performAll]
    rw [← ih]
    congr 1
    cases a with
    | drive w => rfl
    | delay => rfl
    | sample =>
      cases d with
      | rdata => rfl
      | discard => rfl
      | ta => simp only [State.performTo, State.sampleTo, State.takeBit, State.latchTa]; split <;> rfl

/-- The framer alone performs the actions that stand at S.pc one a step, when all their Samples go to one place
(42_frame_engine R230, 41_bitbang R190). -/
theorem run_actions (d : SampleDest) (l : List Action) {s : State} (hb : s.busy = true) (hw : s.hookWaits = false)
    (hi : s.inbox = [])
    (ha : ∀ k < l.length, s.actions[s.pc + k]? = l[k]?)
    (hd : ∀ k, l[k]? = some .sample → destOfPhase ({ s with pc := s.pc + k } : State).phase = d) :
    (Sys2Proof.core.run l.length s : Answer) = .next { s.performAll d l with pc := s.pc + l.length } := by
  induction l generalizing s with
  | nil => rfl
  | cons a l ih =>
    have h0 : s.actions[s.pc]? = some a := by simpa using ha 0 (by simp)
    have hs : step s = .next (s.performTo d a).advancePc := by
      rw [step_alone hb hw hi]
      simp only [framerStep, h0, actionStep_eq]
      cases a with
      | drive w => rfl
      | delay => rfl
      | sample =>
        have := hd 0 (by simp)
        simp only [Nat.add_zero] at this
        rw [show destOfPhase s.phase = d from this]
    have hp : (s.performTo d a).pc = s.pc := by rw [State.performTo_frame]
    rw [List.length_cons, core_run_of_next _ hs, ih]
    · simp only [State.performAll, State.advancePc, State.performAll_with_pc, hp]
      rw [show s.pc + 1 + l.length = s.pc + (l.length + 1) by omega]
    · rw [State.advancePc, State.performTo_frame]; exact hb
    · rw [State.advancePc, State.performTo_frame]; exact hw
    · rw [State.advancePc, State.performTo_frame]; exact hi
    · intro k hk
      have := ha (k + 1) (by simpa using hk)
      rw [State.advancePc, State.performTo_frame]
      simp only
      rw [show s.pc + 1 + k = s.pc + (k + 1) by omega, this]
      simp
    · intro k hk
      have := hd (k + 1) (by simpa using hk)
      rw [State.advancePc, State.performTo_frame, ← this]
      simp only [State.phase]
      rw [show s.pc + 1 + k = s.pc + (k + 1) by omega]

end Sys2Proof.Machine
end

