-- ==== Sys2Proof/Tests/Slice0.lean ====
section
/-!
SUPPORT. The model's own tests. Expected results are the vectors V1 to V166 and examples E1 to E9 of spec/95_test_vectors.md,
and words written out from the encodings of 30_encoding and 41_bitbang. After them, for every statement with hypotheses, a
witness that meets them.
-/

namespace Sys2Proof.Tests

open Sys2Proof.Machine Sys2Proof.Config

/-! ### Helper states -/

/-- Register 0x00 of 95 section 1. -/
def control : RegDef :=
  ⟨0x00, 16, [⟨"reset", 15, 1⟩, ⟨"loopback", 14, 1⟩, ⟨"speed_lsb", 13, 1⟩, ⟨"an_enable", 12, 1⟩, ⟨"power_down", 11, 1⟩,
    ⟨"isolate", 10, 1⟩, ⟨"restart_an", 9, 1⟩, ⟨"duplex", 8, 1⟩, ⟨"coll_test", 7, 1⟩, ⟨"speed_msb", 6, 1⟩], some "control"⟩

/-- Register 0x11 of 95 section 1. -/
def phyStatus : RegDef :=
  ⟨0x11, 16, [⟨"speed", 14, 2⟩, ⟨"speed_sel0", 14, 1⟩, ⟨"speed_sel1", 15, 1⟩, ⟨"duplex", 13, 1⟩, ⟨"link", 10, 1⟩],
    some "phy_status"⟩

/-- Register 0x2A of 95 section 1. -/
def extCfg : RegDef := ⟨0x2A, 16, [⟨"value", 0, 16⟩, ⟨"low", 0, 8⟩, ⟨"high", 8, 8⟩], some "ext_cfg"⟩

/-- The example configuration EX. -/
def ex : RegMap := [control, phyStatus, extCfg]

/-- This hardware's parameters, with the callers 0 to 3. -/
def four : Params := { hardware with nCallers := 4 }

/-- The start state of 95 section 1: EX, frozen, the framer idle. -/
def idle : State := { State.reset with regmap := ex, frozen := true, params := four }

/-- `idle` with CHECK_TA = true. -/
def idleChecked : State := { idle with params := { four with checkTa := true } }

/-- `idle` with a supplied EXT_ACCESS. -/
def idleSupplied : State := { idle with params := { four with extAccess := .supplied } }

/-- Before FREEZE, with register 0x11 and one field defined (after V9). -/
def building : State := { State.reset with regmap := [⟨0x11, 16, [⟨"speed", 14, 2⟩], none⟩], params := four }

/-- Caller 1 writes 0x8000 to register 0 of PHY 0 (E1). -/
def writing : State :=
  idle.afterAccept 1 (.mdioWrite 1 0 0 0x8000) (.frame (.write 0 0 0x8000)) (.write 0 0 0x8000)

/-- The same in the call of the first Delay's hook. -/
def inDelay : State := { writing with pc := 2 }

/-- The one caller of a block with N_CALLERS = 1 writes; the first Delay's hook runs. -/
def soleCaller : State :=
  { ({ idle with params := { four with nCallers := 1 } } : State).afterAccept 0 (.mdioWrite 0 0 0 0x8000)
      (.frame (.write 0 0 0x8000)) (.write 0 0 0x8000) with pc := 2 }

/-- Caller 1 reads register 2 of PHY 3 (E2). -/
def reading : State := idle.afterAccept 1 (.mdioRead 1 3 2) (.frame (.read 3 2)) (.read 3 2)

/-- The same with CHECK_TA = true. -/
def readingChecked : State := idleChecked.afterAccept 1 (.mdioRead 1 3 2) (.frame (.read 3 2)) (.read 3 2)

/-- Caller 1's READ_REGISTER of the extended register 0x2A, with a supplied EXT_ACCESS of a write and then a read. -/
def readingExt : State :=
  idleSupplied.afterAccept 1 (.readRegister 1 0 0x2A) (.extRead 0 0x2A [.read 0 14]) (.write 0 13 0x2A)

/-- The same for WRITE_REGISTER, at its last transaction. -/
def writingExt : State :=
  idleSupplied.afterAccept 1 (.writeRegister 1 0 0x2A [] none) (.extWrite 0 0x2A [] none 0 []) (.write 0 14 0)

/-- Caller 1's RESET of PHY 1 with its read frame done: 0x1140 was read (V145). -/
def resetRead : State :=
  { idle.afterAccept 1 (.reset 1 1) (.resetRead 1) (.read 1 0) with pc := 396, rdata := 0x1140 }

def lastEvent (o : Answer) : Option Event :=
  match o with
  | .next t => t.trace.getLast?
  | .fault _ => none
  | .refused _ => none

def markOf (o : Answer) : Option (Bool × Nat) :=
  match o with
  | .next t => some (t.refusalMark, t.trace.length)
  | .fault _ => none
  | .refused _ => none

/-- The lines and the record that a step leaves. -/
def linesOf (o : Answer) : Option (Option DriveWord × List Event) :=
  match o with
  | .next t => some (t.lines, t.trace)
  | .fault _ => none
  | .refused _ => none

/-- The transaction and the stage that a step leaves. -/
def frameOf (o : Answer) : Option (Option Transaction × Option Job × Nat) :=
  match o with
  | .next t => some (t.txn, t.job, t.actions.length)
  | .fault _ => none
  | .refused _ => none

def decoded (bs : List Byte) : Option Instr :=
  match decodeRecord bs with
  | .ok i => some i
  | .error _ => none

def rejected (bs : List Byte) : Option DecodeError :=
  match decodeRecord bs with
  | .ok _ => none
  | .error e => some e

/-! ### WellFormed -/

theorem test_wf_pack : Instr.wf (.pack 1 0 [("a", 1), ("b", 0)] none) = true := by decide
theorem test_wf_pack_repeated : Instr.wf (.pack 1 0 [("a", 1), ("b", 0), ("a", 1)] none) = false := by decide
theorem test_wf_write_register_repeated : Instr.wf (.writeRegister 1 0 0 [("a", 0), ("a", 1)] none) = false := by decide

/-! ### Decoding: a word of every row -/

-- 30_encoding R103, V101: 111...1 0101 00001 00000 10 0001000101000000
theorem test_word_write_frame : decodeTableWord 64 0xFFFFFFFF50821140 = some (.cl22WriteFrame 0 1 0 0x1140) := by decide
-- E2: 111...1 0110 00011 00010 and 18 positions the block does not drive
theorem test_word_read_frame : decodeTableWord 64 0xFFFFFFFF61880000 = some (.cl22ReadFrame 0 3 2) := by decide
theorem test_word_invalid_0 : decoded [0x00, 7] = some (.invalid0 7) := by decide
-- selector 1; caller 1, addr 0x11, width absent, name present: 1 character, 'c' = 0x63
theorem test_word_define_register : decoded [0x01, 1, 0x11, 0, 1, 1, 0x63] = some (.defineRegister 1 0x11 none (some "c")) := by
  decide
theorem test_word_define_field : decoded [0x02, 1, 0x11, 1, 0x73, 14, 2] = some (.defineField 1 0x11 "s" 14 2) := by decide
theorem test_word_freeze : decoded [0x03, 1] = some (.freeze 1) := by decide
theorem test_word_lookup : decoded [0x04, 1, 0x2A] = some (.lookup 1 0x2A) := by decide
-- one entry, name "s", value 2; base present: 0x1140 = 0x40 + 128 * 0x22, so the bytes 0xC0 0x22
theorem test_word_pack : decoded [0x05, 1, 0x11, 1, 1, 0x73, 2, 1, 0xC0, 0x22] = some (.pack 1 0x11 [("s", 2)] (some 0x1140)) := by
  decide
-- 0x10000 = 128 * 128 * 4
theorem test_word_unpack : decoded [0x06, 1, 0x11, 0x80, 0x80, 4] = some (.unpack 1 0x11 0x10000) := by decide
theorem test_word_view_get : decoded [0x07, 1, 0x11, 5, 1, 0x73] = some (.viewGet 1 ⟨0x11, 5⟩ "s") := by decide
theorem test_word_view_fields : decoded [0x08, 1, 0x2A, 0] = some (.viewFields 1 ⟨0x2A, 0⟩) := by decide
theorem test_word_reverse : decoded [0x09, 1, 4, 2] = some (.reverse 1 4 2) := by decide
theorem test_word_mdio_write : decoded [0x0A, 1, 31, 30, 29] = some (.mdioWrite 1 31 30 29) := by decide
theorem test_word_mdio_read : decoded [0x0B, 1, 3, 2] = some (.mdioRead 1 3 2) := by decide
theorem test_word_read_register : decoded [0x0C, 1, 0, 0x11] = some (.readRegister 1 0 0x11) := by decide
theorem test_word_write_register :
    decoded [0x0D, 1, 0, 0x11, 1, 1, 0x73, 1, 1, 0x11, 5] = some (.writeRegister 1 0 0x11 [("s", 1)] (some ⟨0x11, 5⟩)) := by
  decide
theorem test_word_reset : decoded [0x0E, 1, 31] = some (.reset 1 31) := by decide
theorem test_word_invalid_f : decoded [0x0F, 1] = some (.invalidF 1) := by decide
-- 41_bitbang R191: 1www, 0001, 0000 in the low half
theorem test_word_drive : decoded [0b00101110] = some (.drive 0b110) := by decide
theorem test_word_sample : decoded [0b00100001] = some .sample := by decide
theorem test_word_delay : decoded [0b00100000] = some .delay := by decide
-- 1ve0 0000 1ve1 0000 1ve0 0000 with v = 1, e = 0, and with v = 0, e = 1
theorem test_word_write_bit : decodeTableWord 24 0b110000001101000011000000 = some (.writeBit true false) := by decide
theorem test_word_write_bit_driven : decodeTableWord 24 0b101000001011000010100000 = some (.writeBit false true) := by decide
theorem test_word_read_bit : decodeTableWord 24 0b000100001001000010000000 = some .readBit := by decide
theorem test_word_release : decodeTableWord 24 0b100000001001000010000000 = some .release := by decide
theorem test_word_relc : decodeTableWord 32 0b10000000000100001001000010000000 = some .relc := by decide
theorem test_word_shift_out : decoded [0x30, 0x11, 5, 1] = some (.shiftOut 0x11 5 true) := by decide
theorem test_word_shift_in : decoded [0x31] = some .shiftIn := by decide

-- rejected by name
theorem test_reject_opcode_00 : rejected (frameBytes 0xFFFFFFFF40000000) = some .reservedFrame := by decide
theorem test_reject_start_00 : rejected (frameBytes 0xFFFFFFFF20000000) = some .reservedFrame := by decide
theorem test_reject_action : rejected [0x23] = some (.reservedAction 0x23) := by decide
theorem test_reject_code : rejected [0x40] = some (.reservedCode 0x40) := by decide
theorem test_reject_symbol : rejected [0x80, 0x90, 0x90] = some .brokenSymbol := by decide
theorem test_reject_truncated : rejected [0x0B, 1] = some .truncated := by decide
theorem test_reject_trailing : rejected [0x03, 1, 9] = some .trailingBytes := by decide
theorem test_reject_repeated : rejected [0x05, 1, 0, 2, 1, 0x73, 0, 1, 0x73, 1, 0] = some .repeatedName := by decide
theorem test_reject_view_word : rejected [0x08, 1, 0x11, 0x80, 0x80, 4] = some (.wordTooWide 65536) := by decide
theorem test_reject_tag : rejected [0x30, 0, 1, 2] = some (.badTag 2) := by decide
theorem test_reject_char : rejected [0x07, 1, 0, 0, 1, 0x80, 0xB0, 3] = some (.badChar 0xD800) := by decide

/-! ### The register model -/

theorem test_define_register_ok : -- V7
    lastEvent (exec (.defineRegister 1 63 none none) State.reset) = some (.respond 1 (.ok (.handle 63))) := by decide
theorem test_define_register_width_first : -- V6
    lastEvent (exec (.defineRegister 1 0x11 (some 8) none) building) = some (.respond 1 (.err (.unsupportedWidth 8))) := by
  decide
theorem test_define_field_range : -- V10
    lastEvent (exec (.defineField 1 0x11 "bad" 14 3) building) =
      some (.respond 1 (.err (.fieldOutOfRange 0x11 "bad" 14 3))) := by decide
theorem test_define_field_ok : -- V13
    (match exec (.defineField 1 0x11 "top" 15 1) building with
      | .next t => regFind t.regmap 0x11
      | _ => none) = some ⟨0x11, 16, [⟨"speed", 14, 2⟩, ⟨"top", 15, 1⟩], none⟩ := by decide
theorem test_freeze_twice : -- V19
    lastEvent (exec (.freeze 1) idle) = some (.respond 1 (.err .configFrozen)) := by decide
theorem test_lookup_ext : -- V23
    lastEvent (exec (.lookup 1 0x2A) idle) = some (.respond 1 (.ok (.regDef extCfg))) := by decide
theorem test_lookup_twin : -- V25
    lastEvent (exec (.lookup 1 0x20) idle) = some (.respond 1 (.err (.unknownRegister 0x20))) := by decide
theorem test_pack_replace : -- V45
    lastEvent (exec (.pack 1 0 [("loopback", 1), ("an_enable", 0)] (some 0x1140)) idle) =
      some (.respond 1 (.ok (.word 0x4140))) := by decide
theorem test_pack_conflict : -- V49
    lastEvent (exec (.pack 1 0x2A [("value", 0xBEEF), ("low", 0xEE)] none) idle) =
      some (.respond 1 (.err (.aliasConflict "value" "low"))) := by decide
theorem test_unpack_wide : -- V56
    lastEvent (exec (.unpack 1 0x11 0x10000) idle) = some (.respond 1 (.err (.valueOutOfRange "word" 0x10000))) := by decide
theorem test_view_get : -- V58
    lastEvent (exec (.viewGet 1 ⟨0x11, 0xAC00⟩ "speed") idle) = some (.respond 1 (.ok (.nat 2))) := by decide
theorem test_view_get_bogus : -- V59
    lastEvent (exec (.viewGet 1 ⟨0x11, 0x8000⟩ "bogus") idle) =
      some (.respond 1 (.err (.unknownField 0x11 "bogus"))) := by decide
theorem test_view_fields : -- V61
    lastEvent (exec (.viewFields 1 ⟨0x2A, 0x1234⟩) idle) =
      some (.respond 1 (.ok (.fields [("value", 0x1234), ("low", 0x34), ("high", 0x12)]))) := by decide
theorem test_reverse : -- V63
    lastEvent (exec (.reverse 1 0x796D 16) idle) = some (.respond 1 (.ok (.nat 0xB69E))) := by decide
theorem test_reverse_range : -- V69
    lastEvent (exec (.reverse 1 4 2) idle) = some (.respond 1 (.err (.argumentOutOfRange "v" 4))) := by decide

/-! ### The bit-bang layer -/

theorem test_drive : linesOf (exec (.drive 0b111) idle) = some (some 0b111, [.drive 0b111]) := by decide
theorem test_delay : linesOf (exec .delay idle) = some (none, [.delay]) := by decide -- V92
-- 41_bitbang R195, with the transport's answer left free: outside DATA_IN nothing but the record changes
theorem test_sample_idle : (match exec .sample idle with
    | .next t => (t.rdata, t.ta, t.trace.length)
    | _ => (1, none, 0)) = (0, none, 1) := by decide
theorem test_write_bit : -- V80
    linesOf (exec (.writeBit true true) idle) =
      some (some 0b110, [.drive 0b110, .delay, .drive 0b111, .delay, .drive 0b110, .delay]) := by decide
theorem test_release : -- V82
    linesOf (exec .release idle) =
      some (some 0b000, [.drive 0b000, .delay, .drive 0b001, .delay, .drive 0b000, .delay]) := by decide
theorem test_read_bit_actions : -- V83
    readBitActions .beforeRise = [.sample, .delay, .drive 0b001, .delay, .drive 0b000, .delay] := by decide
theorem test_relc_actions : -- V86
    relcActions = [.drive 0b000, .delay, .sample, .delay, .drive 0b001, .delay, .drive 0b000, .delay] := by decide
theorem test_shift_out : -- V87: 232 676
    linesOf (exec (.shiftOut 0b01 2 true) idle) =
      some (some 0b110, [.drive 2, .delay, .drive 3, .delay, .drive 2, .delay,
        .drive 6, .delay, .drive 7, .delay, .drive 6, .delay]) := by decide
theorem test_shift_in_word : -- V90: the shift of 41_bitbang R204 on the script 0001000101000000
    ([false, false, false, true, false, false, false, true, false, true, false, false, false, false, false, false].foldl
      (fun t b => t.shiftRdata b) State.reset).rdata = 0x1140 := by decide
theorem test_data_in_ignores_high_bits : dataIn (0b10 : BitVec 2) = false := by decide -- V84

/-! ### The frame engine and the client -/

theorem test_mdio_write_frame : -- V102
    frameOf (exec (.mdioWrite 1 31 31 0xFFFF) idle) =
      some (some (.write 31 31 0xFFFF), some (.frame (.write 31 31 0xFFFF)), 384) := by decide +kernel
theorem test_mdio_write_phy_first : -- V111
    lastEvent (exec (.mdioWrite 1 32 32 0x10000) idle) = some (.respond 1 (.err (.argumentOutOfRange "phy" 32))) := by decide
theorem test_mdio_read_busy : -- E7, V113
    lastEvent (exec (.mdioRead 2 0 0) writing) = some (.respond 2 (.err .busBusy)) := by decide
theorem test_wire_write : -- V101
    frameOf (exec (.cl22WriteFrame 1 1 0 0x1140) idle) =
      some (some (.write 1 0 0x1140), some (.frame (.write 1 0 0x1140)), 384) := by decide +kernel
theorem test_wire_read : -- V104
    frameOf (exec (.cl22ReadFrame 1 3 2) idle) = some (some (.read 3 2), some (.frame (.read 3 2)), 396) := by decide +kernel
theorem test_read_frame_checked_length : -- V115
    frameOf (exec (.mdioRead 1 5 0) idleChecked) = some (some (.read 5 0), some (.frame (.read 5 0)), 398) := by decide +kernel
theorem test_wire_word : writeFrameWord 31 31 0xFFFF = 0xFFFFFFFF5FFEFFFF := by decide -- V102
theorem test_no_phy : -- V116, at the finish step
    lastEvent (step { readingChecked with pc := 398, rdata := 0xFFFF, ta := some true }) =
      some (.respond 1 (.err (.noPhyResponse 0xFFFF))) := by decide +kernel
theorem test_read_register_ext : -- V132
    lastEvent (exec (.readRegister 1 0 0x2A) idle) = some (.respond 1 (.err (.extendedUnsupported 0x2A))) := by decide
theorem test_read_register_view : -- V130, at the finish step
    lastEvent (step { reading with job := some (.readReg 0 0x11), pc := 396, rdata := 0x8000 }) =
      some (.respond 1 (.ok (.view ⟨0x11, 0x8000⟩))) := by decide +kernel
theorem test_write_register_frame : -- V142
    frameOf (exec (.writeRegister 1 2 0x11 [("speed", 2)] none) idle) =
      some (some (.write 2 0x11 0x8000), some (.writeReg 2 0x11 [("speed", 2)] none 0x8000), 384) := by decide +kernel
theorem test_write_register_pack_before_ext : -- V141
    lastEvent (exec (.writeRegister 1 0 0x2A [("low", 0x100)] none) idle) =
      some (.respond 1 (.err (.valueOutOfRange "low" 0x100))) := by decide
theorem test_reset_write_stage : -- V145
    frameOf (step resetRead) = some (some (.write 1 0 0x9140), some (.resetWrite 1 0x9140), 384) := by decide +kernel
theorem test_reset_no_field : -- V150
    lastEvent (exec (.reset 1 0) { idle with regmap := [⟨0, 16, [], none⟩] }) =
      some (.respond 1 (.err (.unknownField 0 "reset"))) := by decide
-- 43_client R277: the second transaction of a supplied EXT_ACCESS, the bus held
theorem test_ext_next_transaction :
    frameOf (framerStep { readingExt with pc := 384 }) = some (some (.read 0 14), some (.extRead 0 0x2A []), 396) := by
  decide +kernel
-- 42_frame_engine R238: no caller calls the transport; DRIVE 100 as a record drives nothing
theorem test_no_direct_transport_call :
    linesOf (step { idle with inbox := [.record [0x2C]] }) = some (none, []) ∧
    markOf (step { idle with inbox := [.record [0x2C]] }) = some (true, 0) := by decide
-- 42_frame_engine R228, E7: caller 2 behind the held-back record of caller 1, who waits
theorem test_free_caller_moves :
    lastEvent (step { writing with inbox := [.record [0x0B, 1, 0, 0], .record [0x0B, 2, 0, 0]], turn := 1 }) =
      some (.respond 2 (.err .busBusy)) := by decide
-- 41_bitbang R192, 70 R352, 90 C11: the hook of a block with one caller calls back and gets BusBusy
theorem test_hook_gets_bus_busy :
    lastEvent (step { soleCaller with inbox := [.hook [0x0B, 1, 0, 0] false], turn := 1 }) =
      some (.respond 1 (.err .busBusy)) := by decide +kernel
-- 70 R352, 93 I18: a hook that waits for it to succeed keeps the framer from stepping
theorem test_hook_that_waits_hangs :
    (match step { soleCaller with inbox := [.hook [0x0B, 1, 0, 0] true], turn := 1 } with
      | .next t => (t.hookWaits, t.busy, t.pc, t.mover)
      | _ => (false, false, 0, none)) = (true, true, 2, none) := by decide +kernel
theorem test_invalid_0 : markOf (exec (.invalid0 1) idle) = some (true, 0) := by decide
theorem test_invalid_f : markOf (exec (.invalidF 1) idle) = some (true, 0) := by decide -- V165

/-! ### Witnesses: states and operands that meet the hypotheses of the statements, clause by clause -/

/-- A block at IDLE with EX frozen is coherent, whatever its parameters. -/
theorem coherent_of_idle (p : Params) : Coherent { idle with params := p } where
  job_iff := rfl
  owner_iff := rfl
  txn_iff := rfl
  idle_empty := fun _ => ⟨rfl, rfl⟩
  actions_of_txn := fun _ h => nomatch h
  pc_le := Nat.le_refl 0
  dir_of_job := fun _ _ _ h => nomatch h
  busy_frozen := fun h => nomatch h
  waiting_iff := fun c => by simp [State.isWaiting, idle, State.reset]
  reset_field := fun _ h => nomatch h
  ta_unused := fun _ => rfl
  hook_in_frame := fun h => nomatch h
  regmap_wf := show regmapWf ex = true by decide

/-- A block with a write frame in flight is coherent. -/
theorem coherent_writing : Coherent writing where
  job_iff := rfl
  owner_iff := rfl
  txn_iff := rfl
  idle_empty := fun h => nomatch h
  actions_of_txn := fun _ h => by cases h; rfl
  pc_le := Nat.zero_le _
  dir_of_job := fun _ _ _ h h' hd => by cases h; cases h'; cases hd; rfl
  busy_frozen := fun _ => rfl
  waiting_iff := fun c => by
    simp [State.isWaiting, writing, State.afterAccept, idle, State.reset, pendingPut, pendingFind]
  reset_field := fun _ h => nomatch h
  ta_unused := fun _ => rfl
  hook_in_frame := fun h => nomatch h
  regmap_wf := show regmapWf ex = true by decide

/-- Block reset during a frame, behind a request that is held back, and at IDLE. -/
theorem witness_BlockResetPutsFramerToIdle :
    ({ writing with inbox := [.record [0x03, 1], .blockReset], turn := 1 } : State).mover =
      some (.input .blockReset [.record [0x03, 1]]) ∧
    ({ idle with inbox := [.blockReset] } : State).mover = some (.input .blockReset []) := by decide

/-- The lone move, one of two, and a free caller behind the record of a waiting one. -/
theorem witness_StepRunsDecodedRecord :
    decoded [0x03, 2] = some (.freeze 2) ∧ callerOf (.freeze 2) = some 2 ∧
    (let s : State := { idle with inbox := [.record [0x03, 2]] }
     s.mover = some (.input (.record [0x03, 2]) []) ∧ s.moves.length = 1) ∧
    (let s : State := { writing with inbox := [.record [0x03, 1], .record [0x03, 2]], turn := 1 }
     s.mover = some (.input (.record [0x03, 2]) [.record [0x03, 1]]) ∧ s.moves.length = 2) ∧
    (2 < writing.params.nCallers ∧ writing.isWaiting 2 = false ∧
      ∀ b ∈ [Input.record [0x03, 1]], inputCaller b ≠ some 2) ∧
    (let s : State := { inDelay with inbox := [.record [0x03, 1], .hook [0x03, 4] true], turn := 1 }
     decoded [0x03, 4] = some (.freeze 4) ∧ callerOf (.freeze 4) = some s.params.nCallers ∧ s.isWaiting 4 = false ∧
     s.inHook = true ∧ s.mover = some (.input (.hook [0x03, 4] true) [.record [0x03, 1]])) := by decide +kernel

theorem witness_StepOtherwiseMovesFramerOrWaits :
    (writing.inbox = [] ∧ writing.busy = true ∧ writing.mover = some .framer) ∧
    (idle.busy = false ∧ idle.mover = none) ∧
    ({ writing with inbox := [.record [0x03, 1]] } : State).mover = some .framer ∧
    ({ writing with inbox := [.record [0x03, 2]], turn := 0 } : State).mover = some .framer ∧
    ({ idle with inbox := [.record [0x03, 1]], pending := [(1, .freeze 1)] } : State).mover = none ∧
    (let s : State := { inDelay with hookWaits := true }
     s.busy = true ∧ s.mover = none) := by decide

/-- A request, and a row of the bit-bang layer. -/
theorem witness_PlacedTableWordRunsNext :
    (decodeTableWord 8 0x03 = some (.freeze 0) ∧ callerOf (.freeze 0) = some 0 ∧ 0 < idle.params.nCallers) ∧
    (decodeTableWord 24 0x109080 = some .readBit ∧ callerOf .readBit = none ∧ idle.inbox = []) := by decide

/-- Also the witness of CoherentMachineNeverStops. -/
theorem witness_EveryStepKeepsCoherence : Coherent writing ∧ ∃ t, step writing = .next t :=
  ⟨coherent_writing, _, rfl⟩

theorem witness_FrozenConfigurationNeverChanges : idle.frozen = true ∧ ∃ t, step idle = .next t := ⟨rfl, _, rfl⟩

theorem witness_MarkKeptAndTraceOnlyGrows :
    (∃ t, step { idle with refusalMark := true } = .next t ∧
      ({ idle with refusalMark := true } : State).refusalMark = true) ∧
    ({ idle with inbox := [.blockReset, .record [0x03, 4], .hook [0x03, 4] false] } : State).ended = true :=
  ⟨⟨_, rfl, rfl⟩, by decide⟩

theorem witness_NoRecordDisturbsFrameInFlight :
    writing.busy = true ∧
    (∃ t, takeInput (.record [0x0B, 2, 0, 0]) writing = .next t) ∧
    (∃ t, takeInput (.hook [0x0B, 4, 0, 0] true) inDelay = .next t) ∧
    (let s : State := { inDelay with hookWaits := true }
     s.busy = true ∧ s.hookWaits = true ∧ ∃ t, step s = .next t) :=
  ⟨rfl, ⟨_, rfl⟩, ⟨_, rfl⟩, rfl, rfl, _, rfl⟩

theorem witness_DecodeOfEncodeIsCanonical :
    Instr.wf (.writeRegister 1 0 0x11 [("speed", 2), ("link", 1)] (some ⟨0x11, 0⟩)) = true := by decide

theorem witness_OnlyTableFramesDecode :
    decoded (frameBytes 0xFFFFFFFF50821140 ++ [5]) = some (.cl22WriteFrame 5 1 0 0x1140) ∧
    decoded (frameBytes 0xFFFFFFFF61880000 ++ [5]) = some (.cl22ReadFrame 5 3 2) ∧
    ((0xFFFFFFFF40000000 : BitVec 64).extractLsb' 56 8 = 0xFF#8 ∧
      (0xFFFFFFFF40000000 : BitVec 64) &&& 0xFFFFFFFFF0030000#64 ≠ 0xFFFFFFFF50020000#64 ∧
      (0xFFFFFFFF40000000 : BitVec 64) &&& 0xFFFFFFFFF0000000#64 ≠ 0xFFFFFFFF60000000#64) := by decide

/-- The clauses of R142: frozen; address 64; width 8 at address 63; address 0x11 again; address 63. -/
theorem witness_DefineRegisterResult :
    (idle.isWaiting 1 = false ∧ idle.frozen = true) ∧
    (building.isWaiting 1 = false ∧ building.frozen = false ∧ 63 < 64) ∧
    (63 ≤ 63 ∧ (some 8).getD 16 ≠ 16) ∧
    ((none : Option Nat).getD 16 = 16 ∧ (regFind building.regmap 0x11).isSome = true) ∧
    ((some 16).getD 16 = 16 ∧ regFind building.regmap 63 = none) := by decide

/-- The clauses of R143: frozen; address 64; no register 63; field `speed` again; widths 0 and, at offset 15, 2; (15, 1)
and (0, 16). -/
theorem witness_DefineFieldResult :
    idle.frozen = true ∧ (building.isWaiting 1 = false ∧ building.frozen = false ∧ 63 < 64) ∧
    regFind building.regmap 63 = none ∧
    (let r : RegDef := ⟨0x11, 16, [⟨"speed", 14, 2⟩], none⟩
     regFind building.regmap 0x11 = some r ∧ "speed" ∈ r.fields.map FieldDef.name ∧
     "top" ∉ r.fields.map FieldDef.name ∧ ((0 : Nat) = 0 ∨ r.width < 16 + 0) ∧ r.width < 15 + 2 ∧
     (1 ≤ 1 ∧ 15 + 1 ≤ r.width) ∧ (1 ≤ 16 ∧ 0 + 16 ≤ r.width)) := by decide

theorem witness_FreezeResult :
    (idle.isWaiting 1 = false ∧ idle.frozen = true) ∧ (building.isWaiting 1 = false ∧ building.frozen = false) := by decide

/-- Also the witness of the first three clauses of UnpackResult. -/
theorem witness_LookupResult :
    idle.isWaiting 1 = false ∧ 63 < 64 ∧ regFind idle.regmap 63 = none ∧ regFind idle.regmap 0x2A = some extCfg := by decide

/-- PACK's checks before the entries, each at its boundary. -/
theorem witness_PackResult_operands :
    idle.isWaiting 1 = false ∧ 63 < 64 ∧ 0xFFFF < (some 0x10000).getD 0 ∧ (some 0xFFFF).getD 0 ≤ 0xFFFF ∧
    regFind idle.regmap 63 = none ∧ regFind idle.regmap 0x11 = some phyStatus ∧
    (∃ e ∈ [("bogus", 1), ("speed", 9)], phyStatus.field? e.1 = none) := by decide

theorem witness_PackResult_value :
    (∀ e ∈ [("speed", 4), ("speed_sel1", 0)], phyStatus.field? e.1 ≠ none) ∧
    (∃ e ∈ [("speed", 4), ("speed_sel1", 0)], ∃ f, phyStatus.field? e.1 = some f ∧ 2 ^ f.w ≤ e.2) :=
  ⟨by decide, ("speed", 4), by decide, ⟨"speed", 14, 2⟩, by decide, by decide⟩

theorem witness_PackResult_conflict :
    (∀ e ∈ [("speed", 3), ("speed_sel1", 0)], ∀ f, phyStatus.field? e.1 = some f → e.2 < 2 ^ f.w) ∧
    (∃ e1 ∈ [("speed", 3), ("speed_sel1", 0)], ∃ e2 ∈ [("speed", 3), ("speed_sel1", 0)], Conflicting phyStatus e1 e2) :=
  ⟨overfullEntries_eq_nil.1 (by decide), ("speed", 3), by decide, ("speed_sel1", 0), by decide,
    entriesConflict_iff.1 (by decide)⟩

theorem witness_PackResult_accepted :
    (∀ e ∈ [("speed", 2), ("speed_sel1", 1), ("speed_sel0", 0)], phyStatus.field? e.1 ≠ none) ∧
    (∀ e ∈ [("speed", 2), ("speed_sel1", 1), ("speed_sel0", 0)], ∀ f, phyStatus.field? e.1 = some f → e.2 < 2 ^ f.w) ∧
    (∀ e1 ∈ [("speed", 2), ("speed_sel1", 1), ("speed_sel0", 0)],
      ∀ e2 ∈ [("speed", 2), ("speed_sel1", 1), ("speed_sel0", 0)], ¬ Conflicting phyStatus e1 e2) :=
  ⟨by decide, overfullEntries_eq_nil.1 (by decide), conflictPairs_eq_nil.1 (by decide)⟩

theorem witness_PackUnpackRoundTrip :
    regmapWf ex = true ∧ FieldMap.isMap [("speed", 3)] = true ∧ ("speed", 3) ∈ [("speed", 3)] ∧
    packWord .replace 0 ex 0x11 [("speed", 3)] 0x2000 = .ok 0xE000 ∧
    (packWord .orIn 0 ex 0x11 [("speed", 3)] 0 = .ok 0xC000 ∧ (0 : Nat) = 0) ∧
    idle.regmap = ex ∧ idle.isWaiting 1 = false :=
  ⟨by decide, by decide, by decide, rfl, ⟨rfl, rfl⟩, rfl, rfl⟩

theorem witness_PackKeepsUncoveredBits :
    regmapWf ex = true ∧ regFind ex 0 = some control ∧ packWord .replace 0 ex 0 [("reset", 1)] 0x003F = .ok 0x803F ∧
    0 < 16 ∧ ¬ CoveredBy control [("reset", 1)] 0 := by
  refine ⟨by decide, by decide, rfl, by decide, ?_⟩
  rintro ⟨e, he, f, hf, hc⟩
  rw [List.mem_singleton] at he
  subst he
  have hf' : some (⟨"reset", 15, 1⟩ : FieldDef) = some f := hf
  cases hf'
  exact absurd hc (by decide)

theorem witness_PackOrderAndMergeMode :
    regmapWf ex = true ∧ FieldMap.isMap [("loopback", 1), ("duplex", 1)] = true ∧ regFind ex 0 = some control ∧
    packWord .replace 0 ex 0 [("loopback", 1), ("duplex", 1)] 0 = .ok 0x4100 ∧
    List.Perm [("duplex", 1), ("loopback", 1)] [("loopback", 1), ("duplex", 1)] ∧
    (∀ p < 16, ∀ e ∈ [("loopback", 1), ("duplex", 1)], ∀ f, control.field? e.1 = some f → f.covers p = true →
      (0 : Nat).testBit p = true → e.2.testBit (p - f.off) = true) :=
  ⟨by decide, by decide, by decide, rfl, .swap _ _ _, fun p _ e _ f _ _ h => by simp at h⟩

theorem witness_UnpackResult : 0xFFFF < 0x10000 ∧ 0xFFFF ≤ 0xFFFF ∧ regFind idle.regmap 0x11 = some phyStatus := by decide

theorem witness_ViewAccessResult :
    idle.isWaiting 1 = false ∧ regFind idle.regmap (FieldView.mk 0x11 0x8000).addr = some phyStatus ∧
    "bogus" ∉ phyStatus.fields.map FieldDef.name ∧ phyStatus.field? "speed" = some ⟨"speed", 14, 2⟩ := by decide

theorem witness_AliasesAgreeOnSharedBits :
    (FieldDef.mk "value" 0 16).off = (FieldDef.mk "all" 0 16).off ∧ (FieldDef.mk "value" 0 16).w = (FieldDef.mk "all" 0 16).w ∧
    (FieldDef.mk "speed" 14 2).covers 15 = true ∧ (FieldDef.mk "speed_sel1" 15 1).covers 15 = true := by decide

theorem witness_ReverseResult : idle.isWaiting 1 = false ∧ 2 ^ 2 ≤ 4 ∧ 3 < 2 ^ 2 ∧ 0 < 2 ^ 0 ∧ 2 ^ 0 ≤ 1 := by decide

theorem witness_ReverseTwiceIsIdentity : 0 < 2 ^ 0 ∧ 31 < 2 ^ 5 ∧ 0xDEADBEEF < 2 ^ 32 := by decide

theorem witness_BanksNeverAlias : 31 ≤ 31 ∧ (∃ t, exec (.defineRegister 1 31 none none) building = .next t) ∧
    (∃ t, exec (.defineField 1 31 "x" 0 1) building = .next t) ∧
    (∃ t, exec (.defineRegister 1 (31 ||| 0x20) none none) building = .next t) ∧
    (∃ t, exec (.defineField 1 (31 ||| 0x20) "x" 0 1) building = .next t) :=
  ⟨by decide, ⟨_, rfl⟩, ⟨_, rfl⟩, ⟨_, rfl⟩, ⟨_, rfl⟩⟩

theorem witness_RegisterModelIgnoresTheBus : -- V71
    callerOf (.pack 2 0x11 [("speed", 1)] none) = some 2 ∧ usesBus (.pack 2 0x11 [("speed", 1)] none) = false ∧
    ∃ t, exec (.pack 2 0x11 [("speed", 1)] none) writing = .next t := ⟨rfl, rfl, _, rfl⟩

/-- The phases of the three clauses, the last in a phase without samples and at an unchecked turnaround. -/
theorem witness_SampleResult :
    ({ reading with pc := 288 } : State).phase = .dataIn ∧
    (({ readingChecked with pc := 284 } : State).phase = .turnaround ∧ readingChecked.params.checkTa = true) ∧
    (idle.phase ≠ .dataIn ∧ idle.phase ≠ .turnaround) ∧
    (({ reading with pc := 284 } : State).phase = .turnaround ∧ reading.params.checkTa = false) := by decide

theorem witness_OneDelayAfterEveryAccess : DelayAfterEach [.sample, .delay, .drive 1, .delay] :=
  ⟨[.sample, .drive 1], by decide, rfl⟩

theorem witness_ActionCounts : hardware.checkTa = false ∧ idleChecked.params.checkTa = true := by decide

theorem witness_OnlySixDriveWords : Action.drive 0b001 ∈ frameActions hardware (.read 3 2) ∧ Coherent writing ∧
    ∃ t, step writing = .next t ∧ t.trace = writing.trace ++ [.drive 0b110] :=
  ⟨by decide +kernel, coherent_writing, _, rfl, rfl⟩

theorem witness_SamplePositionsAndPhases :
    (readActions hardware 3 2)[378]? = some .sample ∧ hardware.samplePoint = .beforeRise ∧ 15 < 16 ∧
    hardware.checkTa = false ∧ idleChecked.params.samplePoint = .beforeRise ∧ idleChecked.params.checkTa = true := by
  decide +kernel

/-- For MdioWriteResult, MdioReadResult and WireFrameResult: operands at their bounds, and the three kinds of state. -/
theorem witness_MdioResults :
    building.isWaiting 2 = false ∧ building.frozen = false ∧ idle.isWaiting 2 = false ∧ idle.frozen = true ∧
    idle.busy = false ∧ writing.isWaiting 2 = false ∧ writing.frozen = true ∧ writing.busy = true ∧
    31 < 32 ∧ 31 ≤ 31 ∧ 0xFFFF < 0x10000 ∧ 0xFFFF ≤ 0xFFFF := by decide

theorem witness_finish_write : ({ writing with pc := 384 } : State).atFinish (.frame (.write 0 0 0x8000)) 1 := by
  refine ⟨rfl, rfl, rfl, ?_⟩
  decide +kernel

theorem witness_finish_read : ({ reading with pc := 396 } : State).atFinish (.frame (.read 3 2)) 1 := by
  refine ⟨rfl, rfl, rfl, ?_⟩
  decide +kernel

theorem witness_finish_readRegister :
    ({ reading with job := some (.readReg 3 2), pc := 396 } : State).atFinish (.readReg 3 2) 1 := by
  refine ⟨rfl, rfl, rfl, ?_⟩
  decide +kernel

theorem witness_finish_writeRegister :
    ({ writing with job := some (.writeReg 0 0 [("reset", 1)] none 0x8000), pc := 384 } : State).atFinish
      (.writeReg 0 0 [("reset", 1)] none 0x8000) 1 := by
  refine ⟨rfl, rfl, rfl, ?_⟩
  decide +kernel

theorem witness_finish_resetWrite :
    ({ writing with job := some (.resetWrite 0 0x8000), pc := 384 } : State).atFinish (.resetWrite 0 0x8000) 1 := by
  refine ⟨rfl, rfl, rfl, ?_⟩
  decide +kernel

/-- The finish of a supplied EXT_ACCESS's transactions: another one follows; the last; a read that was not answered. An
input may wait. -/
theorem witness_finish_ext :
    (let s : State := { readingExt with pc := 384, inbox := [.record [0x03, 2]] }
     s.atFinish (.extRead 0 0x2A [.read 0 14]) 1 ∧ ¬ s.ReadUnanswered) ∧
    (let s : State := { writingExt with pc := 384 }
     s.atFinish (.extWrite 0 0x2A [] none 0 []) 1 ∧ ¬ s.ReadUnanswered) ∧
    (let s : State := { readingChecked with job := some (.extRead 3 0x2A []), pc := 398, ta := some true }
     s.atFinish (.extRead 3 0x2A []) 1 ∧ s.ReadUnanswered) := by
  refine ⟨⟨⟨rfl, rfl, rfl, ?_⟩, fun h => ?_⟩, ⟨⟨rfl, rfl, rfl, ?_⟩, fun h => ?_⟩, ⟨rfl, rfl, rfl, ?_⟩, ⟨_, _, rfl⟩, rfl, rfl⟩
  · decide +kernel
  · exact absurd h.2.1 (by decide)
  · decide +kernel
  · exact absurd h.2.1 (by decide)
  · decide +kernel

/-- RESET's read finish without CHECK_TA: the pack succeeds. -/
theorem witness_finish_resetRead : resetRead.atFinish (.resetRead 1) 1 ∧
    ¬ (resetRead.params.checkTa = true ∧ resetRead.ta = some true) ∧
    packWord resetRead.params.packMerge 0 resetRead.regmap 0 [("reset", 1)] resetRead.rdata.toNat = .ok 0x9140 := by
  refine ⟨⟨rfl, rfl, rfl, ?_⟩, by decide, rfl⟩
  decide +kernel

/-- RESET's read finish with CHECK_TA and a turnaround bit of 1. -/
theorem witness_finish_resetRead_checked :
    (let s : State := { readingChecked with job := some (.resetRead 3), pc := 398, ta := some true }
     s.atFinish (.resetRead 3) 1 ∧ s.params.checkTa = true ∧ s.ta = some true) := by
  refine ⟨⟨rfl, rfl, rfl, ?_⟩, rfl, rfl⟩
  decide +kernel

/-- Also a record of DRIVE 100. -/
theorem witness_InvalidRecordsAreRefused : decodeRecord [0x40] = .error (.reservedCode 0x40) ∧
    decodeRecord [0x2C] = .ok (.drive 0b100) ∧ callerOf (.drive 0b100) = none := ⟨rfl, rfl, rfl⟩

theorem witness_ViewOfNoRegisterIsRefused :
    idle.isWaiting 1 = false ∧ regFind idle.regmap (FieldView.mk 63 0).addr = none := by decide

/-- A caller that waits, and a number that is no caller's; for the hook, another's number and a hook that does not run. -/
theorem witness_SecondRequestHasNoMove :
    (decoded [0x03, 1] = some (.freeze 1) ∧ callerOf (.freeze 1) = some 1 ∧ writing.isWaiting 1 = true) ∧
    (decoded [0x03, 4] = some (.freeze 4) ∧ idle.isWaiting 4 = false ∧ idle.params.nCallers ≤ 4) ∧
    2 ≠ idle.params.nCallers ∧ writing.inHook = false := by decide

theorem witness_BusyGuardRaisesBusBusy : usesBus (.reset 2 1) = true ∧ callerOf (.reset 2 1) = some 2 ∧ writing.busy = true ∧
    ∃ t, exec (.reset 2 1) { writing with busy := false } = .next t ∧ t.busy = true := ⟨rfl, rfl, rfl, _, rfl, rfl⟩

theorem witness_ActionStepResult :
    (writing.actions[writing.pc]? = some (.drive 0b110)) ∧
    (({ writing with pc := 383 } : State).actions[383]? = some .delay) ∧
    (({ reading with pc := 288 } : State).actions[288]? = some .sample ∧ ({ reading with pc := 288 } : State).phase = .dataIn) ∧
    (({ readingChecked with pc := 284 } : State).actions[284]? = some .sample ∧
      ({ readingChecked with pc := 284 } : State).phase = .turnaround ∧ readingChecked.params.checkTa = true) ∧
    (({ reading with actions := [.sample] } : State).actions[0]? = some .sample ∧ reading.phase = .preamble) := by
  decide +kernel

/-- Also the witness of ReadTransactionRunsToIdle with CHECK_TA = false. -/
theorem witness_WriteTransactionRunsToIdle :
    Coherent idle ∧ idle.busy = false ∧ idle.frozen = true ∧ idle.inbox = [] ∧ 31 ≤ 31 ∧ 0xFFFF ≤ 0xFFFF ∧
    idle.params.checkTa = false :=
  ⟨coherent_of_idle four, rfl, rfl, rfl, by decide, by decide, rfl⟩

theorem witness_ReadTransactionRunsToIdle_checked :
    Coherent idleChecked ∧ idleChecked.busy = false ∧ idleChecked.frozen = true ∧ idleChecked.inbox = [] ∧
    idleChecked.params.checkTa = true :=
  ⟨coherent_of_idle _, rfl, rfl, rfl, rfl⟩

theorem witness_ResetTransactionRunsToIdle :
    Coherent idle ∧ idle.busy = false ∧ idle.frozen = true ∧ idle.inbox = [] ∧ 31 ≤ 31 ∧ idle.params.checkTa = false ∧
    idle.params.packMerge = .replace ∧ regFind idle.regmap 0 = some control ∧
    control.field? "reset" = some ⟨"reset", 15, 1⟩ :=
  ⟨coherent_of_idle four, rfl, rfl, rfl, by decide, rfl, rfl, by decide, by decide⟩

/-- The clauses of READ_REGISTER and WRITE_REGISTER with a supplied EXT_ACCESS, at IDLE and busy. -/
theorem witness_ext_access :
    idle.params.extAccess = .refuse ∧ idleSupplied.params.extAccess = .supplied ∧ idleSupplied.isWaiting 2 = false ∧
    idleSupplied.frozen = true ∧ regFind idleSupplied.regmap 0x2A = some extCfg ∧ 32 ≤ 0x2A ∧ idleSupplied.busy = false ∧
    packWord idleSupplied.params.packMerge (errorPick idleSupplied.draws) idleSupplied.regmap 0x2A [("low", 1)] 0 = .ok 1 ∧
    readingExt.params.extAccess = .supplied ∧ readingExt.isWaiting 2 = false ∧ readingExt.busy = true :=
  ⟨rfl, rfl, rfl, rfl, by decide, by decide, rfl, rfl, rfl, by decide, rfl⟩

/-- READ_REGISTER's clauses; 0x2A is defined and extended, 0x11 is defined in the base bank. -/
theorem witness_ReadRegisterResult :
    building.frozen = false ∧ idle.isWaiting 2 = false ∧ idle.frozen = true ∧ 31 < 32 ∧ 31 ≤ 31 ∧ 63 < 64 ∧
    regFind idle.regmap 63 = none ∧ regFind idle.regmap 0x2A = some extCfg ∧ 32 ≤ 0x2A ∧
    regFind idle.regmap 0x11 = some phyStatus ∧ 0x11 ≤ 31 ∧ idle.busy = false ∧
    writing.isWaiting 2 = false ∧ writing.frozen = true ∧ regFind writing.regmap 0x11 = some phyStatus ∧
    writing.busy = true := by decide

/-- WRITE_REGISTER's clauses beyond those of READ_REGISTER. -/
theorem witness_WriteRegisterResult :
    (∀ v, some (FieldView.mk 0x11 0x8000) = some v → v.addr ≠ 0) ∧
    (∀ v, some (FieldView.mk 0x11 0x8000) = some v → v.addr = 0x11) ∧
    packWord idle.params.packMerge (errorPick idle.draws) idle.regmap 0x11 [("speed", 4)] 0 =
      .error (.valueOutOfRange "speed" 4) ∧
    packWord idle.params.packMerge (errorPick idle.draws) idle.regmap 0x11 [("speed", 1)] 0x8000 = .ok 0x4000 ∧
    packWord idle.params.packMerge (errorPick idle.draws) idle.regmap 0x2A [("low", 1)] 0 = .ok 1 ∧
    packWord writing.params.packMerge (errorPick writing.draws) writing.regmap 0x11 [("speed", 1)] 0 = .ok 0x4000 :=
  ⟨by rintro v ⟨⟩; decide, by rintro v ⟨⟩; rfl, rfl, rfl, rfl, rfl⟩

theorem witness_ResetOperationResult :
    building.frozen = false ∧ idle.isWaiting 2 = false ∧ idle.frozen = true ∧ 31 < 32 ∧ 31 ≤ 31 ∧
    regFind ({ idle with regmap := [] } : State).regmap 0 = none ∧
    regFind ({ idle with regmap := [⟨0, 16, [], none⟩] } : State).regmap 0 = some ⟨0, 16, [], none⟩ ∧
    (RegDef.mk 0 16 [] none).field? "reset" = none ∧
    regFind idle.regmap 0 = some control ∧ control.field? "reset" = some ⟨"reset", 15, 1⟩ ∧ idle.busy = false ∧
    writing.isWaiting 2 = false ∧ regFind writing.regmap 0 = some control ∧ writing.busy = true := by decide

theorem witness_NoExtendedAddressOnTheWire :
    idle.busy = false ∧ (∃ t, exec (.readRegister 2 0 0x11) idle = .next t ∧ t.busy = true) ∧
    (∃ t, exec (.writeRegister 2 0 0x11 [] none) idle = .next t ∧ t.busy = true) ∧
    (idleSupplied.busy = false ∧ ∃ t, exec (.readRegister 2 0 0x2A) idleSupplied = .next t ∧ t.busy = true) := by
  refine ⟨rfl, ⟨_, rfl, rfl⟩, ⟨_, rfl, rfl⟩, rfl, _, rfl, ?_⟩
  rw [State.accept_eq_afterAccept, State.afterAccept]

theorem witness_RequestErrorChangesNothing : callerOf (.reverse 1 4 2) = some 1 ∧
    ∃ t, exec (.reverse 1 4 2) idle = .next t ∧
      t.trace = idle.trace ++ [.respond 1 (.err (.argumentOutOfRange "v" 4))] := ⟨rfl, _, rfl, rfl⟩

theorem witness_RequestIsAnsweredOnceOrAccepted :
    (callerOf (.mdioRead 2 3 2) = some 2 ∧ spellsOperation idle.regmap (.mdioRead 2 3 2) = true ∧ idle.isWaiting 2 = false) ∧
    spellsOperation idle.regmap (.viewGet 2 ⟨0x11, 0⟩ "speed") = true := by decide

end Sys2Proof.Tests
end

/-! ### Which move a step makes (00_scope R8, 42_frame_engine R228) -/

namespace Sys2Proof.Machine

/-- `State.settleTurn` written out as the update of its two fields. -/
theorem State.settleTurn_eq_redraw (s : State) :
    s.settleTurn = { s with
      turn := if 1 < s.moves.length then Config.turnPick (s.draws + 1) else s.turn
      draws := if 1 < s.moves.length then s.draws + 1 else s.draws } := by
  rw [← s.settleTurn_turn, ← s.settleTurn_draws]
  exact s.settleTurn_eq

/-- The step makes the chosen move, in the state with the turn redrawn. -/
theorem step_of_mover {s : State} {m : Move} (h : s.mover = some m) : step s = makeMove m s.settleTurn := by
  unfold step schedule
  rw [h]

/-- With no move to make, nothing happens (60_exceptions R332). -/
theorem step_of_mover_eq_none {s : State} (h : s.mover = none) : step s = .next s := by
  unfold step schedule
  rw [h]

/-- A framer that is idle, or that a hook call keeps, is never the choice (70 R352). -/
theorem State.mover_ne_framer {s : State} (h : s.busy = false ∨ s.hookWaits = true) : s.mover ≠ some .framer := by
  intro hm
  obtain ⟨hb, hw⟩ := State.framer_mem_moves.1 (State.mover_mem hm)
  simp [hb, hw] at h

/-- Settles O4: each clause is a fact about the list of moves or about the step that makes the chosen one. -/
theorem stepOtherwiseMovesFramerOrWaits : Obligations.StepOtherwiseMovesFramerOrWaits := by
  intro s
  refine ⟨fun h => ?_, step_of_mover_eq_none, fun hb hw => State.mover_of_mem (State.framer_mem_moves.2 ⟨hb, hw⟩),
    step_alone, State.mover_ne_framer, State.mover_none⟩
  rw [← s.settleTurn_eq_redraw]
  exact step_of_mover h

end Sys2Proof.Machine

/-! ### The next state of a request and of the framer's step -/

namespace Sys2Proof.Machine

/-- Every next state of a caller's request (42_frame_engine R228): the mark is set, an error is answered, the register
model answers, or a bus-using request is accepted. -/
theorem exec_next_cases {s t : State} {i : Instr} {c : Nat} (hc : callerOf i = some c) (ht : exec i s = .next t) :
    ∃ d, t = { s with refusalMark := true } ∨
      (∃ e, t = { s with draws := d }.afterError c e) ∨
      (usesBus i = false ∧ ∃ m f v, t = { s with regmap := m, frozen := f, draws := d }.afterOk c i v ∧
        (s.frozen = true → m = s.regmap ∧ f = true) ∧ (regmapWf s.regmap = true → regmapWf m = true)) ∨
      (usesBus i = true ∧ ∃ j x, Startable s j x ∧ t = { s with draws := d }.afterAccept c i j x) := by
  cases hu : usesBus i
  · obtain ⟨d, ⟨_, eq⟩ | eq | ⟨_, e, eq⟩ | ⟨_, m, f, v, eq, hf, hm⟩⟩ := exec_model_cases s hu hc <;>
      rw [eq] at ht <;> cases ht
    · exact ⟨d, .inl rfl⟩
    · exact ⟨d, .inr (.inl ⟨e, rfl⟩)⟩
    · exact ⟨d, .inr (.inr (.inl ⟨rfl, m, f, v, rfl, hf, hm⟩))⟩
  · obtain ⟨d, ⟨_, eq⟩ | ⟨_, e, eq⟩ | ⟨_, j, x, hs, eq⟩⟩ := exec_bus_cases s hu hc <;> rw [eq] at ht <;> cases ht
    · exact ⟨d, .inr (.inl ⟨e, rfl⟩)⟩
    · exact ⟨d, .inr (.inr (.inr ⟨rfl, j, x, hs, rfl⟩))⟩

/-- Every next state of the framer's step (42_frame_engine R230, R232; 43_client R277, R280): an action is performed,
the job ends, or its next stage is loaded. -/
theorem framerStep_next_cases {s t : State} (ht : framerStep s = .next t) :
    (∃ a, s.actions[s.pc]? = some a ∧ t = (s.performTo (destOfPhase s.phase) a).advancePc) ∨
    (∃ c r, s.owner = some c ∧ t = s.afterFinish c r) ∨
    (∃ j x, t = s.afterStage j x ∧ (∀ d, j.dir = some d → x.dir = d) ∧ ∀ phy, j ≠ .resetRead phy) := by
  rcases framerStep_cases s with ⟨a, ha, e⟩ | ⟨j, c, _, ho, _, e⟩ | ⟨_, _, e⟩ | ⟨_, e⟩ <;> rw [e] at ht
  · cases ht
    exact .inl ⟨a, ha, rfl⟩
  · rcases finishJob_cases j c s with ⟨r, e⟩ | ⟨j', x, e, hdir, hreset⟩ | ⟨_, _, _, _, e⟩ <;>
      rw [e] at ht <;> cases ht
    · exact .inr (.inl ⟨c, r, ho, rfl⟩)
    · exact .inr (.inr ⟨j', x, rfl, hdir, hreset⟩)
  · cases ht
  · cases ht

end Sys2Proof.Machine

/-! ### The framer's coherence (10_state R31 to R40, R50) -/

namespace Sys2Proof.Machine

open Sys2Proof.Config

/-- Accepting a request makes its caller wait, and no other (10_state R50). -/
theorem State.isWaiting_afterAccept (s : State) (c d : Nat) (i : Instr) (j : Job) (t : Transaction) :
    (s.afterAccept c i j t).isWaiting d = true ↔ d = c ∨ s.isWaiting d = true := by
  show (pendingFind (pendingPut c i s.pending) d).isSome = true ↔ d = c ∨ (pendingFind s.pending d).isSome = true
  by_cases h : d = c
  · simp [h]
  · simp [h, pendingFind_pendingPut_ne i s.pending h]

/-- A delivered result ends its caller's wait, and no other (10_state R50). -/
theorem State.isWaiting_afterFinish (s : State) (c d : Nat) (r : Result) :
    (s.afterFinish c r).isWaiting d = true ↔ d ≠ c ∧ s.isWaiting d = true := by
  rw [← s.finish_eq_afterFinish]
  show (pendingFind (pendingErase c s.pending) d).isSome = true ↔ d ≠ c ∧ (pendingFind s.pending d).isSome = true
  by_cases h : d = c
  · simp [h]
  · simp [h, pendingFind_pendingErase_ne s.pending h]

/-- At IDLE coherence asks only that nothing is left of a frame, that no caller and no hook waits, and for S.ta and
REGMAP (10_state R37, R49; 40_register_model R148). -/
theorem Coherent.of_idle {s : State} (hb : s.busy = false) (hj : s.job = none) (ho : s.owner = none)
    (ht : s.txn = none) (ha : s.actions = []) (hp : s.pc = 0) (hw : ∀ c, s.isWaiting c = false)
    (hk : s.hookWaits = false) (hta : s.params.checkTa = false → s.ta = none) (hm : regmapWf s.regmap = true) :
    Coherent s where
  job_iff := by simp [hb, hj]
  owner_iff := by simp [hb, ho]
  txn_iff := by simp [hb, ht]
  idle_empty := fun _ => ⟨ha, hp⟩
  actions_of_txn := by simp [ht]
  pc_le := by simp [hp]
  dir_of_job := by simp [hj]
  busy_frozen := by simp [hb]
  waiting_iff := by simp [hw, ho]
  reset_field := by simp [hj]
  ta_unused := hta
  hook_in_frame := by simp [hk]
  regmap_wf := hm

/-- Settles O6: power-up is an idle state with nothing pending and an empty REGMAP. -/
theorem coherentAtReset : Obligations.CoherentAtReset :=
  .of_idle rfl rfl rfl rfl rfl rfl (fun _ => rfl) rfl (fun _ => rfl) rfl

section coherent
variable {s : State} (h : Coherent s)
include h

/-- Without an owner nobody waits (10_state R50). -/
theorem Coherent.not_isWaiting_of_idle (hb : s.busy = false) (c : Nat) : s.isWaiting c = false := by
  have ho : s.owner = none := by simpa [hb] using h.owner_iff
  have := h.waiting_iff c
  simpa [ho] using this

/-- A hook waits only in a frame (70 R352). -/
theorem Coherent.hookWaits_of_idle (hb : s.busy = false) : s.hookWaits = false := by
  by_contra hw
  have := h.hook_in_frame (by simpa using hw)
  simp [State.inHook, hb] at this

/-- Coherence says nothing of the lines, S.rdata, the record, the mark, the inbox, the turn and the draw counter, and of
S.ta only that it is unused without CHECK_TA. -/
theorem Coherent.with_data {ta : Option Bool} (hta : s.params.checkTa = false → ta = none) (rdata : Word)
    (lines : Option DriveWord) (trace : List Event) (mark : Bool) (inbox : List Input) (turn draws : Nat) :
    Coherent { s with rdata := rdata, ta := ta, lines := lines, trace := trace, refusalMark := mark, inbox := inbox,
                      turn := turn, draws := draws } :=
  { h with ta_unused := hta }

theorem Coherent.settleTurn : Coherent s.settleTurn := by
  rw [s.settleTurn_eq]
  exact h.with_data h.ta_unused ..

theorem Coherent.with_inbox (inbox : List Input) : Coherent { s with inbox := inbox } :=
  h.with_data h.ta_unused ..

theorem Coherent.with_refusalMark (mark : Bool) : Coherent { s with refusalMark := mark } :=
  h.with_data h.ta_unused ..

theorem Coherent.afterError (d c : Nat) (e : Error) : Coherent ({ s with draws := d }.afterError c e) :=
  h.with_data h.ta_unused ..

/-- A request of the register model changes no part of a frame in flight, since REGMAP and S.frozen no longer change
after FREEZE (10_state R47). -/
theorem Coherent.afterOk {m : RegMap} {f : Bool} (hf : s.frozen = true → m = s.regmap ∧ f = true)
    (hm : regmapWf s.regmap = true → regmapWf m = true) (d c : Nat) (i : Instr) (v : Value) :
    Coherent ({ s with regmap := m, frozen := f, draws := d }.afterOk c i v) := by
  have of_busy (hb : s.busy = true) : m = s.regmap ∧ f = true := hf (h.busy_frozen hb)
  refine { h with
    busy_frozen := fun hb => (of_busy hb).2
    reset_field := fun phy hj => ?_
    regmap_wf := hm h.regmap_wf }
  have hj' : s.job = some (.resetRead phy) := hj
  have hb : s.busy = true := by rw [← h.job_iff, hj']; rfl
  show ∃ r f, regFind m ctrlRegAddr = some r ∧ r.field? resetField = some f
  rw [(of_busy hb).1]
  exact h.reset_field phy hj

/-- Accepting a bus-using request loads its frame (42_frame_engine R228). -/
theorem Coherent.afterAccept {j : Job} {t : Transaction} (hs : Startable s j t) (d c : Nat) (i : Instr) :
    Coherent ({ s with draws := d }.afterAccept c i j t) := by
  obtain ⟨hfrozen, hidle, hdir, hfield⟩ := hs
  exact {
    job_iff := rfl
    owner_iff := rfl
    txn_iff := rfl
    idle_empty := fun hb => nomatch hb
    actions_of_txn := fun _ ht => by cases ht; rfl
    pc_le := Nat.zero_le _
    dir_of_job := fun _ _ d hj ht hd => by cases hj; cases ht; exact hdir d hd
    busy_frozen := fun _ => hfrozen
    waiting_iff := fun c' => by
      have hw : ({ s with draws := d } : State).isWaiting c' = false := h.not_isWaiting_of_idle hidle c'
      rw [State.isWaiting_afterAccept, hw]
      simp [State.afterAccept, eq_comm]
    reset_field := fun phy hj => hfield phy (Option.some.inj hj)
    ta_unused := fun hp => by
      show (if t.dir = .read then none else s.ta) = none
      rw [h.ta_unused hp, ite_self]
    hook_in_frame := fun hw => by
      have hw' : s.hookWaits = true := hw
      simp [h.hookWaits_of_idle hidle] at hw'
    regmap_wf := h.regmap_wf }

/-- The next stage of a job keeps the bus and loads its frame (43_client R277, R280). -/
theorem Coherent.afterStage {j : Job} {t : Transaction} (hb : s.busy = true) (hk : s.hookWaits = false)
    (hdir : ∀ d, j.dir = some d → t.dir = d) (hreset : ∀ phy, j ≠ .resetRead phy) : Coherent (s.afterStage j t) where
  job_iff := hb.symm
  owner_iff := h.owner_iff
  txn_iff := hb.symm
  idle_empty := by simp [hb]
  actions_of_txn := fun _ ht => by cases ht; rfl
  pc_le := Nat.zero_le _
  dir_of_job := fun _ _ d hj ht hd => by cases hj; cases ht; exact hdir d hd
  busy_frozen := h.busy_frozen
  waiting_iff := h.waiting_iff
  reset_field := fun phy hj => absurd (Option.some.inj hj) (hreset phy)
  ta_unused := fun hp => by
    show (if t.dir = .read then none else s.ta) = none
    rw [h.ta_unused hp, ite_self]
  hook_in_frame := by simp [hk]
  regmap_wf := h.regmap_wf

/-- A job's result goes to the caller that holds the bus, and the framer to IDLE (42_frame_engine R232). -/
theorem Coherent.afterFinish {c : Nat} (ho : s.owner = some c) (hk : s.hookWaits = false) (r : Result) :
    Coherent (s.afterFinish c r) := by
  refine .of_idle rfl rfl rfl rfl rfl rfl (fun d => ?_) hk h.ta_unused h.regmap_wf
  rw [Bool.eq_false_iff, Ne, State.isWaiting_afterFinish, h.waiting_iff, ho, Option.some.injEq]
  exact fun ⟨hne, heq⟩ => hne heq.symm

/-- Block reset ends every frame, request and hook call (70 R340, R341). -/
theorem Coherent.blockReset : Coherent s.blockReset :=
  .of_idle rfl rfl rfl rfl rfl rfl (fun _ => rfl) rfl (fun _ => rfl) h.regmap_wf

/-- The hook may begin to wait while it runs (70 R352). -/
theorem Coherent.hookAsks (hin : s.inHook = true) (bytes : List Byte) (waits : Bool) :
    Coherent (s.hookAsks bytes waits) :=
  { h with hook_in_frame := fun _ => hin }

/-- A transport action of the frame in flight, with the pc moved behind it (42_frame_engine R230). -/
theorem Coherent.performTo_advancePc (hk : s.hookWaits = false) {a : Action} (ha : s.actions[s.pc]? = some a)
    (d : SampleDest) : Coherent (s.performTo d a).advancePc := by
  have hta (hp : s.params.checkTa = false) : (s.performTo d a).ta = none :=
    (s.performAll_ta d [a] hp).trans (h.ta_unused hp)
  obtain ⟨hlt, -⟩ := List.getElem?_eq_some_iff.1 ha
  have busy : s.busy = true := by
    by_contra hb
    rw [(h.idle_empty (by simpa using hb)).1] at hlt
    simp at hlt
  rw [State.performTo_frame]
  exact { h.with_data hta (s.performTo d a).rdata (s.performTo d a).lines (s.performTo d a).trace s.refusalMark s.inbox
            s.turn (s.performTo d a).draws with
    idle_empty := by simp [busy]
    pc_le := hlt
    hook_in_frame := by simp [hk] }

/-- The framer's step (42_frame_engine R230, R232). -/
theorem Coherent.framerStep {t : State} (hb : s.busy = true) (hk : s.hookWaits = false)
    (ht : framerStep s = .next t) : Coherent t := by
  rcases framerStep_next_cases ht with ⟨a, ha, rfl⟩ | ⟨c, r, ho, rfl⟩ | ⟨j, x, rfl, hdir, hreset⟩
  · exact h.performTo_advancePc hk ha _
  · exact h.afterFinish ho hk r
  · exact h.afterStage hb hk hdir hreset

/-- A caller's request (42_frame_engine R228). -/
theorem Coherent.exec {t : State} {i : Instr} {c : Nat} (hc : callerOf i = some c) (ht : exec i s = .next t) :
    Coherent t := by
  obtain ⟨d, rfl | ⟨e, rfl⟩ | ⟨_, m, f, v, rfl, hf, hm⟩ | ⟨_, j, x, hs, rfl⟩⟩ := exec_next_cases hc ht
  · exact h.with_refusalMark true
  · exact h.afterError d c e
  · exact h.afterOk hf hm d c i v
  · exact h.afterAccept hs d c i

theorem Coherent.takeRecord {t : State} {bytes : List Byte} (ht : takeRecord bytes s = .next t) : Coherent t := by
  rcases takeRecord_cases bytes s with ⟨i, c, _, hc, e⟩ | ⟨_, e⟩ <;> rw [e] at ht
  · exact h.exec hc ht
  · cases ht
    exact h.with_refusalMark true

/-- An input that may come (42_frame_engine R238, 70 R352): the hook's only while the hook runs. -/
theorem Coherent.takeInput {t : State} {inp : Input} (hin : ∀ bytes w, inp = .hook bytes w → s.inHook = true)
    (ht : takeInput inp s = .next t) : Coherent t := by
  rcases takeInput_cases inp s with ⟨_, e⟩ | ⟨bytes, _, e⟩ | ⟨bytes, w, hi, e⟩ <;> rw [e] at ht
  · cases ht
    exact h.blockReset
  · exact h.takeRecord ht
  · exact (h.hookAsks (hin bytes w hi) bytes w).takeRecord ht

end coherent

/-- The hook's input is ready only while the hook runs (70 R352). -/
theorem State.inHook_of_ready_hook {s : State} {bytes : List Byte} {w : Bool} (h : s.ready (.hook bytes w) = true) :
    s.inHook = true := by
  simp only [State.ready, Bool.and_eq_true] at h
  exact h.1

/-- Settles O7: by the move that the step makes, the framer's or an input's, in the state with the turn redrawn. -/
theorem everyStepKeepsCoherence : Obligations.EveryStepKeepsCoherence := by
  intro s t h ht
  rcases step_cases s with ⟨_, e⟩ | ⟨_, hb, hk, e⟩ | ⟨inp, rest, _, hr, e⟩ <;> rw [e] at ht
  · cases ht
    exact h
  · exact h.settleTurn.framerStep (by simpa using hb) (by simpa using hk) ht
  · refine (h.settleTurn.with_inbox rest).takeInput (fun bytes w hi => ?_) ht
    subst hi
    simpa [State.inHook] using State.inHook_of_ready_hook hr

end Sys2Proof.Machine

/-! ### The configuration after FREEZE (10_state R47, 40_register_model R147) -/

namespace Sys2Proof.Machine

/-- A request can change REGMAP and S.frozen only before FREEZE. -/
theorem exec_keeps_frozenConfig {s t : State} {i : Instr} {c : Nat} (hc : callerOf i = some c) (hf : s.frozen = true)
    (ht : exec i s = .next t) : t.frozen = true ∧ t.regmap = s.regmap := by
  obtain ⟨d, rfl | ⟨e, rfl⟩ | ⟨_, m, f, v, rfl, hkeep, _⟩ | ⟨_, j, x, _, rfl⟩⟩ := exec_next_cases hc ht
  · exact ⟨hf, rfl⟩
  · exact ⟨hf, rfl⟩
  · exact (hkeep hf).symm
  · exact ⟨hf, rfl⟩

theorem takeRecord_keeps_frozenConfig {s t : State} {bytes : List Byte} (hf : s.frozen = true)
    (ht : takeRecord bytes s = .next t) : t.frozen = true ∧ t.regmap = s.regmap := by
  rcases takeRecord_cases bytes s with ⟨i, c, _, hc, e⟩ | ⟨_, e⟩ <;> rw [e] at ht
  · exact exec_keeps_frozenConfig hc hf ht
  · cases ht
    exact ⟨hf, rfl⟩

theorem takeInput_keeps_frozenConfig {s t : State} {inp : Input} (hf : s.frozen = true)
    (ht : takeInput inp s = .next t) : t.frozen = true ∧ t.regmap = s.regmap := by
  rcases takeInput_cases inp s with ⟨_, e⟩ | ⟨bytes, _, e⟩ | ⟨bytes, w, _, e⟩ <;> rw [e] at ht
  · cases ht
    exact ⟨hf, rfl⟩
  · exact takeRecord_keeps_frozenConfig hf ht
  · exact takeRecord_keeps_frozenConfig (s := s.hookAsks bytes w) hf ht

/-- The framer never writes REGMAP or S.frozen. -/
theorem framerStep_keeps_config {s t : State} (ht : framerStep s = .next t) :
    t.frozen = s.frozen ∧ t.regmap = s.regmap := by
  rcases framerStep_next_cases ht with ⟨a, _, rfl⟩ | ⟨c, r, _, rfl⟩ | ⟨j, x, rfl, _⟩
  · rw [State.performTo_frame]
    exact ⟨rfl, rfl⟩
  · exact ⟨rfl, rfl⟩
  · exact ⟨rfl, rfl⟩

/-- Settles O9: by the move that the step makes. -/
theorem frozenConfigurationNeverChanges : Obligations.FrozenConfigurationNeverChanges := by
  intro s t hf ht
  rcases step_cases s with ⟨_, e⟩ | ⟨_, _, _, e⟩ | ⟨inp, rest, _, _, e⟩ <;> rw [e] at ht
  · cases ht
    exact ⟨hf, rfl⟩
  · simpa [hf] using framerStep_keeps_config ht
  · simpa using takeInput_keeps_frozenConfig (s := { s.settleTurn with inbox := rest }) (by simpa using hf) ht

end Sys2Proof.Machine

/-! ### Power-up, and requests that name a view (10_state R45, R49) -/

namespace Sys2Proof.Machine

/-- Settles O1: the fields of `State.reset`, which is written out as the table of 10_state R49. -/
theorem powerUpStateIsIdle : Obligations.PowerUpStateIsIdle :=
  ⟨rfl, rfl, rfl, rfl, rfl, rfl, rfl, rfl, rfl, rfl, rfl, rfl⟩

/-- A view of a register that REGMAP does not hold is refused, unless its caller waits (log entry 14). -/
theorem State.answerView_of_regFind_none {s : State} {c : Nat} {v : FieldView} (hw : s.isWaiting c = false)
    (hr : regFind s.regmap v.addr = none) (i : Instr) (f : RegDef → Except Error Value) :
    s.answerView c i v f = .next s.refuse := by
  simp [State.answerView, hr, hw]

/-- A view of a register that REGMAP holds is answered from its definition (10_state R45). -/
theorem State.answerView_of_regFind_some {s : State} {c : Nat} {v : FieldView} {r : RegDef} {i : Instr}
    {f : RegDef → Except Error Value} (hr : regFind s.regmap v.addr = some r) :
    s.answerView c i v f = s.answer c i ((f r).map fun x => (x, s)) := by
  rw [State.answerView, hr]

/-- Settles O47: both requests name a view, so both are answered by `State.answerView`. -/
theorem viewOfNoRegisterIsRefused : Obligations.ViewOfNoRegisterIsRefused :=
  fun _ _ _ hw hr => ⟨fun _ => State.answerView_of_regFind_none hw hr .., State.answerView_of_regFind_none hw hr ..⟩

end Sys2Proof.Machine

/-! ### Requests that do not use the bus (10_state R31, 42_frame_engine R228) -/

namespace Sys2Proof.Machine

open Sys2Proof.Config

/-- `s` with S.busy set to `b`. -/
def State.withBusy (s : State) (b : Bool) : State := { s with busy := b }

@[simp] theorem State.withBusy_regmap (s : State) (b : Bool) : (s.withBusy b).regmap = s.regmap := rfl

/-- The result of a request with S.busy set to `b` in the state it leaves. -/
def resultWithBusy (b : Bool) (r : Except Error (Value × State)) : Except Error (Value × State) :=
  r.map fun x => (x.1, x.2.withBusy b)

section checks
variable {b : Bool} {next : Except Error (Value × State)}

@[simp] theorem resultWithBusy_ok (v : Value) (s : State) :
    resultWithBusy b (.ok (v, s)) = .ok (v, s.withBusy b) := rfl

@[simp] theorem resultWithBusy_error (e : Error) : resultWithBusy b (.error e) = .error e := rfl

@[simp] theorem resultWithBusy_map {α : Type} (p : Except Error α) (f : α → Value) (s : State) :
    resultWithBusy b (p.map fun x => (f x, s)) = p.map fun x => (f x, s.withBusy b) := by
  cases p <;> rfl

/-- No check of a request that does not use the bus looks at S.busy. -/
@[simp] theorem resultWithBusy_checkAddr (a : Nat) :
    resultWithBusy b (checkAddr a next) = checkAddr a (resultWithBusy b next) :=
  apply_ite ..

@[simp] theorem resultWithBusy_withReg (m : RegMap) (a : Nat) (f : RegDef → Except Error (Value × State)) :
    resultWithBusy b (withReg m a f) = withReg m a fun r => resultWithBusy b (f r) := by
  unfold withReg
  split <;> rfl

@[simp] theorem resultWithBusy_needUnfrozen (s : State) :
    resultWithBusy b (s.needUnfrozen next) = (s.withBusy b).needUnfrozen (resultWithBusy b next) :=
  apply_ite ..

end checks

section ignores
variable {s t : State} {c : Nat} {i : Instr} {b : Bool}

/-- A request whose result does not depend on S.busy is answered in the same way whatever S.busy is. -/
theorem State.answer_withBusy {r r' : Except Error (Value × State)} (hr : r' = resultWithBusy b r)
    (h : s.answer c i r = .next t) : (s.withBusy b).answer c i r' = .next (t.withBusy b) := by
  subst hr
  rcases s.answer_cases c i r with ⟨_, e⟩ | ⟨hw, v, s', rfl, e⟩ | ⟨hw, err, rfl, e⟩ <;> rw [e] at h <;> cases h
  · exact State.answer_ok hw
  · exact State.answer_error hw

/-- A view is found in REGMAP and gives its fields whatever S.busy is. -/
theorem State.answerView_withBusy {v : FieldView} {f : RegDef → Except Error Value}
    (h : s.answerView c i v f = .next t) : (s.withBusy b).answerView c i v f = .next (t.withBusy b) := by
  cases hr : regFind s.regmap v.addr with
  | some r =>
    rw [State.answerView_of_regFind_some hr] at h
    rw [State.answerView_of_regFind_some (s := s.withBusy b) hr]
    exact State.answer_withBusy (resultWithBusy_map ..).symm h
  | none =>
    cases hw : s.isWaiting c
    · rw [State.answerView_of_regFind_none hw hr] at h
      cases h
      exact State.answerView_of_regFind_none (s := s.withBusy b) hw hr ..
    · simp [State.answerView, hr, hw] at h

/-- No request that does not use the bus reads or writes S.busy (10_state R31). -/
theorem exec_withBusy (hc : callerOf i = some c) (hu : usesBus i = false) (h : exec i s = .next t) :
    exec i (s.withBusy b) = .next (t.withBusy b) := by
  cases i <;> cases hu <;> cases hc
  case invalid0 => cases h; rfl
  case invalidF => cases h; rfl
  case viewGet => exact State.answerView_withBusy h
  case viewFields => exact State.answerView_withBusy h
  case defineRegister addr width name =>
    refine State.answer_withBusy ?_ h
    simp only [resultWithBusy_needUnfrozen, resultWithBusy_checkAddr, apply_ite (resultWithBusy b),
      resultWithBusy_error, resultWithBusy_ok]
    rfl
  case defineField addr name off w =>
    refine State.answer_withBusy ?_ h
    simp only [resultWithBusy_needUnfrozen, resultWithBusy_checkAddr, resultWithBusy_withReg,
      apply_ite (resultWithBusy b), resultWithBusy_error, resultWithBusy_ok]
    rfl
  case freeze =>
    refine State.answer_withBusy ?_ h
    rw [resultWithBusy_needUnfrozen, resultWithBusy_ok]
    rfl
  case lookup addr =>
    refine State.answer_withBusy ?_ h
    simp
  case pack addr F base =>
    refine State.answer_withBusy (s := s.tick) ?_ h
    exact (resultWithBusy_map _ _ s.tick).symm
  case unpack addr word =>
    refine State.answer_withBusy ?_ h
    simp [apply_ite (resultWithBusy b)]
  case reverse v n =>
    refine State.answer_withBusy ?_ h
    simp [apply_ite (resultWithBusy b)]

end ignores

/-- Settles O30: the outcomes of such a request show what it leaves alone. -/
theorem registerModelIgnoresTheBus : Obligations.RegisterModelIgnoresTheBus := by
  intro i c b s t hc hu ht
  refine ⟨exec_withBusy hc hu ht, ?_⟩
  obtain ⟨d, rfl | ⟨e, rfl⟩ | ⟨_, m, f, v, rfl, _⟩ | ⟨hu', _⟩⟩ := exec_next_cases hc ht
  · exact ⟨rfl, rfl, rfl, rfl, rfl, rfl, rfl, rfl, rfl, rfl⟩
  · exact ⟨rfl, rfl, rfl, rfl, rfl, rfl, rfl, rfl, rfl, rfl⟩
  · exact ⟨rfl, rfl, rfl, rfl, rfl, rfl, rfl, rfl, rfl, rfl⟩
  · simp [hu] at hu'

end Sys2Proof.Machine

/-! ### What a client operation sends (20_memory R71, R72; 43_client R271, R277) -/

namespace Sys2Proof.Machine

open Sys2Proof.Config

/-- A register-model address is extended exactly above the base bank's 32 (20_memory R71). -/
theorem isExtended_iff {a : Nat} (ha : a ≤ 63) : isExtended a = true ↔ 31 < a := by
  simp only [isExtended, extBitPos, Nat.testBit_eq_decide_div_mod_eq, decide_eq_true_eq]
  omega

theorem isExtended_of_le {a : Nat} (ha : a ≤ 31) : isExtended a = false :=
  Bool.eq_false_iff.2 fun h => absurd ((isExtended_iff (by omega)).1 h) (by omega)

/-- A base-bank register's wire address is its own number (20_memory R72, 30_encoding R105). -/
theorem toNat_wireAddress {a : Nat} (ha : a ≤ 31) : (BitVec.ofNat 5 a).toNat = a := by
  rw [BitVec.toNat_ofNat]
  omega

section plans
variable {a : Nat} (phy : Nat) (F : FieldMap) (base : Option FieldView) (w : Word)

/-- A base-bank register is read by one frame at its own address (43_client R271). -/
theorem readPlan_base (ha : a ≤ 31) :
    readPlan phy a = (.readReg phy a, .read (BitVec.ofNat 5 phy) (BitVec.ofNat 5 a)) := by
  simp [readPlan, isExtended_of_le ha, wireIndex]

/-- An extended register is read by its EXT_ACCESS transactions (43_client R277). -/
theorem readPlan_extended (ha : 31 < a) (hm : a ≤ 63) :
    readPlan phy a = (.extRead phy a (extTransactions (BitVec.ofNat 5 phy) a .read 0).2,
      (extTransactions (BitVec.ofNat 5 phy) a .read 0).1) := by
  simp [readPlan, (isExtended_iff hm).2 ha]

/-- A base-bank register is written by one frame at its own address (43_client R271). -/
theorem writePlan_base (ha : a ≤ 31) :
    writePlan phy a F base w =
      (.writeReg phy a F base w, .write (BitVec.ofNat 5 phy) (BitVec.ofNat 5 a) w) := by
  simp [writePlan, isExtended_of_le ha, wireIndex]

/-- An extended register is written by its EXT_ACCESS transactions (43_client R277). -/
theorem writePlan_extended (ha : 31 < a) (hm : a ≤ 63) :
    writePlan phy a F base w = (.extWrite phy a F base w (extTransactions (BitVec.ofNat 5 phy) a .write w).2,
      (extTransactions (BitVec.ofNat 5 phy) a .write w).1) := by
  simp [writePlan, (isExtended_iff hm).2 ha]

end plans

/-- EXT_ACCESS is supplied when an extended register has passed the bank's check (43_client R277). -/
theorem extAccess_supplied_of_extended {ext : ExtAccess} {a : Nat} (ha : 31 < a) (hm : a ≤ 63)
    (h : ext = .refuse → isExtended a = false) : ext = .supplied := by
  cases ext with
  | supplied => rfl
  | refuse => simp [(isExtended_iff hm).2 ha] at h

/-- A bus-using request that makes an idle block busy has passed its checks, and its first transaction is the one on
the wire (42_frame_engine R228). -/
theorem State.startJob_busy {s t : State} {c : Nat} {i : Instr} {r : Except Error (Job × Transaction)}
    (hs : s.busy = false) (h : s.startJob c i r = .next t) (ht : t.busy = true) :
    ∃ j x, r = .ok (j, x) ∧ t.txn = some x := by
  cases hw : s.isWaiting c with
  | true => simp [State.startJob, hw] at h
  | false =>
    cases r with
    | error e =>
      rw [State.startJob_error hw] at h
      cases h
      exact absurd (hs.symm.trans ht) Bool.false_ne_true
    | ok p =>
      rw [State.startJob_ok hw] at h
      cases h
      exact ⟨p.1, p.2, rfl, rfl⟩

/-- Settles O57: the block gets busy only with the first transaction of READ_REGISTER's or WRITE_REGISTER's plan, and
the plan is that of the register's bank. -/
theorem noExtendedAddressOnTheWire : Obligations.NoExtendedAddressOnTheWire := by
  rintro s t c phy a i hs (rfl | ⟨F, base, rfl⟩) he ht
  · obtain ⟨j, x, hj, hx⟩ := State.startJob_busy hs he ht
    obtain ⟨-, hm, hb, hp⟩ := readRegisterJob_ok hj
    refine ⟨fun ha => ?_, fun ha => ⟨extAccess_supplied_of_extended ha hm hb, .read, 0, ?_⟩⟩
    · rw [readPlan_base phy ha] at hp
      cases hp
      exact ⟨_, _, toNat_wireAddress ha, .inl hx⟩
    · rw [readPlan_extended phy ha hm] at hp
      cases hp
      exact hx
  · obtain ⟨j, x, hj, hx⟩ := State.startJob_busy (s := s.tick) hs he ht
    obtain ⟨-, hm, hb, w, hp⟩ := writeRegisterJob_ok hj
    refine ⟨fun ha => ?_, fun ha => ⟨extAccess_supplied_of_extended ha hm hb, .write, w, ?_⟩⟩
    · rw [writePlan_base phy F base w ha] at hp
      cases hp
      exact ⟨_, _, toNat_wireAddress ha, .inr ⟨w, hx⟩⟩
    · rw [writePlan_extended phy F base w ha hm] at hp
      cases hp
      exact hx

end Sys2Proof.Machine

/-! ### The decoder reads the encoder's bytes back (30_encoding R103, R108, R109) -/

namespace Sys2Proof

@[simp] theorem parseName_encodeName_append (n : String) (rest : List Byte) :
    parseName (encodeName n ++ rest) = .ok (n, rest) := parseName_encodeName n rest

@[simp] theorem parseView_encodeView_append (v : FieldView) (rest : List Byte) :
    parseView (encodeView v ++ rest) = .ok (v, rest) := parseView_encodeView v rest

@[simp] theorem parseOption_encodeNat_append (o : Option Nat) (rest : List Byte) :
    parseOption parseNat (encodeOption encodeNat o ++ rest) = .ok (o, rest) :=
  parseOption_encodeOption parseNat_encodeNat o rest

@[simp] theorem parseOption_encodeName_append (o : Option String) (rest : List Byte) :
    parseOption parseName (encodeOption encodeName o ++ rest) = .ok (o, rest) :=
  parseOption_encodeOption parseName_encodeName o rest

@[simp] theorem parseOption_encodeView_append (o : Option FieldView) (rest : List Byte) :
    parseOption parseView (encodeOption encodeView o ++ rest) = .ok (o, rest) :=
  parseOption_encodeOption parseView_encodeView o rest

/-- A request selector's byte has the high half 0 (log entry 7). -/
theorem decode_selector {b : Byte} (h : b.toNat / 16 = 0) (bs : List Byte) :
    decode (b :: bs) = parseRequest (b.toNat % 16) bs := by
  simp [decode, h]

/-- A transport action's byte has the high half 2 (log entry 7). -/
theorem decode_action {b : Byte} (h : b.toNat / 16 = 2) (bs : List Byte) : decode (b :: bs) = parseAction b bs := by
  simp [decode, h]

theorem decode_encode_drive (w : DriveWord) (rest : List Byte) :
    decode (encode (.drive w) ++ rest) = .ok (.drive w, rest) := by
  have code : ∀ w : DriveWord, (0b00101#5 ++ w).toNat / 16 = 2 ∧ (0b00101#5 ++ w).getLsbD 3 = true ∧
      (0b00101#5 ++ w).extractLsb' 0 3 = w := by decide
  obtain ⟨high, bit, word⟩ := code w
  rw [encode, List.singleton_append, decode_action high, parseAction, if_pos bit, word]

/-- WRITE_BIT(0, 0) has the word of RELEASE (41_bitbang R200). -/
theorem decode_encode_writeBit (v e : Bool) (rest : List Byte) :
    decode (encode (.writeBit v e) ++ rest) = .ok ((Instr.writeBit v e).canon, rest) := by
  cases v <;> cases e <;> rfl

/-- The decoder reads an instruction's bytes, whatever follows them. -/
theorem decode_encode {i : Instr} (hwf : i.wf = true) (rest : List Byte) :
    decode (encode i ++ rest) = .ok (i.canon, rest) := by
  cases i with
  | cl22WriteFrame c phy reg data =>
    rw [encode, List.append_assoc, decode_frameBytes _ _ (writeFrameWord_firstByte phy reg data)]
    simp [isWriteFrame_writeFrameWord, writeFrameWord_phy, writeFrameWord_reg, writeFrameWord_data, Instr.canon]
  | cl22ReadFrame c phy reg =>
    rw [encode, List.append_assoc, decode_frameBytes _ _ (readFrameWord_firstByte phy reg)]
    simp [isWriteFrame_readFrameWord, isReadFrame_readFrameWord, readFrameWord_phy, readFrameWord_reg, Instr.canon]
  | pack c a F base =>
    simp [encode, decode_selector, parseRequest, parseFieldMap_encodeFieldMap F hwf, Instr.canon]
  | writeRegister c phy a F base =>
    simp [encode, decode_selector, parseRequest, parseFieldMap_encodeFieldMap F hwf, Instr.canon]
  | drive w => exact decode_encode_drive w rest
  | writeBit v e => exact decode_encode_writeBit v e rest
  | sample | delay | readBit | release | relc | shiftIn => rfl
  | shiftOut v n e => simp [encode, decode, parseComposite, Instr.canon]
  | _ => simp [encode, decode_selector, parseRequest, Instr.canon]

/-- Zero bytes may pad a record (30_encoding R109). -/
theorem decodeRecord_of_decode_zeros {bs : List Byte} {i : Instr} {k : Nat}
    (h : decode bs = .ok (i, List.replicate k 0)) : decodeRecord bs = .ok i := by
  simp [decodeRecord, h]

/-- Settles O12: the decoder reads the instruction and leaves the padding, which is zeros. -/
theorem decodeOfEncodeIsCanonical : Obligations.DecodeOfEncodeIsCanonical :=
  fun _ _ hwf => decodeRecord_of_decode_zeros (decode_encode hwf _)

/-- Settles O15: the decoder evaluates each of the fixed words. -/
theorem specWordsDecode : Obligations.SpecWordsDecode := by
  unfold Obligations.SpecWordsDecode
  decide

end Sys2Proof
/-! ### The frame words and their table (30_encoding R101 to R103) -/

namespace Sys2Proof

/-- A masked word's field, where the mask covers it. -/
theorem extractLsb'_of_masked {F M k : BitVec 64} {start len : Nat} (h : F &&& k = M)
    (hk : k.extractLsb' start len = BitVec.allOnes len) : F.extractLsb' start len = M.extractLsb' start len := by
  rw [← h, BitVec.extractLsb'_and, hk, BitVec.and_allOnes]

/-- A masked word's low half is masked by the mask's low half. -/
theorem low_half_of_masked {F M k : BitVec 64} (h : F &&& k = M) :
    F.extractLsb' 0 32 &&& k.extractLsb' 0 32 = M.extractLsb' 0 32 := by
  rw [← h, BitVec.extractLsb'_and]

theorem isWriteFrame_iff {F : BitVec 64} :
    isWriteFrame F = true ↔ F &&& 0xFFFFFFFFF0030000#64 = 0xFFFFFFFF50020000#64 := by
  simp [isWriteFrame]

theorem isReadFrame_iff {F : BitVec 64} :
    isReadFrame F = true ↔ F &&& 0xFFFFFFFFF0000000#64 = 0xFFFFFFFF60000000#64 := by
  simp [isReadFrame]

/-- Settles O13: the 64-bit facts are those of `isWriteFrame` and `isReadFrame`, and the 32-bit ones their low halves. -/
theorem frameWordsMatchTheTable : Obligations.FrameWordsMatchTheTable := by
  intro phy reg data
  have hw := isWriteFrame_iff.1 (isWriteFrame_writeFrameWord phy reg data)
  have hr := isReadFrame_iff.1 (isReadFrame_readFrameWord phy reg)
  exact ⟨hw, hr, low_half_of_masked hw, low_half_of_masked hr⟩

/-- A frame word is its fields: preamble, ST and OP, phy, reg, TA, data. -/
theorem append_frame_fields (F : BitVec 64) :
    F.extractLsb' 32 32 ++ (F.extractLsb' 28 4 ++ F.extractLsb' 23 5 ++ F.extractLsb' 18 5 ++ F.extractLsb' 16 2 ++
      F.extractLsb' 0 16) = F := by
  rw [BitVec.extractLsb'_append_extractLsb'_eq_extractLsb' (by omega),
    BitVec.extractLsb'_append_extractLsb'_eq_extractLsb' (by omega),
    BitVec.extractLsb'_append_extractLsb'_eq_extractLsb' (by omega),
    BitVec.extractLsb'_append_extractLsb'_eq_extractLsb' (by omega),
    BitVec.extractLsb'_append_extractLsb'_eq_extractLsb' (by omega)]
  exact BitVec.extractLsb'_eq_self

/-- The same with the 18 positions that a read does not drive as one field. -/
theorem append_read_fields (F : BitVec 64) :
    F.extractLsb' 32 32 ++ (F.extractLsb' 28 4 ++ F.extractLsb' 23 5 ++ F.extractLsb' 18 5 ++ F.extractLsb' 0 18) =
      F := by
  rw [BitVec.extractLsb'_append_extractLsb'_eq_extractLsb' (by omega),
    BitVec.extractLsb'_append_extractLsb'_eq_extractLsb' (by omega),
    BitVec.extractLsb'_append_extractLsb'_eq_extractLsb' (by omega),
    BitVec.extractLsb'_append_extractLsb'_eq_extractLsb' (by omega)]
  exact BitVec.extractLsb'_eq_self

/-- A word that meets the write row is the write frame word of its own fields. -/
theorem writeFrameWord_fields {F : BitVec 64} (h : isWriteFrame F = true) :
    writeFrameWord (F.extractLsb' 23 5) (F.extractLsb' 18 5) (F.extractLsb' 0 16) = F := by
  have masked := isWriteFrame_iff.1 h
  have preamble : F.extractLsb' 32 32 = 0xFFFFFFFF#32 := extractLsb'_of_masked masked (by decide)
  have stOp : F.extractLsb' 28 4 = 0b0101#4 := extractLsb'_of_masked masked (by decide)
  have ta : F.extractLsb' 16 2 = 0b10#2 := extractLsb'_of_masked masked (by decide)
  rw [writeFrameWord, ← preamble, ← stOp, ← ta, append_frame_fields]

/-- A word that meets the read row agrees with the read frame word of its own fields where the block drives. -/
theorem readFrameWord_fields {F : BitVec 64} (h : isReadFrame F = true) :
    readFrameWord (F.extractLsb' 23 5) (F.extractLsb' 18 5) = F &&& 0xFFFFFFFFFFFC0000#64 := by
  have masked := isReadFrame_iff.1 h
  have preamble : F.extractLsb' 32 32 = 0xFFFFFFFF#32 := extractLsb'_of_masked masked (by decide)
  have stOp : F.extractLsb' 28 4 = 0b0110#4 := extractLsb'_of_masked masked (by decide)
  have driven {start len : Nat} (hk : (0xFFFFFFFFFFFC0000#64).extractLsb' start len = BitVec.allOnes len) :
      (F &&& 0xFFFFFFFFFFFC0000#64).extractLsb' start len = F.extractLsb' start len :=
    (extractLsb'_of_masked rfl hk).symm
  have undriven : (F &&& 0xFFFFFFFFFFFC0000#64).extractLsb' 0 18 = 0#18 := by
    rw [BitVec.extractLsb'_and]
    exact BitVec.and_zero
  rw [readFrameWord, ← append_read_fields (F &&& 0xFFFFFFFFFFFC0000#64), driven (by decide), driven (by decide),
    driven (by decide), driven (by decide), undriven, preamble, stOp]

/-! ### Which bytes decode to a frame -/

/-- The two wire-frame rows. -/
def Instr.isFrame : Instr → Bool
  | .cl22WriteFrame _ _ _ _ => true
  | .cl22ReadFrame _ _ _ => true
  | _ => false

/-- A parser's answer is not a frame. -/
def NotFrame (p : Parse Instr) : Prop := ∀ i rest, p = .ok (i, rest) → i.isFrame = false

theorem notFrame_error (e : DecodeError) : NotFrame (.error e) := by
  intro i rest h
  cases h

theorem notFrame_ok {i : Instr} (hi : i.isFrame = false) (rest : List Byte) : NotFrame (.ok (i, rest)) := by
  intro j rest' h
  cases h
  exact hi

theorem notFrame_parseThen {α : Type} {p : Parse α} {f : α → List Byte → Parse Instr} (h : ∀ a rest, NotFrame (f a rest)) :
    NotFrame (parseThen p f) := by
  cases p with
  | error e => exact notFrame_error e
  | ok x => exact h x.1 x.2

theorem notFrame_ite {c : Prop} [Decidable c] {p q : Parse Instr} (hp : NotFrame p) (hq : NotFrame q) :
    NotFrame (if c then p else q) := by
  split
  · exact hp
  · exact hq

theorem notFrame_parseRequest (sel : Nat) (bs : List Byte) : NotFrame (parseRequest sel bs) := by
  refine notFrame_parseThen fun c bs => ?_
  split <;> repeat refine notFrame_parseThen fun _ _ => ?_
  all_goals exact notFrame_ok rfl _

theorem notFrame_parseAction (b : Byte) (bs : List Byte) : NotFrame (parseAction b bs) :=
  notFrame_ite (notFrame_ok rfl _) (notFrame_ite (notFrame_ok rfl _) (notFrame_ite (notFrame_ok rfl _) (notFrame_error _)))

theorem notFrame_parseReadBit (bs : List Byte) : NotFrame (parseReadBit bs) := by
  unfold parseReadBit
  split
  · exact notFrame_ite (notFrame_ok rfl _) (notFrame_error _)
  · exact notFrame_error _

theorem notFrame_parseDriveSymbol (b : Byte) (bs : List Byte) : NotFrame (parseDriveSymbol b bs) := by
  unfold parseDriveSymbol
  split
  · refine notFrame_ite (notFrame_ok rfl _) (notFrame_ite ?_ (notFrame_ite (notFrame_ok rfl _) (notFrame_error _)))
    split
    · exact notFrame_ite (notFrame_ok rfl _) (notFrame_error _)
    · exact notFrame_error _
  · exact notFrame_error _

theorem notFrame_parseComposite (code : Nat) (b : Byte) (bs : List Byte) : NotFrame (parseComposite code b bs) := by
  unfold parseComposite
  split
  · exact notFrame_parseThen fun v _ => notFrame_parseThen fun n _ => notFrame_parseThen fun e _ => notFrame_ok rfl _
  · exact notFrame_ok rfl _
  · exact notFrame_error _

/-- Only a record whose first byte is eight ones decodes to a frame (30_encoding R103). -/
theorem notFrame_decode {b : Byte} (hb : b ≠ 0xFF#8) (bs : List Byte) : NotFrame (decode (b :: bs)) := by
  rw [decode]
  split
  · exact notFrame_parseRequest _ bs
  · exact notFrame_ite (notFrame_parseReadBit bs) (notFrame_error _)
  · exact notFrame_parseAction b bs
  · exact notFrame_parseComposite _ b bs
  · next high =>
    rw [if_neg fun low => hb (BitVec.eq_of_toNat_eq (by simp; omega))]
    exact notFrame_error _
  · exact notFrame_ite (notFrame_parseDriveSymbol b bs) (notFrame_error _)

/-- What the decoder read when a record decodes. -/
theorem decode_of_decodeRecord {bs : List Byte} {i : Instr} (h : decodeRecord bs = .ok i) :
    ∃ rest, decode bs = .ok (i, rest) := by
  unfold decodeRecord at h
  split at h
  · next j rest hj =>
    split at h <;> cases h
    exact ⟨rest, hj⟩
  · cases h

theorem parseThen_eq_ok {α β : Type} {p : Parse α} {f : α → List Byte → Parse β} {x : β × List Byte}
    (h : parseThen p f = .ok x) : ∃ a rest, p = .ok (a, rest) ∧ f a rest = .ok x := by
  cases p with
  | error e => cases h
  | ok y => exact ⟨y.1, y.2, rfl, h⟩

/-- A frame word's record that decodes to a frame meets the row of that frame, whose fields it gives. -/
theorem decodeRecord_frameBytes {F : BitVec 64} {bs : List Byte} {i : Instr}
    (h : decodeRecord (frameBytes F ++ bs) = .ok i) (hi : i.isFrame = true) : ∃ c,
      (isWriteFrame F = true ∧ i = .cl22WriteFrame c (F.extractLsb' 23 5) (F.extractLsb' 18 5) (F.extractLsb' 0 16)) ∨
      (isReadFrame F = true ∧ i = .cl22ReadFrame c (F.extractLsb' 23 5) (F.extractLsb' 18 5)) := by
  obtain ⟨rest, hd⟩ := decode_of_decodeRecord h
  have first : F.extractLsb' 56 8 = 0xFF#8 := by
    by_contra hne
    exact absurd (notFrame_decode hne _ i rest hd) (by simp [hi])
  rw [decode_frameBytes F bs first] at hd
  split at hd
  · next hw =>
    obtain ⟨c, _, _, hc⟩ := parseThen_eq_ok hd
    cases hc
    exact ⟨c, .inl ⟨hw, rfl⟩⟩
  · split at hd
    · next hr =>
      obtain ⟨c, _, _, hc⟩ := parseThen_eq_ok hd
      cases hc
      exact ⟨c, .inr ⟨hr, rfl⟩⟩
    · cases hd

/-- Settles O14: a frame decodes through its own row's match, and what matches neither row is refused. -/
theorem onlyTableFramesDecode : Obligations.OnlyTableFramesDecode := by
  intro F bs
  refine ⟨fun c phy reg data h => ?_, fun c phy reg h => ?_, fun first hw hr => ?_⟩
  · obtain ⟨_, ⟨hw, hi⟩ | ⟨_, hi⟩⟩ := decodeRecord_frameBytes h rfl <;> cases hi
    exact (writeFrameWord_fields hw).symm
  · obtain ⟨_, ⟨_, hi⟩ | ⟨hr, hi⟩⟩ := decodeRecord_frameBytes h rfl <;> cases hi
    exact (readFrameWord_fields hr).symm
  · rw [decodeRecord, decode_frameBytes F bs first, if_neg (isWriteFrame_iff.not.2 hw), if_neg (isReadFrame_iff.not.2 hr)]

end Sys2Proof
/-! ### Frames on the wire (30_encoding R101 to R104, R115) -/

namespace Sys2Proof.Machine

open Sys2Proof.Config

/-! #### The bits of a word (00_scope R11) -/

/-- The bits of a word are its bits from the most significant down. -/
theorem bits_toNat {n : Nat} (x : BitVec n) : bits x.toNat n = (List.range n).map fun k => x.getLsbD (n - 1 - k) := rfl

theorem bits_append {m n : Nat} (x : BitVec m) (y : BitVec n) :
    bits (x ++ y).toNat (m + n) = bits x.toNat m ++ bits y.toNat n := by
  simp only [bits_toNat, List.range_add, List.map_append, List.map_map]
  congr 1 <;> refine List.map_congr_left fun k hk => ?_ <;> rw [List.mem_range] at hk
  · simp only [BitVec.getLsbD_append]
    rw [if_neg (by omega)]
    congr 1
    omega
  · simp only [Function.comp, BitVec.getLsbD_append]
    rw [if_pos (by omega)]
    congr 1
    omega

/-- The bits of a write frame word, field by field (30_encoding R103). -/
theorem bits_writeFrameWord (phy reg : Addr5) (data : Word) :
    bits (writeFrameWord phy reg data).toNat 64 =
      List.replicate 32 true ++ [false, true] ++ [false, true] ++ bits phy.toNat 5 ++ bits reg.toNat 5 ++
        [true, false] ++ bits data.toNat 16 := by
  have preamble : bits (0xFFFFFFFF#32).toNat 32 = List.replicate 32 true := by decide
  have stOp : bits (0b0101#4).toNat 4 = [false, true] ++ [false, true] := by decide
  have ta : bits (0b10#2).toNat 2 = [true, false] := by decide
  rw [writeFrameWord, bits_append (m := 32) (n := 32), bits_append (m := 16) (n := 16), bits_append (m := 14) (n := 2),
    bits_append (m := 9) (n := 5), bits_append (m := 4) (n := 5), preamble, stOp, ta]
  simp only [List.append_assoc]

/-! #### Symbol by symbol -/

/-- Behind a low clock the actions put these bits on the wire and leave the clock low. -/
def PutsBits (l : List Action) (bs : List (Option Bool)) : Prop :=
  ∀ rest, wireBits false (l ++ rest) = bs ++ wireBits false rest

theorem PutsBits.wireBits_eq {l : List Action} {bs : List (Option Bool)} (h : PutsBits l bs) : wireBits false l = bs := by
  simpa [wireBits] using h []

theorem PutsBits.append {l l' : List Action} {bs bs' : List (Option Bool)} (h : PutsBits l bs) (h' : PutsBits l' bs') :
    PutsBits (l ++ l') (bs ++ bs') := by
  intro rest
  rw [List.append_assoc, h, h', List.append_assoc]

theorem PutsBits.flatMap {α : Type} {f : α → List Action} {g : α → Option Bool} (h : ∀ a, PutsBits (f a) [g a])
    (l : List α) : PutsBits (l.flatMap f) (l.map g) := by
  induction l with
  | nil => exact fun _ => rfl
  | cons a l ih => exact (h a).append ih

theorem putsBits_writeBitActions (v e : Bool) : PutsBits (writeBitActions v e) [if e then some v else none] := by
  cases v <;> cases e <;> exact fun _ => rfl

theorem putsBits_releaseActions : PutsBits releaseActions [none] := fun _ => rfl

theorem putsBits_relcActions : PutsBits relcActions [none] := fun _ => rfl

theorem putsBits_readBitActions (sp : SamplePoint) : PutsBits (readBitActions sp) [none] := by
  cases sp <;> exact fun _ => rfl

theorem putsBits_shiftOutActions (v n : Nat) : PutsBits (shiftOutActions v n true) ((bits v n).map some) :=
  PutsBits.flatMap (fun b => putsBits_writeBitActions b true) (bits v n)

theorem putsBits_shiftInActions (sp : SamplePoint) : PutsBits (shiftInActions sp) (List.replicate 16 none) :=
  PutsBits.flatMap (fun _ => putsBits_readBitActions sp) (List.replicate 16 ())

theorem putsBits_headerActions (op : Nat) (phy reg : Addr5) : PutsBits (headerActions op phy reg)
    ((List.replicate 32 true ++ [false, true] ++ bits op 2 ++ bits phy.toNat 5 ++ bits reg.toNat 5).map some) := by
  have preamble : bits 0xFFFFFFFF 32 = List.replicate 32 true := by decide
  have start : bits 0b01 2 = [false, true] := by decide
  rw [← preamble, ← start]
  simp only [List.map_append]
  exact ((((putsBits_shiftOutActions _ _).append (putsBits_shiftOutActions _ _)).append
    (putsBits_shiftOutActions _ _)).append (putsBits_shiftOutActions _ _)).append (putsBits_shiftOutActions _ _)

/-! #### The frames -/

/-- A frame's first action takes the clock low, so its level before the frame is of no account. -/
theorem wireBits_headerActions_append (clk : Bool) (op : Nat) (phy reg : Addr5) (l : List Action) :
    wireBits clk (headerActions op phy reg ++ l) = wireBits false (headerActions op phy reg ++ l) := by
  cases clk <;> rfl

theorem putsBits_writeActions (phy reg : Addr5) (data : Word) :
    PutsBits (writeActions phy reg data) ((bits (writeFrameWord phy reg data).toNat 64).map some) := by
  have opcode : bits 0b01 2 = [false, true] := by decide
  have ta : bits 0b10 2 = [true, false] := by decide
  rw [bits_writeFrameWord, ← ta, List.map_append, List.map_append, ← opcode]
  exact ((putsBits_headerActions 0b01 phy reg).append (putsBits_shiftOutActions _ _)).append
    (putsBits_shiftOutActions _ _)

/-- Settles O39: the frame's bits are those of its word, and the word's bits are those of its fields. -/
theorem writeFrameOnTheWire : Obligations.WriteFrameOnTheWire := by
  intro phy reg data clk
  have wire : wireBits clk (writeActions phy reg data) = (bits (writeFrameWord phy reg data).toNat 64).map some := by
    rw [← (putsBits_writeActions phy reg data).wireBits_eq]
    simp only [writeActions, List.append_assoc]
    exact wireBits_headerActions_append clk ..
  refine ⟨by rw [wire, bits_writeFrameWord], ?_⟩
  rw [wire, bits_toNat, List.map_map]
  rfl

theorem putsBits_readActions (p : Params) (phy reg : Addr5) : PutsBits (readActions p phy reg)
    ((List.replicate 32 true ++ [false, true] ++ [true, false] ++ bits phy.toNat 5 ++ bits reg.toNat 5).map some ++
      List.replicate 20 none) := by
  have opcode : bits 0b10 2 = [true, false] := by decide
  have checked : PutsBits (if p.checkTa then relcActions else releaseActions) [none] := by
    split
    · exact putsBits_relcActions
    · exact putsBits_releaseActions
  have released := ((putsBits_releaseActions.append checked).append (putsBits_shiftInActions p.samplePoint)).append
    (putsBits_releaseActions.append putsBits_releaseActions)
  rw [← opcode, readActions, List.append_assoc, List.append_assoc, ← List.append_assoc (_ ++ _)]
  exact (putsBits_headerActions 0b10 phy reg).append released

/-- Settles O40: the header's driven bits, then one released bit a symbol. -/
theorem readFrameOnTheWire : Obligations.ReadFrameOnTheWire := by
  intro p phy reg clk
  rw [← (putsBits_readActions p phy reg).wireBits_eq]
  simp only [readActions, List.append_assoc]
  exact wireBits_headerActions_append clk ..

end Sys2Proof.Machine
/-! ### The words a frame drives (30_encoding R106, R111) -/

namespace Sys2Proof.Machine

open Sys2Proof.Config

/-- Every Drive of the list has one of the six words of 30_encoding R106. -/
def DrivesEmittedWords (l : List Action) : Prop := ∀ w, .drive w ∈ l → w ∈ emittedWords

theorem DrivesEmittedWords.append {l l' : List Action} (h : DrivesEmittedWords l) (h' : DrivesEmittedWords l') :
    DrivesEmittedWords (l ++ l') :=
  fun w hw => (List.mem_append.1 hw).elim (h w) (h' w)

theorem DrivesEmittedWords.flatMap {α : Type} {f : α → List Action} (h : ∀ a, DrivesEmittedWords (f a)) (l : List α) :
    DrivesEmittedWords (l.flatMap f) := by
  intro w hw
  obtain ⟨a, -, ha⟩ := List.mem_flatMap.1 hw
  exact h a w ha

/-- A driven WRITE_BIT; an undriven one of 1 would have the words 100 and 101 (41_bitbang R197). -/
theorem drivesEmittedWords_writeBitActions (v : Bool) : DrivesEmittedWords (writeBitActions v true) := by
  unfold DrivesEmittedWords
  revert v
  decide

theorem drivesEmittedWords_releaseActions : DrivesEmittedWords releaseActions := by
  unfold DrivesEmittedWords
  decide

theorem drivesEmittedWords_relcActions : DrivesEmittedWords relcActions := by
  unfold DrivesEmittedWords
  decide

theorem drivesEmittedWords_readBitActions (sp : SamplePoint) : DrivesEmittedWords (readBitActions sp) := by
  unfold DrivesEmittedWords
  cases sp <;> decide

theorem drivesEmittedWords_shiftOutActions (v n : Nat) : DrivesEmittedWords (shiftOutActions v n true) :=
  .flatMap drivesEmittedWords_writeBitActions (bits v n)

theorem drivesEmittedWords_shiftInActions (sp : SamplePoint) : DrivesEmittedWords (shiftInActions sp) :=
  .flatMap (fun _ => drivesEmittedWords_readBitActions sp) (List.replicate 16 ())

theorem drivesEmittedWords_headerActions (op : Nat) (phy reg : Addr5) :
    DrivesEmittedWords (headerActions op phy reg) :=
  ((((drivesEmittedWords_shiftOutActions _ _).append (drivesEmittedWords_shiftOutActions _ _)).append
    (drivesEmittedWords_shiftOutActions _ _)).append (drivesEmittedWords_shiftOutActions _ _)).append
    (drivesEmittedWords_shiftOutActions _ _)

theorem drivesEmittedWords_frameActions (p : Params) (t : Transaction) : DrivesEmittedWords (frameActions p t) := by
  cases t with
  | write phy reg data =>
    exact ((drivesEmittedWords_headerActions _ phy reg).append (drivesEmittedWords_shiftOutActions _ _)).append
      (drivesEmittedWords_shiftOutActions _ _)
  | read phy reg =>
    have checked : DrivesEmittedWords (if p.checkTa then relcActions else releaseActions) := by
      split
      · exact drivesEmittedWords_relcActions
      · exact drivesEmittedWords_releaseActions
    exact (((drivesEmittedWords_headerActions _ phy reg).append
      (drivesEmittedWords_releaseActions.append checked)).append (drivesEmittedWords_shiftInActions _)).append
      (drivesEmittedWords_releaseActions.append drivesEmittedWords_releaseActions)

/-! ### Who records a transport action (42_frame_engine R230, R231) -/

/-- From `s` to `t` the record grows, and by no transport action. -/
def NoActionRecorded (s t : State) : Prop := ∃ es, t.trace = s.trace ++ es ∧ ∀ e ∈ es, e.isAction = false

theorem noActionRecorded_of_trace_eq {s t : State} (h : t.trace = s.trace) : NoActionRecorded s t :=
  ⟨[], by simpa using h, by simp⟩

theorem exec_records_noAction {s t : State} {i : Instr} {c : Nat} (hc : callerOf i = some c) (ht : exec i s = .next t) :
    NoActionRecorded s t := by
  obtain ⟨d, rfl | ⟨e, rfl⟩ | ⟨_, m, f, v, rfl, _⟩ | ⟨_, j, x, _, rfl⟩⟩ := exec_next_cases hc ht
  · exact noActionRecorded_of_trace_eq rfl
  · exact ⟨_, rfl, by simp [Event.isAction]⟩
  · exact ⟨_, rfl, by simp [Event.isAction]⟩
  · exact ⟨_, rfl, by simp [Event.isAction]⟩

theorem takeRecord_records_noAction {s t : State} {bytes : List Byte} (ht : takeRecord bytes s = .next t) :
    NoActionRecorded s t := by
  rcases takeRecord_cases bytes s with ⟨i, c, _, hc, e⟩ | ⟨_, e⟩ <;> rw [e] at ht
  · exact exec_records_noAction hc ht
  · cases ht
    exact noActionRecorded_of_trace_eq rfl

/-- An input performs no transport action (42_frame_engine R238). -/
theorem takeInput_records_noAction {s t : State} {inp : Input} (ht : takeInput inp s = .next t) :
    NoActionRecorded s t := by
  rcases takeInput_cases inp s with ⟨_, e⟩ | ⟨bytes, _, e⟩ | ⟨bytes, w, _, e⟩ <;> rw [e] at ht
  · cases ht
    exact noActionRecorded_of_trace_eq rfl
  · exact takeRecord_records_noAction ht
  · exact takeRecord_records_noAction (s := s.hookAsks bytes w) ht

/-- A Drive that the framer's step records stands at S.pc in S.actions (10_state R33). -/
theorem framerStep_records_drive {s t : State} {es : List Event} {w : DriveWord} (ht : framerStep s = .next t)
    (hes : t.trace = s.trace ++ es) (hw : .drive w ∈ es) : s.actions[s.pc]? = some (.drive w) := by
  rcases framerStep_next_cases ht with ⟨a, ha, rfl⟩ | ⟨c, r, _, rfl⟩ | ⟨j, x, rfl, _⟩
  · have added : s.trace ++ eventsFrom s.draws [a] = s.trace ++ es := by
      rw [← hes]
      cases a <;> simp [State.advancePc, State.performTo, eventsFrom]
    rw [← List.append_cancel_left added] at hw
    cases a with
    | drive v =>
      obtain rfl : w = v := by simpa [eventsFrom] using hw
      exact ha
    | sample => simp [eventsFrom] at hw
    | delay => simp [eventsFrom] at hw
  · obtain rfl : [.respond c r] = es := List.append_cancel_left hes
    simp at hw
  · obtain rfl : es = [] := by simpa [State.afterStage] using hes
    simp at hw

/-- Settles O41: only the framer's step records a Drive, and the actions it performs are those of a frame. -/
theorem onlySixDriveWords : Obligations.OnlySixDriveWords := by
  refine ⟨drivesEmittedWords_frameActions, fun s t es w h ht hes hw => ?_⟩
  rcases step_cases s with ⟨_, e⟩ | ⟨_, hb, _, e⟩ | ⟨inp, rest, _, _, e⟩ <;> rw [e] at ht
  · cases ht
    obtain rfl : es = [] := by simpa using hes
    simp at hw
  · have at_pc := framerStep_records_drive ht (by simpa using hes) hw
    simp only [State.settleTurn_actions, State.settleTurn_pc] at at_pc
    obtain ⟨x, hx⟩ := Option.isSome_iff_exists.1 (h.txn_iff.trans hb)
    rw [h.actions_of_txn x hx] at at_pc
    exact drivesEmittedWords_frameActions _ x w (List.mem_of_getElem? at_pc)
  · obtain ⟨es', hes', hno⟩ := takeInput_records_noAction ht
    obtain rfl : es = es' := by simpa [hes] using hes'
    exact absurd (hno _ hw) (by simp [Event.isAction])

end Sys2Proof.Machine
/-! ### The wire frames as requests (30_encoding R101, R102; 42_frame_engine R226, R227) -/

namespace Sys2Proof.Machine

theorem State.needFrozen_of_frozen {α : Type} {s : State} (h : s.frozen = true) (next : Except Error α) :
    s.needFrozen next = next := if_pos h

theorem State.needFrozen_of_not_frozen {α : Type} {s : State} (h : s.frozen = false) (next : Except Error α) :
    s.needFrozen next = .error .configFrozen := if_neg (by simp [h])

theorem State.needIdle_of_idle {α : Type} {s : State} (h : s.busy = false) (next : Except Error α) :
    s.needIdle next = next := if_neg (by simp [h])

theorem State.needIdle_of_busy {α : Type} {s : State} (h : s.busy = true) (next : Except Error α) :
    s.needIdle next = .error .busBusy := if_pos h

section wire
variable {s : State} (phy reg : Addr5) (data : Word)

/-- A wire frame's operands are in range, so of PhyWrite's checks only those of the flags are left. -/
theorem phyWrite_wire : phyWrite s phy.toNat reg.toNat data.toNat = s.needFrozen (s.needIdle
    (.ok (.frame (.write phy.toNat reg.toNat data.toNat), .write phy reg data))) := by
  have hp : phy.toNat ≤ 31 := by omega
  have hr : reg.toNat ≤ 31 := by omega
  have hd : data.toNat ≤ 0xFFFF := by omega
  simp [phyWrite, hp, hr, hd]

/-- The same for PhyRead. -/
theorem phyRead_wire : phyRead s phy.toNat reg.toNat =
    s.needFrozen (s.needIdle (.ok (.frame (.read phy.toNat reg.toNat), .read phy reg))) := by
  have hp : phy.toNat ≤ 31 := by omega
  have hr : reg.toNat ≤ 31 := by omega
  simp [phyRead, hp, hr]

/-- The checks of the two flags, in their order, in front of a job (10_state R40, 42_frame_engine R229). -/
theorem State.startJob_flags {c : Nat} {i : Instr} {j : Job} {t : Transaction} (hw : s.isWaiting c = false) :
    (s.frozen = false →
      s.startJob c i (s.needFrozen (s.needIdle (.ok (j, t)))) = .next (s.afterError c .configFrozen)) ∧
    (s.frozen = true → s.busy = true →
      s.startJob c i (s.needFrozen (s.needIdle (.ok (j, t)))) = .next (s.afterError c .busBusy)) ∧
    (s.frozen = true → s.busy = false →
      s.startJob c i (s.needFrozen (s.needIdle (.ok (j, t)))) = .next (s.afterAccept c i j t)) := by
  refine ⟨fun hf => ?_, fun hf hb => ?_, fun hf hb => ?_⟩
  · rw [State.needFrozen_of_not_frozen hf, State.startJob_error hw]
  · rw [State.needFrozen_of_frozen hf, State.needIdle_of_busy hb, State.startJob_error hw]
  · rw [State.needFrozen_of_frozen hf, State.needIdle_of_idle hb, State.startJob_ok hw]

end wire

/-- Settles O45: behind the two flags' checks a wire frame loads its own transaction. -/
theorem wireFrameResult : Obligations.WireFrameResult := by
  intro s c phy reg data hw
  have write : exec (.cl22WriteFrame c phy reg data) s = s.startJob c (.cl22WriteFrame c phy reg data) _ :=
    congrArg (s.startJob c _) (phyWrite_wire phy reg data)
  have read : exec (.cl22ReadFrame c phy reg) s = s.startJob c (.cl22ReadFrame c phy reg) _ :=
    congrArg (s.startJob c _) (phyRead_wire phy reg)
  rw [write, read]
  obtain ⟨writeUnfrozen, writeBusy, writeIdle⟩ := State.startJob_flags hw
  obtain ⟨readUnfrozen, readBusy, readIdle⟩ := State.startJob_flags hw
  exact ⟨fun hf => ⟨writeUnfrozen hf, readUnfrozen hf⟩, fun hf hb => ⟨writeBusy hf hb, readBusy hf hb⟩,
    fun hf hb => ⟨writeIdle hf hb, readIdle hf hb⟩⟩

end Sys2Proof.Machine
/-! ### A table word placed for the next step (42_frame_engine R228, R230; log entry 16) -/

namespace Sys2Proof.Machine

open Sys2Proof.Config

theorem decodeRecord_of_decodeTableWord {nbits w : Nat} {i : Instr} (h : decodeTableWord nbits w = some i) :
    decodeRecord (tableBytes nbits w) = .ok i := by
  unfold decodeTableWord at h
  split at h <;> cases h
  assumption

/-! #### A request -/

theorem State.withWord_request {s : State} {bytes : List Byte} {i : Instr} {c : Nat} (hd : decodeRecord bytes = .ok i)
    (hc : callerOf i = some c) : s.withWord bytes = s.withRecord bytes := by
  simp [State.withWord, hd, hc]

/-- The first candidate is the choice of turn 0. -/
theorem choose_zero_cons {α : Type} (a : α) (l : List α) : choose 0 (a :: l) = some a := by
  cases l <;> simp [choose]

/-- A placed request is the first move: its caller waits for nothing and the framer has no job. -/
theorem State.withRecord_mover {s : State} {bytes : List Byte} {i : Instr} {c : Nat} (hd : decodeRecord bytes = .ok i)
    (hc : callerOf i = some c) (hn : c < s.params.nCallers) :
    (s.withRecord bytes).mover = some (.input (.record bytes) s.inbox) := by
  have ready : (s.withRecord bytes).ready (.record bytes) = true := by
    simp [State.ready, recordCaller, hd, hc, State.withRecord, State.isWaiting, hn]
  have moves : (s.withRecord bytes).moves = .input (.record bytes) s.inbox ::
      inputMoves (s.withRecord bytes) [.record bytes] s.inbox := by
    simp [State.moves, State.framerFree, inputMoves, ready]
  rw [State.mover, moves]
  exact choose_zero_cons _ _

theorem takeRecord_request {bytes : List Byte} {i : Instr} {c : Nat} (hd : decodeRecord bytes = .ok i)
    (hc : callerOf i = some c) (s : State) : takeRecord bytes s = exec i s := by
  simp [takeRecord, hd, hc]

/-! #### A row of the bit-bang layer -/

theorem State.withWord_primitive {s : State} {bytes : List Byte} {i : Instr} (hd : decodeRecord bytes = .ok i)
    (hc : callerOf i = none) : s.withWord bytes = s.withPrimitive i := by
  simp [State.withWord, hd, hc]

theorem length_writeBitActions (v e : Bool) : (writeBitActions v e).length = 6 := rfl

theorem length_shiftOutActions (v n : Nat) (e : Bool) : (shiftOutActions v n e).length = 6 * n := by
  simp [shiftOutActions, List.length_flatMap, length_writeBitActions, bits, Function.comp_def, Nat.mul_comm]

theorem length_headerActions (op : Nat) (phy reg : Addr5) : (headerActions op phy reg).length = 276 := by
  simp [headerActions, length_shiftOutActions, preambleLen]

theorem length_readBitActions (sp : SamplePoint) : (readBitActions sp).length = 6 := by
  cases sp <;> rfl

theorem length_shiftInActions (sp : SamplePoint) : (shiftInActions sp).length = 96 := by
  simp [shiftInActions, length_readBitActions]

/-- 42_frame_engine R224: 396 actions, 398 with CHECK_TA. -/
theorem length_readActions (p : Params) (phy reg : Addr5) :
    (readActions p phy reg).length = if p.checkTa then 398 else 396 := by
  cases h : p.checkTa <;>
    simp [readActions, length_headerActions, length_shiftInActions, h, releaseActions, relcActions]

theorem State.performAll_pc (s : State) (d : SampleDest) (l : List Action) : (s.performAll d l).pc = s.pc := by
  rw [State.performAll_frame]

/-- Where a row's place in a read frame sends its sampled bits. -/
def primitiveDest : Instr → SampleDest
  | .sample => .rdata
  | .readBit => .rdata
  | .shiftIn => .rdata
  | .relc => .ta
  | _ => .discard

/-- The phases of a read frame behind its header (42_frame_engine R225). -/
theorem phaseAt_read_of_ge {checkTa : Bool} {pc : Nat} (h : 276 ≤ pc) : phaseAt checkTa .read pc =
    if pc < 288 + (if checkTa then 2 else 0) then .turnaround
    else if pc < 384 + (if checkTa then 2 else 0) then .dataIn else .turnaround2 := by
  simp only [phaseAt]
  rw [if_neg (by omega), if_neg (by omega), if_neg (by omega), if_neg (by omega), if_neg (by omega)]

theorem phaseAt_turnaround {checkTa : Bool} {k : Nat} (h : k < 12) :
    phaseAt checkTa .read (276 + k) = .turnaround := by
  rw [phaseAt_read_of_ge (by omega), if_pos (by omega)]

theorem phaseAt_dataIn {checkTa : Bool} {k : Nat} (h : k < 96) :
    phaseAt checkTa .read ((if checkTa then 290 else 288) + k) = .dataIn := by
  rw [phaseAt_read_of_ge (by split <;> omega), if_neg (by split <;> omega), if_pos (by split <;> omega)]

/-- A row's samples fall where its place in the frame says. -/
theorem destOfPhase_primitivePlace {p : Params} {i : Instr} (hc : callerOf i = none) {k : Nat}
    (h : (primitiveActions p i)[k]? = some .sample) :
    destOfPhase (phaseAt p.checkTa .read (primitivePlace p i + k)) = primitiveDest i := by
  obtain ⟨hk, -⟩ := List.getElem?_eq_some_iff.1 h
  have mem := List.mem_of_getElem? h
  cases i <;> simp only [callerOf, reduceCtorEq] at hc
  case drive | delay | writeBit | release =>
    simp [primitiveActions, writeBitActions, releaseActions] at mem
  case shiftOut v n e =>
    simp [primitiveActions, shiftOutActions, writeBitActions] at mem
  case sample => exact congrArg destOfPhase (phaseAt_dataIn (hk.trans_le (by simp [primitiveActions])))
  case readBit =>
    exact congrArg destOfPhase (phaseAt_dataIn (hk.trans_le (by simp [primitiveActions, length_readBitActions])))
  case shiftIn =>
    exact congrArg destOfPhase (phaseAt_dataIn (hk.trans_le (by simp [primitiveActions, length_shiftInActions])))
  case relc =>
    exact congrArg destOfPhase (phaseAt_turnaround (hk.trans_le (by simp [primitiveActions, relcActions])))

theorem primitivePlace_le (p : Params) (i : Instr) : primitivePlace p i ≤ 290 := by
  cases h : p.checkTa <;> cases i <;> simp [primitivePlace, h]

section placed
variable {s : State} {i : Instr} (hc : callerOf i = none)

/-- The row's actions stand at S.pc. -/
theorem State.withPrimitive_actions_at_pc (k : Nat) :
    (s.withPrimitive i).actions[(s.withPrimitive i).pc + k]? = (primitiveActions s.params i)[k]? := by
  have place : ((frameActions s.params (.read 0 0)).take (primitivePlace s.params i)).length =
      primitivePlace s.params i := by
    rw [List.length_take, frameActions, length_readActions]
    exact Nat.min_eq_left ((primitivePlace_le s.params i).trans (by split <;> omega))
  rw [State.withPrimitive_actions, State.withPrimitive_pc, List.getElem?_append_right (by omega), place,
    Nat.add_sub_cancel_left]

include hc

/-- A placed row's meaning is its actions in order (41_bitbang R190; log entry 10). SHIFT_IN's S.rdata = 0 is what the
loaded read frame has. -/
theorem exec_withPrimitive : exec i (s.withPrimitive i) =
    .next ((s.withPrimitive i).performAll (primitiveDest i) (primitiveActions s.params i)) := by
  cases i <;> simp only [callerOf, reduceCtorEq] at hc
  case sample =>
    have dest : destOfPhase (s.withPrimitive .sample).phase = .rdata :=
      destOfPhase_primitivePlace (p := s.params) (i := .sample) rfl (k := 0) rfl
    show Host.Outcome.next ((s.withPrimitive .sample).sampleTo (destOfPhase (s.withPrimitive .sample).phase)) = _
    rw [dest]
    rfl
  all_goals rfl

/-- The framer performs them one a step (42_frame_engine R230). -/
theorem run_withPrimitive (hi : s.inbox = []) :
    (Sys2Proof.core.run (primitiveActions s.params i).length (s.withPrimitive i) : Answer) =
      .next { (s.withPrimitive i).performAll (primitiveDest i) (primitiveActions s.params i) with
        pc := (s.withPrimitive i).pc + (primitiveActions s.params i).length } :=
  run_actions (primitiveDest i) (primitiveActions s.params i) rfl rfl hi
    (fun k _ => State.withPrimitive_actions_at_pc k)
    (fun _ hk => destOfPhase_primitivePlace hc hk)

end placed

/-- Settles O5: a placed request is the chosen move; a placed row's actions stand at S.pc, where the framer performs them. -/
theorem placedTableWordRunsNext : Obligations.PlacedTableWordRunsNext := by
  intro s nbits w i h
  have hd := decodeRecord_of_decodeTableWord h
  refine ⟨fun c hc hn => ?_, fun hc hi => ?_⟩
  · rw [State.withFetchWord, State.withWord_request hd hc, step_of_mover (State.withRecord_mover hd hc hn)]
    exact takeRecord_request hd hc _
  · rw [State.withFetchWord, State.withWord_primitive hd hc]
    refine ⟨_, exec_withPrimitive hc, ?_⟩
    rw [State.performAll_pc]
    exact run_withPrimitive hc hi

end Sys2Proof.Machine

/-! ### The register model's answers (40_register_model sections 1, 2; 42_frame_engine R228) -/

namespace Sys2Proof.Machine

open Sys2Proof.Config

theorem State.needUnfrozen_of_frozen {α : Type} {s : State} (h : s.frozen = true) (next : Except Error α) :
    s.needUnfrozen next = .error .configFrozen := by simp [State.needUnfrozen, h]

theorem State.needUnfrozen_of_not_frozen {α : Type} {s : State} (h : s.frozen = false) (next : Except Error α) :
    s.needUnfrozen next = next := by simp [State.needUnfrozen, h]

/-- A definition's first two checks pass before FREEZE and for an address of REGMAP (40_register_model R142, R143). -/
theorem defineChecks_passed {α : Type} {s : State} {a : Nat} {next : Except Error α} (hf : s.frozen = false) (ha : a ≤ 63) :
    s.needUnfrozen (checkAddr a next) = next := by
  rw [State.needUnfrozen_of_not_frozen hf, checkAddr_of_le _ ha]

/-- A free caller's request is answered with the error of the check that fails (60_exceptions R322). -/
theorem State.answer_of_error {s : State} {c : Nat} {i : Instr} {r : Except Error (Value × State)} {e : Error}
    (hw : s.isWaiting c = false) (hr : r = .error e) : s.answer c i r = .next (s.afterError c e) :=
  hr ▸ State.answer_error hw

/-- A free caller's request is answered with its result when every check passes (42_frame_engine R228). -/
theorem State.answer_of_ok {s s' : State} {c : Nat} {i : Instr} {r : Except Error (Value × State)} {v : Value}
    (hw : s.isWaiting c = false) (hr : r = .ok (v, s')) : s.answer c i r = .next (s'.afterOk c i v) :=
  hr ▸ State.answer_ok hw

/-- REGMAP with `d` put in holds `d` at its address and is the old map at every other (20_memory R72). -/
theorem regFind_regPut (d : RegDef) (m : RegMap) (a : Nat) :
    regFind (regPut d m) a = if a = d.addr then some d else regFind m a := by
  split
  · next h => rw [h, regFind_regPut_self]
  · next h => exact regFind_regPut_ne d m h

/-- A name that stands in no field of the register is found in none. -/
theorem RegDef.field?_eq_none_iff {r : RegDef} {n : String} : r.field? n = none ↔ n ∉ r.fields.map FieldDef.name := by
  simp [RegDef.field?]

/-- Settles O16: the checks in their order, and REGMAP with the new register put in. -/
theorem defineRegisterResult : Obligations.DefineRegisterResult := by
  intro s c addr width name hw
  refine ⟨fun hf => ?_, fun hf ha => ?_, fun hf ha hwidth => ?_, fun hf ha hwidth ⟨r, hr⟩ => ?_,
    fun hf ha hwidth hr => ⟨regPut ⟨addr, regWidth, [], name⟩ s.regmap, ?_, regFind_regPut _ _⟩⟩
  · exact State.answer_of_error hw (s.needUnfrozen_of_frozen hf _)
  · refine State.answer_of_error hw ?_
    rw [State.needUnfrozen_of_not_frozen hf, checkAddr_of_gt _ ha]
  · refine State.answer_of_error hw ?_
    rw [defineChecks_passed hf ha, regWidth, if_pos hwidth]
  · refine State.answer_of_error hw ?_
    rw [defineChecks_passed hf ha, regWidth, if_neg (not_not.2 hwidth), hr, if_pos Option.isSome_some]
  · refine State.answer_of_ok hw ?_
    rw [defineChecks_passed hf ha, regWidth, if_neg (not_not.2 hwidth), hr, if_neg (by simp)]

/-- Settles O17: the checks in their order, and REGMAP with the longer list of fields put in. -/
theorem defineFieldResult : Obligations.DefineFieldResult := by
  intro s c addr name off w hw
  refine ⟨fun hf => ?_, fun hf ha => ?_, fun hf ha hr => ?_,
    fun r hf ha hr => ⟨fun hn => ?_, fun hn ho => ?_, fun hn hpos hfit => ?_⟩⟩
  · exact State.answer_of_error hw (s.needUnfrozen_of_frozen hf _)
  · refine State.answer_of_error hw ?_
    rw [State.needUnfrozen_of_not_frozen hf, checkAddr_of_gt _ ha]
  · refine State.answer_of_error hw ?_
    rw [defineChecks_passed hf ha, withReg_none _ hr]
  · refine State.answer_of_error hw ?_
    have named : (r.field? name).isSome = true := by
      rw [Option.isSome_iff_ne_none, Ne, RegDef.field?_eq_none_iff, not_not]
      exact hn
    rw [defineChecks_passed hf ha, withReg_some _ hr, if_pos named]
  · refine State.answer_of_error hw ?_
    rw [defineChecks_passed hf ha, withReg_some _ hr, RegDef.field?_eq_none_iff.2 hn, if_neg (by simp),
      if_pos ho]
  · have fits : ¬ (w = 0 ∨ off + w > r.width) := by omega
    refine ⟨regPut { r with fields := r.fields ++ [⟨name, off, w⟩] } s.regmap, State.answer_of_ok hw ?_, fun a => ?_⟩
    · rw [defineChecks_passed hf ha, withReg_some _ hr, RegDef.field?_eq_none_iff.2 hn, if_neg (by simp),
        if_neg fits]
    · rw [regFind_regPut, regFind_addr hr]

/-- Settles O18: the one check is that of S.frozen. -/
theorem freezeResult : Obligations.FreezeResult := fun s _ hw =>
  ⟨fun hf => State.answer_of_error hw (s.needUnfrozen_of_frozen hf _),
    fun hf => State.answer_of_ok hw (s.needUnfrozen_of_not_frozen hf _)⟩

/-- Settles O19: the checks in their order, and the definition found. -/
theorem lookupResult : Obligations.LookupResult := by
  intro s c addr hw
  refine ⟨fun ha => ?_, fun ha hr => ?_, fun r ha hr => ?_⟩
  · exact State.answer_of_error hw (checkAddr_of_gt _ ha)
  · refine State.answer_of_error hw ?_
    rw [checkAddr_of_le _ ha, withReg_none _ hr]
  · refine State.answer_of_ok hw ?_
    rw [checkAddr_of_le _ ha, withReg_some _ hr]

/-- Settles O24: the checks in their order, and the view of the word. -/
theorem unpackResult : Obligations.UnpackResult := by
  intro s c addr word hw
  refine ⟨fun ha => ?_, fun ha hr => ?_, fun r ha hr => ⟨fun hv => ?_, fun hv => ?_⟩⟩
  · exact State.answer_of_error hw (checkAddr_of_gt _ ha)
  · refine State.answer_of_error hw ?_
    rw [checkAddr_of_le _ ha, withReg_none _ hr]
  · refine State.answer_of_error hw ?_
    rw [checkAddr_of_le _ ha, withReg_some _ hr, if_pos hv]
  · refine State.answer_of_ok hw ?_
    rw [checkAddr_of_le _ ha, withReg_some _ hr, if_neg (Nat.not_lt.2 hv)]

/-- Settles O27: the one check is that of `v`, and `reverseBits` is the sum of the reversed bits. -/
theorem reverseResult : Obligations.ReverseResult := fun _ _ _ _ hw =>
  ⟨fun hv => State.answer_of_error hw (if_pos hv), fun hv => State.answer_of_ok hw (if_neg (Nat.not_le.2 hv))⟩

end Sys2Proof.Machine

/-! ### A field's value in a word (40_register_model R153, R162) -/

namespace Sys2Proof.Machine

/-- The mask of `fget` is a remainder (00_scope R11). -/
theorem fget_eq_mod (f : FieldDef) (x : Word) : fget f x = (x.toNat >>> f.off) % 2 ^ f.w :=
  Nat.and_two_pow_sub_one_eq_mod ..

/-- The bits of a field's value are the word's bits at the field's place. -/
theorem fget_testBit (f : FieldDef) (x : Word) (k : Nat) :
    (fget f x).testBit k = (decide (k < f.w) && x.getLsbD (f.off + k)) := by
  rw [fget_eq_mod, Nat.testBit_mod_two_pow, Nat.testBit_shiftRight]
  rfl

/-- A bit that a field covers stands in the field's value at its place. -/
theorem fget_testBit_of_covers {f : FieldDef} {p : Nat} (h : f.covers p = true) (x : Word) :
    (fget f x).testBit (p - f.off) = x.getLsbD p := by
  simp only [FieldDef.covers, Bool.and_eq_true, decide_eq_true_eq] at h
  rw [fget_testBit, decide_eq_true (by omega), Bool.true_and, Nat.add_sub_cancel' h.1]

/-- Settles O26: a field's value depends on its place alone, and each of its bits is the word's. -/
theorem aliasesAgreeOnSharedBits : Obligations.AliasesAgreeOnSharedBits := fun f g x =>
  ⟨fun ho hw => by rw [fget, fget, ho, hw],
    fun _ hf hg => ⟨fget_testBit_of_covers hf x, fget_testBit_of_covers hg x⟩⟩

/-- Settles O25: a view of a held register is answered from its definition, and `fget` is the stated remainder. -/
theorem viewAccessResult : Obligations.ViewAccessResult := by
  intro s c view r hw hr
  refine ⟨fun name hn => ?_, fun name f hf => ?_, ?_⟩
  · refine (State.answerView_of_regFind_some hr).trans (State.answer_of_error hw ?_)
    rw [withField, RegDef.field?_eq_none_iff.2 hn]
    rfl
  · refine (State.answerView_of_regFind_some hr).trans (State.answer_of_ok hw ?_)
    rw [withField, hf, ← fget_eq_mod]
    rfl
  · refine (State.answerView_of_regFind_some hr).trans (State.answer_of_ok hw ?_)
    simp only [← fget_eq_mod]
    rfl

end Sys2Proof.Machine

/-! ### Reversing a bit string (40_register_model R160, R163) -/

namespace Sys2Proof.Machine

/-- One more bit goes to the low end of the reversed value. -/
theorem reverseBits_succ (v n : Nat) : reverseBits v (n + 1) = 2 * reverseBits v n + (v.testBit n).toNat := by
  have doubled : (List.range n).map (fun i => (v.testBit i).toNat <<< (n + 1 - 1 - i)) =
      (List.range n).map fun i => 2 * ((v.testBit i).toNat <<< (n - 1 - i)) := by
    refine List.map_congr_left fun i hi => ?_
    have : n + 1 - 1 - i = n - 1 - i + 1 := by have := List.mem_range.1 hi; omega
    rw [this, Nat.shiftLeft_succ]
  rw [reverseBits, List.range_succ, List.map_append, List.sum_append, doubled, List.sum_map_mul_left]
  simp [reverseBits]

theorem reverseBits_lt (v n : Nat) : reverseBits v n < 2 ^ n := by
  induction n with
  | zero => simp [reverseBits]
  | succ n ih =>
    have := (v.testBit n).toNat_lt
    rw [reverseBits_succ, Nat.pow_succ]
    omega

/-- Bit `k` of the reversed value is bit `n - 1 - k` of the value. -/
theorem reverseBits_testBit (v n k : Nat) : (reverseBits v n).testBit k = (decide (k < n) && v.testBit (n - 1 - k)) := by
  induction n generalizing k with
  | zero => simp [reverseBits]
  | succ n ih =>
    have low := (v.testBit n).toNat_lt
    rw [reverseBits_succ]
    cases k with
    | zero => cases h : v.testBit n <;> simp [Nat.testBit_zero, h]
    | succ k =>
      rw [Nat.testBit_succ, show (2 * reverseBits v n + (v.testBit n).toNat) / 2 = reverseBits v n by omega, ih]
      congr 2
      · simp
      · omega

/-- Settles O28: each bit of the value comes back to its own place. -/
theorem reverseTwiceIsIdentity : Obligations.ReverseTwiceIsIdentity := by
  refine fun v n hv => ⟨reverseBits_lt v n, Nat.eq_of_testBit_eq fun k => ?_⟩
  rw [reverseBits_testBit, reverseBits_testBit]
  by_cases hk : k < n
  · rw [decide_eq_true hk, decide_eq_true (by omega), show n - 1 - (n - 1 - k) = k by omega]
    rfl
  · rw [decide_eq_false hk, Bool.false_and, Nat.testBit_lt_two_pow]
    exact hv.trans_le (Nat.pow_le_pow_right (by omega) (by omega))

end Sys2Proof.Machine

/-! ### The two banks (20_memory R71, R72; 40_register_model R150) -/

namespace Sys2Proof.Machine

open Sys2Proof.Config

/-- An answered request changes REGMAP only as its result does, and an error not at all. -/
theorem State.answer_keeps_regFind {s t : State} {c a : Nat} {i : Instr} {r : Except Error (Value × State)}
    (hr : ∀ v s', r = .ok (v, s') → regFind s'.regmap a = regFind s.regmap a) (h : s.answer c i r = .next t) :
    regFind t.regmap a = regFind s.regmap a := by
  rcases s.answer_cases c i r with ⟨_, e⟩ | ⟨_, v, s', hok, e⟩ | ⟨_, err, _, e⟩ <;> rw [e] at h <;> cases h
  · exact hr v s' hok
  · rfl

section define
variable {s t : State} {c a b : Nat}

/-- DEFINE_REGISTER leaves what REGMAP holds at every other address. -/
theorem exec_defineRegister_keeps_regFind {width : Option Nat} {name : Option String} (hb : b ≠ a)
    (h : exec (.defineRegister c a width name) s = .next t) : regFind t.regmap b = regFind s.regmap b := by
  refine State.answer_keeps_regFind (fun v s' hok => ?_) h
  obtain ⟨_, hok⟩ := needUnfrozen_ok hok
  obtain ⟨_, hok⟩ := checkAddr_ok hok
  split at hok
  · cases hok
  · split at hok <;> cases hok
    exact regFind_regPut_ne _ _ hb

/-- DEFINE_FIELD leaves what REGMAP holds at every other address. -/
theorem exec_defineField_keeps_regFind {name : String} {off w : Nat} (hb : b ≠ a)
    (h : exec (.defineField c a name off w) s = .next t) : regFind t.regmap b = regFind s.regmap b := by
  refine State.answer_keeps_regFind (fun v s' hok => ?_) h
  obtain ⟨_, hok⟩ := needUnfrozen_ok hok
  obtain ⟨_, hok⟩ := checkAddr_ok hok
  obtain ⟨r, hr, hok⟩ := withReg_ok hok
  split at hok
  · cases hok
  · split at hok <;> cases hok
    exact regFind_regPut_ne _ _ (by rwa [regFind_addr hr])

end define

/-- A base address and its extended twin differ in the bank bit (20_memory R71). -/
theorem ne_extendedTwin {a : Nat} (ha : a ≤ 31) : a ≠ a ||| 0x20 := by
  have twin : isExtended (a ||| 0x20) = true := by
    rw [isExtended, extBitPos, Nat.testBit_or, show Nat.testBit 0x20 5 = true by decide, Bool.or_true]
  intro h
  rw [← h, isExtended_of_le ha] at twin
  cases twin

/-- Settles O29: the twins are two keys of REGMAP, and a definition changes its own key alone. -/
theorem banksNeverAlias : Obligations.BanksNeverAlias := by
  intro a ha
  have ne := ne_extendedTwin ha
  refine ⟨ne, fun s t c => ⟨?_, ?_⟩⟩
  · rintro (⟨_, _, h⟩ | ⟨_, _, _, h⟩)
    · exact exec_defineRegister_keeps_regFind ne.symm h
    · exact exec_defineField_keeps_regFind ne.symm h
  · rintro (⟨_, _, h⟩ | ⟨_, _, _, h⟩)
    · exact exec_defineRegister_keeps_regFind ne h
    · exact exec_defineField_keeps_regFind ne h

end Sys2Proof.Machine

/-! ### PACK (40_register_model R154 to R156, R161, R164) -/

namespace Sys2Proof.Machine

open Sys2Proof.Config

/-- Among some candidates one is chosen. -/
theorem exists_choose {α : Type} {l : List α} (h : l ≠ []) (k : Nat) : ∃ a ∈ l, choose k l = some a := by
  obtain ⟨a, ha⟩ := Option.ne_none_iff_exists'.1 (mt choose_eq_none.1 h)
  exact ⟨a, choose_mem ha, ha⟩

section pack
variable {mode : PackMerge} {k a : Nat} {r : RegDef} {F : FieldMap} {x : Word}

/-- A name of F that is no field is named (60_exceptions R303, R324). -/
theorem packFields_unknown (h : ∃ e ∈ F, r.field? e.1 = none) :
    ∃ e ∈ F, r.field? e.1 = none ∧ packFields mode k a r F x = .error (.unknownField a e.1) := by
  obtain ⟨e, he, hn⟩ := h
  obtain ⟨n, hmem, hc⟩ := exists_choose (mt unknownNames_eq_nil.1 fun all => all e he hn) k
  simp only [unknownNames, List.mem_map, List.mem_filter, Option.isNone_iff_eq_none] at hmem
  obtain ⟨e', ⟨he', hn'⟩, rfl⟩ := hmem
  refine ⟨e', he', hn', ?_⟩
  rw [packFields, hc]

/-- An entry whose value does not fit its field is named (60_exceptions R324). -/
theorem packFields_overfull (hknown : ∀ e ∈ F, r.field? e.1 ≠ none)
    (h : ∃ e ∈ F, ∃ f, r.field? e.1 = some f ∧ 2 ^ f.w ≤ e.2) :
    ∃ e ∈ F, ∃ f, r.field? e.1 = some f ∧ 2 ^ f.w ≤ e.2 ∧
      packFields mode k a r F x = .error (.valueOutOfRange e.1 e.2) := by
  obtain ⟨e, he, f, hf, hv⟩ := h
  obtain ⟨e', hmem, hc⟩ :=
    exists_choose (mt overfullEntries_eq_nil.1 fun all => absurd (all e he f hf) (Nat.not_lt.2 hv)) k
  obtain ⟨he', hover⟩ := List.mem_filter.1 hmem
  obtain ⟨f', hf'⟩ := Option.ne_none_iff_exists'.1 (hknown e' he')
  simp only [hf', decide_eq_true_eq] at hover
  refine ⟨e', he', f', hf', hover, ?_⟩
  rw [packFields, choose_eq_none.2 (unknownNames_eq_nil.2 hknown), hc]

/-- A pair of entries that conflict is named (40_register_model R156, 60_exceptions R324). -/
theorem packFields_conflict (hknown : ∀ e ∈ F, r.field? e.1 ≠ none)
    (hfit : ∀ e ∈ F, ∀ f, r.field? e.1 = some f → e.2 < 2 ^ f.w) (h : ∃ e1 ∈ F, ∃ e2 ∈ F, Conflicting r e1 e2) :
    ∃ e1 ∈ F, ∃ e2 ∈ F, Conflicting r e1 e2 ∧ packFields mode k a r F x = .error (.aliasConflict e1.1 e2.1) := by
  obtain ⟨e1, he1, e2, he2, hc⟩ := h
  obtain ⟨⟨n1, n2⟩, hmem, hchoice⟩ := exists_choose (mt conflictPairs_eq_nil.1 fun agree => agree e1 he1 e2 he2 hc) k
  obtain ⟨e1', he1', e2', he2', hc', rfl, rfl⟩ := conflictPairs_mem hmem
  refine ⟨e1', he1', e2', he2', hc', ?_⟩
  rw [packFields, choose_eq_none.2 (unknownNames_eq_nil.2 hknown), choose_eq_none.2 (overfullEntries_eq_nil.2 hfit),
    hchoice]

end pack

section execPack
variable {s : State} {c addr : Nat} {F : FieldMap} {base : Option Nat} (hw : s.isWaiting c = false)
include hw

/-- PACK answers the error of `packWord`, and advances the draw counter (log entry 5). -/
theorem exec_pack_of_error {e : Error}
    (h : packWord s.params.packMerge (errorPick s.draws) s.regmap addr F (base.getD 0) = .error e) :
    exec (.pack c addr F base) s = .next ({ s with draws := s.draws + 1 }.afterError c e) :=
  State.answer_of_error (s := s.tick) hw (by rw [h]; rfl)

/-- PACK answers the word of `packWord`, and advances the draw counter (log entry 5). -/
theorem exec_pack_of_ok {w : Word}
    (h : packWord s.params.packMerge (errorPick s.draws) s.regmap addr F (base.getD 0) = .ok w) :
    exec (.pack c addr F base) s =
      .next ({ s with draws := s.draws + 1 }.afterOk c (.pack c addr F base) (.word w)) :=
  State.answer_of_ok (s := s.tick) hw (by rw [h]; rfl)

end execPack

/-- Settles O20: the checks of the operands, then those of `packFields` in their order, then the merge. -/
theorem packResult : Obligations.PackResult := by
  intro s c addr F base hw i s'
  refine ⟨fun ha => ?_, fun ha hb => ?_, fun ha hb hr => ?_, fun r ha hb hr => ?_⟩
  · exact exec_pack_of_error hw (checkAddr_of_gt _ ha)
  · refine exec_pack_of_error hw ?_
    rw [packWord, checkAddr_of_le _ ha, checkArg_of_gt _ hb]
  · refine exec_pack_of_error hw ?_
    rw [packWord, checkAddr_of_le _ ha, checkArg_of_le _ hb, withReg_none _ hr]
  · have fields := packWord_eq_packFields (mode := s.params.packMerge) (k := errorPick s.draws) (F := F) ha hb hr
    refine ⟨fun hunknown => ?_, fun hknown => ⟨fun hover => ?_, fun hfit => ⟨fun hconflict => ?_, fun hagree => ?_⟩⟩⟩
    · obtain ⟨e, he, hn, herr⟩ := packFields_unknown hunknown
      exact ⟨e, he, hn, exec_pack_of_error hw (fields.trans herr)⟩
    · obtain ⟨e, he, f, hf, hv, herr⟩ := packFields_overfull hknown hover
      exact ⟨e, he, f, hf, hv, exec_pack_of_error hw (fields.trans herr)⟩
    · obtain ⟨e1, he1, e2, he2, hc, herr⟩ := packFields_conflict hknown hfit hconflict
      exact ⟨e1, he1, e2, he2, hc, exec_pack_of_error hw (fields.trans herr)⟩
    · exact exec_pack_of_ok hw (fields.trans (packFields_eq_ok hknown hfit hagree))

/-- An accepted map's address, base and entries, and its word, at the register that REGMAP holds. -/
theorem packWord_ok_of_regFind {mode : PackMerge} {m : RegMap} {k a b : Nat} {F : FieldMap} {w : Word} {r : RegDef}
    (hr : regFind m a = some r) (h : packWord mode k m a F b = .ok w) :
    a ≤ 63 ∧ b ≤ 0xFFFF ∧ (∀ e ∈ F, r.field? e.1 ≠ none) ∧ (∀ e ∈ F, ∀ f, r.field? e.1 = some f → e.2 < 2 ^ f.w) ∧
      (∀ e1 ∈ F, ∀ e2 ∈ F, ¬ Conflicting r e1 e2) ∧ w = mergeAll mode r F (BitVec.ofNat 16 b) := by
  obtain ⟨ha, hb, r', hr', hpack⟩ := packWord_ok h
  obtain rfl : r = r' := Option.some.inj (hr.symm.trans hr')
  exact ⟨ha, hb, packFields_ok hpack⟩

/-- PACK gives the merged word of every map that passes its checks. -/
theorem packWord_eq_ok {mode : PackMerge} {m : RegMap} {k a b : Nat} {F : FieldMap} {r : RegDef} (ha : a ≤ 63)
    (hb : b ≤ 0xFFFF) (hr : regFind m a = some r) (hknown : ∀ e ∈ F, r.field? e.1 ≠ none)
    (hfit : ∀ e ∈ F, ∀ f, r.field? e.1 = some f → e.2 < 2 ^ f.w)
    (hagree : ∀ e1 ∈ F, ∀ e2 ∈ F, ¬ Conflicting r e1 e2) :
    packWord mode k m a F b = .ok (mergeAll mode r F (BitVec.ofNat 16 b)) :=
  (packWord_eq_packFields ha hb hr).trans (packFields_eq_ok hknown hfit hagree)

/-- Settles O22: the merge leaves an uncovered bit as the base has it. -/
theorem packKeepsUncoveredBits : Obligations.PackKeepsUncoveredBits := by
  intro mode m k a base F w r p _ hr hpack hp hcov
  obtain ⟨_, _, _, hfit, _, rfl⟩ := packWord_ok_of_regFind hr hpack
  rw [mergeAll_uncovered _ _ _ _ _ hp hfit hcov, getLsbD_ofNat16 _ _ hp]

section merge
variable {mode : PackMerge} {r : RegDef} {F : FieldMap} {x : Word}
  (hfit : ∀ e ∈ F, ∀ f, r.field? e.1 = some f → e.2 < 2 ^ f.w)
  (hagree : ∀ e1 ∈ F, ∀ e2 ∈ F, ¬ Conflicting r e1 e2)
include hfit hagree

/-- The merged word does not depend on the order of the entries (40_register_model R155). -/
theorem mergeAll_perm {F' : FieldMap} (hperm : F'.Perm F) : mergeAll mode r F' x = mergeAll mode r F x := by
  refine mergeAll_eq (fun e he => hfit e (hperm.mem_iff.1 he))
    (fun e1 h1 e2 h2 => hagree e1 (hperm.mem_iff.1 h1) e2 (hperm.mem_iff.1 h2)) (fun p hp hu => ?_)
    (fun p hp e he f hf hc => mergeAll_covered _ _ _ _ _ hp hfit hagree e (hperm.mem_iff.1 he) f hf hc)
  refine mergeAll_uncovered _ _ _ _ _ hp hfit fun ⟨e, he, hcov⟩ => hu ⟨e, hperm.mem_iff.2 he, hcov⟩

/-- Where F sets every covered 1 of the base, the merges agree (40_register_model R155). -/
theorem mergeAll_orIn_eq_replace
    (hset : ∀ p < 16, ∀ e ∈ F, ∀ f, r.field? e.1 = some f → f.covers p = true → x.getLsbD p = true →
      e.2.testBit (p - f.off) = true) : mergeAll .orIn r F x = mergeAll .replace r F x := by
  refine mergeAll_eq hfit hagree (fun p hp hu => mergeAll_uncovered _ _ _ _ _ hp hfit hu) fun p hp e he f hf hc => ?_
  rw [mergeAll_covered _ _ _ _ _ hp hfit hagree e he f hf hc]
  cases hx : x.getLsbD p
  · simp
  · simp [hset p hp e he f hf hc hx]

/-- A merged field's value is the one its entry gives: replace clears what the base had there, and a base of 0 had
nothing (40_register_model R161). -/
theorem fget_mergeAll {n : String} {v : Nat} {f : FieldDef} (hmode : mode = .replace ∨ x = 0) (he : (n, v) ∈ F)
    (hf : r.field? n = some f) (hin : f.off + f.w ≤ 16) : fget f (mergeAll mode r F x) = v := by
  refine Nat.eq_of_testBit_eq fun k => ?_
  rw [fget_testBit]
  by_cases hk : k < f.w
  · have covered : f.covers (f.off + k) = true := by simp [FieldDef.covers, hk]
    have cleared : (x.getLsbD (f.off + k) && mode == .orIn) = false := by
      rcases hmode with rfl | rfl <;> simp
    rw [decide_eq_true hk, mergeAll_covered _ _ _ _ _ (by omega) hfit hagree _ he f hf covered, cleared]
    simp
  · rw [decide_eq_false hk, Bool.false_and, Nat.testBit_lt_two_pow]
    exact (hfit _ he f hf).trans_le (Nat.pow_le_pow_right (by omega) (by omega))

end merge

/-- Settles O23: a permutation has the same entries, so it passes the same checks. -/
theorem packOrderAndMergeMode : Obligations.PackOrderAndMergeMode := by
  intro m k a base F w r _ _ hr
  refine ⟨fun mode F' hpack hperm => ?_, fun hpack hset => ?_⟩
  · obtain ⟨ha, hb, hknown, hfit, hagree, rfl⟩ := packWord_ok_of_regFind hr hpack
    rw [← mergeAll_perm hfit hagree hperm]
    exact packWord_eq_ok ha hb hr (fun e he => hknown e (hperm.mem_iff.1 he))
      (fun e he => hfit e (hperm.mem_iff.1 he))
      fun e1 h1 e2 h2 => hagree e1 (hperm.mem_iff.1 h1) e2 (hperm.mem_iff.1 h2)
  · obtain ⟨ha, hb, hknown, hfit, hagree, rfl⟩ := packWord_ok_of_regFind hr hpack
    rw [← mergeAll_orIn_eq_replace hfit hagree]
    · exact packWord_eq_ok ha hb hr hknown hfit hagree
    · intro p hp e he f hf hc hx
      exact hset p hp e he f hf hc (by rwa [getLsbD_ofNat16 _ _ hp] at hx)

/-- What PACK puts into a field, `fget` reads from its word (40_register_model R161). -/
theorem fget_of_packWord {mode : PackMerge} {m : RegMap} {k a b : Nat} {F : FieldMap} {w : Word} {r : RegDef}
    {n : String} {v : Nat} (hm : regmapWf m = true) (hr : regFind m a = some r) (he : (n, v) ∈ F)
    (hpack : packWord mode k m a F b = .ok w) (hmode : mode = .replace ∨ b = 0) :
    ∃ f, r.field? n = some f ∧ fget f w = v := by
  obtain ⟨_, _, hknown, hfit, hagree, rfl⟩ := packWord_ok_of_regFind hr hpack
  obtain ⟨f, hf⟩ := Option.ne_none_iff_exists'.1 (hknown _ he)
  have place := FieldDef.wf_of_field? (RegDef.wf_of_regFind hm hr) hf
  exact ⟨f, hf, fget_mergeAll hfit hagree (hmode.imp_right fun h => by rw [h]; rfl) he hf place.2⟩

/-- Settles O21: UNPACK and VIEW_GET answer as O24 and O25 say, and the field holds what PACK put there. -/
theorem packUnpackRoundTrip : Obligations.PackUnpackRoundTrip := by
  intro m k a base F w n v hm _ he hpack s c hs hw
  subst hs
  obtain ⟨mode, hok, hmode⟩ : ∃ mode, packWord mode k s.regmap a F base = .ok w ∧ (mode = .replace ∨ base = 0) := by
    rcases hpack with h | ⟨h, h0⟩
    · exact ⟨_, h, .inl rfl⟩
    · exact ⟨_, h, .inr h0⟩
  obtain ⟨ha, _, r, hr, _⟩ := packWord_ok hok
  obtain ⟨f, hf, hv⟩ := fget_of_packWord hm hr he hok hmode
  obtain ⟨_, _, unpack⟩ := unpackResult s c a w.toNat hw
  obtain ⟨_, get, _⟩ := viewAccessResult s c ⟨a, w⟩ r hw hr
  constructor
  · have answer := (unpack r ha hr).2 (Nat.le_of_lt_succ w.isLt)
    rwa [BitVec.ofNat_toNat, BitVec.setWidth_eq] at answer
  · rw [get n f hf, ← fget_eq_mod, hv]

end Sys2Proof.Machine
/-! ### The bit-bang layer's meanings (41_bitbang R192 to R204) -/

namespace Sys2Proof.Machine

open Sys2Proof.Config

/-! #### One transport action (41_bitbang R192 to R195) -/

/-- Settles O31: DRIVE and DELAY record their event, and DRIVE sets the lines. -/
theorem driveAndDelayResult : Obligations.DriveAndDelayResult := fun _ => ⟨fun _ => rfl, rfl⟩

/-- A shift of S.rdata doubles it and adds the bit (10_state R36). -/
theorem shiftLeft_one_or_bit (x : Word) (b : Bool) :
    x <<< 1 ||| BitVec.ofNat 16 b.toNat = BitVec.ofNat 16 (2 * x.toNat + b.toNat) := by
  have sum : 2 * x.toNat + b.toNat = x.toNat <<< 1 ||| b.toNat := by
    rw [← Nat.shiftLeft_add_eq_or_of_lt b.toNat_lt, Nat.shiftLeft_eq, Nat.pow_one, Nat.mul_comm]
  rw [sum, BitVec.ofNat_or]
  rfl

theorem State.sampleTo_rdata_eq (s : State) : s.sampleTo .rdata =
    { s with rdata := BitVec.ofNat 16 (2 * s.rdata.toNat + (dataIn (sampleAnswer s.draws)).toNat)
             trace := s.trace ++ [.sample (dataIn (sampleAnswer s.draws))], draws := s.draws + 1 } := by
  rw [← shiftLeft_one_or_bit]
  rfl

theorem State.sampleTo_ta_eq (s : State) : s.sampleTo .ta =
    { s with ta := if s.params.checkTa then some (dataIn (sampleAnswer s.draws)) else s.ta
             trace := s.trace ++ [.sample (dataIn (sampleAnswer s.draws))], draws := s.draws + 1 } := by
  simp only [State.sampleTo, State.takeBit, State.latchTa]
  split <;> rfl

theorem State.sampleTo_discard_eq (s : State) : s.sampleTo .discard =
    { s with trace := s.trace ++ [.sample (dataIn (sampleAnswer s.draws))], draws := s.draws + 1 } := rfl

theorem destOfPhase_eq_discard {x : Phase} (hd : x ≠ .dataIn) (ht : x ≠ .turnaround) : destOfPhase x = .discard := by
  cases x with
  | dataIn => exact absurd rfl hd
  | turnaround => exact absurd rfl ht
  | _ => rfl

/-- Settles O32: the phase chooses the destination, and S.ta is not written without CHECK_TA. -/
theorem sampleResult : Obligations.SampleResult := by
  intro s
  have meaning : exec .sample s = .next (s.sampleTo (destOfPhase s.phase)) := rfl
  refine ⟨fun h => ?_, fun h hta => ?_, fun h hta => ?_⟩
  · rw [meaning, h, destOfPhase, State.sampleTo_rdata_eq]
    rfl
  · rw [meaning, h, destOfPhase, State.sampleTo_ta_eq, hta]
    rfl
  · by_cases turnaround : s.phase = .turnaround
    · rw [meaning, turnaround, destOfPhase, State.sampleTo_ta_eq, hta turnaround]
      rfl
    · rw [meaning, destOfPhase_eq_discard h turnaround, State.sampleTo_discard_eq]
      rfl

/-! #### WRITE_BIT, RELEASE, SHIFT_OUT (41_bitbang R196, R197, R200, R202, R203) -/

theorem driveWordOf_low (v e : Bool) : driveWordOf v e false = BitVec.ofNat 3 (4 * v.toNat + 2 * e.toNat) := by
  cases v <;> cases e <;> rfl

theorem driveWordOf_high (v e : Bool) : driveWordOf v e true = driveWordOf v e false ||| 1 := by
  cases v <;> cases e <;> rfl

theorem State.performAll_writeBitActions (s : State) (d : SampleDest) (v e : Bool) :
    s.performAll d (writeBitActions v e) =
      { s with lines := some (driveWordOf v e false), trace := s.trace ++ eventsFrom s.draws (writeBitActions v e) } := by
  rw [State.performAll_frame]
  simp [writeBitActions, State.performAll, State.performTo, Action.isSample]

/-- Settles O33: RELEASE has the actions of WRITE_BIT(0, 0). -/
theorem writeBitAndReleaseResult : Obligations.WriteBitAndReleaseResult := by
  intro s
  have writeBit (v e : Bool) : exec (.writeBit v e) s = _ :=
    congrArg Host.Outcome.next (s.performAll_writeBitActions .discard v e)
  refine ⟨fun v e => ?_, writeBit false false, rfl⟩
  simp only [writeBit, ← driveWordOf_low, ← driveWordOf_high]
  rfl

/-- WRITE_BITs leave the last bit on the lines; with none, the lines are as before. -/
theorem State.performAll_writeBits (s : State) (d : SampleDest) (e : Bool) (bs : List Bool) :
    s.performAll d (bs.flatMap fun b => writeBitActions b e) =
      { s with lines := (bs.getLast?.map fun b => driveWordOf b e false).or s.lines
               trace := s.trace ++ bs.flatMap fun b => eventsFrom s.draws (writeBitActions b e) } := by
  induction bs generalizing s with
  | nil => simp [State.performAll]
  | cons b bs ih =>
    rw [List.flatMap_cons, State.performAll_append, State.performAll_writeBitActions, ih]
    cases h : bs.getLast? <;> simp [List.getLast?_cons, h]

theorem getLast?_bits (v n : Nat) : (bits v n).getLast? = if n = 0 then none else some (v.testBit 0) := by
  cases n <;> simp [bits, List.range_succ]

/-- Settles O35: SHIFT_OUT is the WRITE_BITs of its bits, the last of which is bit 0. -/
theorem shiftOutResult : Obligations.ShiftOutResult := by
  intro s v n e
  have meaning : exec (.shiftOut v n e) s = .next (s.performAll .discard (shiftOutActions v n e)) := rfl
  have lowBit : (v.testBit 0).toNat = v % 2 := (Nat.toNat_testBit v 0).trans (by rw [Nat.pow_zero, Nat.div_one])
  rw [meaning, shiftOutActions, State.performAll_writeBits, getLast?_bits, ← lowBit]
  simp only [← driveWordOf_low, ← driveWordOf_high]
  split <;> rfl

/-! #### READ_BIT, RELC, SHIFT_IN (41_bitbang R198, R199, R201, R204) -/

theorem countP_isSample_readBitActions (sp : SamplePoint) : (readBitActions sp).countP Action.isSample = 1 := by
  cases sp <;> rfl

theorem State.performAll_readBitActions (s : State) (sp : SamplePoint) :
    s.performAll .rdata (readBitActions sp) =
      { s with rdata := BitVec.ofNat 16 (2 * s.rdata.toNat + (dataIn (sampleAnswer s.draws)).toNat)
               lines := some 0b000, draws := s.draws + 1
               trace := s.trace ++ eventsFrom s.draws (readBitActions sp) } := by
  rw [State.performAll_frame, countP_isSample_readBitActions]
  cases sp <;> simp [readBitActions, State.performAll, State.performTo, shiftLeft_one_or_bit]

theorem State.performAll_relcActions (s : State) : s.performAll .ta relcActions =
    { s with ta := if s.params.checkTa then some (dataIn (sampleAnswer s.draws)) else s.ta
             lines := some 0b000, draws := s.draws + 1, trace := s.trace ++ eventsFrom s.draws relcActions } := by
  rw [State.performAll_frame]
  simp [relcActions, State.performAll, State.performTo, List.countP_cons, Action.isSample]

/-- Settles O34: the events of READ_BIT are those of its action list at each SAMPLE_POINT. -/
theorem readBitAndRelcResult : Obligations.ReadBitAndRelcResult := by
  intro s
  refine ⟨?_, congrArg Host.Outcome.next s.performAll_relcActions⟩
  refine (congrArg Host.Outcome.next (s.performAll_readBitActions s.params.samplePoint)).trans ?_
  cases s.params.samplePoint <;> rfl

/-- The bits sampled one draw longer end in the new draw's bit. -/
theorem drawnBits_succ (k n : Nat) : drawnBits k (n + 1) = drawnBits k n ++ [dataIn (sampleAnswer (k + n))] := by
  simp [drawnBits, List.range_succ]

theorem wordOfBits_concat (bs : List Bool) (b : Bool) : wordOfBits (bs ++ [b]) = 2 * wordOfBits bs + b.toNat := by
  simp [wordOfBits]

/-- S.rdata keeps 16 bits of a longer bit string's number at every shift (10_state R36). -/
theorem ofNat_two_mul_toNat_ofNat_add (m b : Nat) :
    BitVec.ofNat 16 (2 * (BitVec.ofNat 16 m).toNat + b) = BitVec.ofNat 16 (2 * m + b) := by
  refine BitVec.eq_of_toNat_eq ?_
  simp only [BitVec.toNat_ofNat]
  omega

/-- READ_BITs from S.rdata = 0 put the word their bits spell into S.rdata (30_encoding R104). -/
theorem State.performAll_readBits (s : State) (sp : SamplePoint) (n : Nat) :
    { s with rdata := 0 }.performAll .rdata (List.replicate (n + 1) (readBitActions sp)).flatten =
      { s with rdata := BitVec.ofNat 16 (wordOfBits (drawnBits s.draws (n + 1)))
               lines := some 0b000, draws := s.draws + (n + 1)
               trace := s.trace ++ eventsFrom s.draws (List.replicate (n + 1) (readBitActions sp)).flatten } := by
  induction n with
  | zero => simp [State.performAll_readBitActions, drawnBits, wordOfBits]
  | succ n ih =>
    rw [List.replicate_succ', List.flatten_append, State.performAll_append, ih, eventsFrom_append,
      drawnBits_succ s.draws (n + 1), wordOfBits_concat, ← ofNat_two_mul_toNat_ofNat_add]
    simp [State.performAll_readBitActions, countP_isSample_readBitActions, Nat.add_assoc]

/-- A bit string's number is the sum of its bits, each shifted to its place (41_bitbang R204). -/
theorem wordOfBits_map_range (f : Nat → Bool) (n : Nat) :
    wordOfBits ((List.range n).map f) = ((List.range n).map fun i => (f i).toNat <<< (n - 1 - i)).sum := by
  induction n with
  | zero => rfl
  | succ n ih =>
    have doubled : ((List.range n).map fun i => (f i).toNat <<< (n - i)).sum =
        2 * ((List.range n).map fun i => (f i).toNat <<< (n - 1 - i)).sum := by
      rw [← List.sum_map_mul_left]
      refine congrArg List.sum (List.map_congr_left fun i hi => ?_)
      rw [List.mem_range] at hi
      rw [show n - i = n - 1 - i + 1 by omega, Nat.shiftLeft_succ]
    simp only [List.range_succ, List.map_append, List.map_cons, List.map_nil, wordOfBits_concat, ih, List.sum_append,
      Nat.add_sub_cancel, doubled, Nat.sub_self, Nat.shiftLeft_zero, List.sum_singleton]

/-- Settles O36: 16 READ_BITs from S.rdata = 0. -/
theorem shiftInResult : Obligations.ShiftInResult := by
  intro s
  have meaning : exec .shiftIn s = .next _ :=
    congrArg Host.Outcome.next (s.performAll_readBits s.params.samplePoint 15)
  rw [meaning, drawnBits, wordOfBits_map_range]
  rfl

/-! #### One Delay after every Drive and every Sample (41_bitbang R193) -/

theorem DelayAfterEach.append {l l' : List Action} (h : DelayAfterEach l) (h' : DelayAfterEach l') :
    DelayAfterEach (l ++ l') := by
  obtain ⟨as, has, rfl⟩ := h
  obtain ⟨as', has', rfl⟩ := h'
  exact ⟨as ++ as', fun a ha => (List.mem_append.1 ha).elim (has a) (has' a), List.flatMap_append.symm⟩

theorem delayAfterEach_writeBitActions (v e : Bool) : DelayAfterEach (writeBitActions v e) :=
  ⟨[.drive (driveWordOf v e false), .drive (driveWordOf v e true), .drive (driveWordOf v e false)],
    by simp [Action.isDelay], rfl⟩

theorem delayAfterEach_readBitActions : ∀ sp : SamplePoint, DelayAfterEach (readBitActions sp)
  | .beforeRise => ⟨[.sample, .drive 0b001, .drive 0b000], by decide, rfl⟩
  | .afterRise => ⟨[.drive 0b001, .sample, .drive 0b000], by decide, rfl⟩
  | .afterFall => ⟨[.drive 0b001, .drive 0b000, .sample], by decide, rfl⟩

theorem DelayAfterEach.countP_isDelay {l : List Action} (h : DelayAfterEach l) :
    l.countP Action.isDelay = l.countP Action.isDrive + l.countP Action.isSample := by
  obtain ⟨as, has, rfl⟩ := h
  induction as with
  | nil => rfl
  | cons a as ih =>
    have rest := ih fun b hb => has b (List.mem_cons_of_mem a hb)
    have first : a.isDelay = false := has a List.mem_cons_self
    rw [List.flatMap_cons, List.countP_append, List.countP_append, List.countP_append, rest]
    cases a with
    | delay => cases first
    | drive w => simp [List.countP_cons, Action.isDelay, Action.isDrive, Action.isSample]; omega
    | sample => simp [List.countP_cons, Action.isDelay, Action.isDrive, Action.isSample]; omega

/-! #### The counts of a list are those of its parts (41_bitbang R205, R206; 42_frame_engine R237) -/

/-- Every action is a Drive, a Sample or a Delay. -/
theorem length_eq_countP_actions (l : List Action) :
    l.length = l.countP Action.isDrive + l.countP Action.isSample + l.countP Action.isDelay := by
  induction l with
  | nil => rfl
  | cons a l ih =>
    cases a <;> simp [ih, List.countP_cons, Action.isDrive, Action.isSample, Action.isDelay] <;> omega

/-- The list has `d` Drives and `n` Samples, one Delay after each, and behind a low clock `rises` rises of MDC, and
leaves the clock low (41_bitbang R205). -/
structure Counts (l : List Action) (d n rises : Nat) : Prop where
  delays : DelayAfterEach l
  drives : l.countP Action.isDrive = d
  samples : l.countP Action.isSample = n
  puts : ∃ bs, PutsBits l bs ∧ bs.length = rises

theorem counts_nil : Counts [] 0 0 0 := ⟨⟨[], by simp, rfl⟩, rfl, rfl, [], fun _ => rfl, rfl⟩

theorem Counts.append {l l' : List Action} {d d' n n' r r' : Nat} (h : Counts l d n r) (h' : Counts l' d' n' r') :
    Counts (l ++ l') (d + d') (n + n') (r + r') := by
  obtain ⟨bs, hbs, rfl⟩ := h.puts
  obtain ⟨bs', hbs', rfl⟩ := h'.puts
  exact ⟨h.delays.append h'.delays, by rw [List.countP_append, h.drives, h'.drives],
    by rw [List.countP_append, h.samples, h'.samples], bs ++ bs', hbs.append hbs', List.length_append⟩

theorem Counts.flatMap {α : Type} {f : α → List Action} {d n r : Nat} (h : ∀ a, Counts (f a) d n r) (l : List α) :
    Counts (l.flatMap f) (l.length * d) (l.length * n) (l.length * r) := by
  induction l with
  | nil => simpa using counts_nil
  | cons a l ih =>
    rw [List.flatMap_cons]
    simpa only [List.length_cons, Nat.succ_mul, Nat.add_comm (l.length * _)] using (h a).append ih

theorem Counts.actionCounts_eq {l : List Action} {d n r : Nat} (h : Counts l d n r) :
    actionCounts l = (d, n, d + n, 2 * (d + n), r) := by
  obtain ⟨bs, hbs, rfl⟩ := h.puts
  rw [actionCounts, hbs.wireBits_eq, length_eq_countP_actions, h.delays.countP_isDelay, h.drives, h.samples, Nat.two_mul]

theorem counts_writeBitActions (v e : Bool) : Counts (writeBitActions v e) 3 0 1 :=
  ⟨delayAfterEach_writeBitActions v e, rfl, rfl, _, putsBits_writeBitActions v e, rfl⟩

theorem counts_releaseActions : Counts releaseActions 3 0 1 := counts_writeBitActions false false

theorem counts_readBitActions (sp : SamplePoint) : Counts (readBitActions sp) 2 1 1 :=
  ⟨delayAfterEach_readBitActions sp, by cases sp <;> rfl, countP_isSample_readBitActions sp, _,
    putsBits_readBitActions sp, rfl⟩

theorem counts_relcActions : Counts relcActions 3 1 1 :=
  ⟨⟨[.drive 0b000, .sample, .drive 0b001, .drive 0b000], by decide, rfl⟩, rfl, rfl, _, putsBits_relcActions, rfl⟩

theorem counts_shiftOutActions (v n : Nat) (e : Bool) : Counts (shiftOutActions v n e) (n * 3) 0 n := by
  have counts := Counts.flatMap (counts_writeBitActions · e) (bits v n)
  rwa [show (bits v n).length = n by simp [bits], Nat.mul_zero, Nat.mul_one] at counts

theorem counts_shiftInActions (sp : SamplePoint) : Counts (shiftInActions sp) 32 16 16 :=
  .flatMap (fun _ => counts_readBitActions sp) (List.replicate 16 ())

/-- PREAMBLE, START, OPCODE, PHYADDR, REGADDR: 46 driven bits. -/
theorem counts_headerActions (op : Nat) (phy reg : Addr5) : Counts (headerActions op phy reg) 138 0 46 :=
  ((((counts_shiftOutActions ..).append (counts_shiftOutActions ..)).append
    (counts_shiftOutActions ..)).append (counts_shiftOutActions ..)).append (counts_shiftOutActions ..)

theorem counts_writeActions (phy reg : Addr5) (data : Word) : Counts (writeActions phy reg data) 192 0 64 :=
  ((counts_headerActions ..).append (counts_shiftOutActions ..)).append (counts_shiftOutActions ..)

/-- CHECK_TA's RELC samples once where RELEASE does not. -/
theorem counts_readActions (p : Params) (phy reg : Addr5) :
    Counts (readActions p phy reg) 182 (p.checkTa.toNat + 16) 66 := by
  have checked : Counts (if p.checkTa then relcActions else releaseActions) 3 p.checkTa.toNat 1 := by
    cases p.checkTa
    · exact counts_releaseActions
    · exact counts_relcActions
  have counts := (((counts_headerActions 0b10 phy reg).append (counts_releaseActions.append checked)).append
    (counts_shiftInActions p.samplePoint)).append (counts_releaseActions.append counts_releaseActions)
  rwa [Nat.zero_add, Nat.zero_add, Nat.add_zero] at counts

theorem delayAfterEach_frameActions (p : Params) : ∀ t : Transaction, DelayAfterEach (frameActions p t)
  | .write phy reg data => (counts_writeActions phy reg data).delays
  | .read phy reg => (counts_readActions p phy reg).delays

/-- Settles O37: primitives and frames are put together of lists with one Delay after each access. -/
theorem oneDelayAfterEveryAccess : Obligations.OneDelayAfterEveryAccess :=
  ⟨delayAfterEach_writeBitActions, counts_releaseActions.delays, delayAfterEach_readBitActions,
    counts_relcActions.delays, fun v n e => (counts_shiftOutActions v n e).delays,
    fun sp => (counts_shiftInActions sp).delays, delayAfterEach_frameActions, fun _ => DelayAfterEach.countP_isDelay⟩

/-- Settles O38: the counts of a list are those of its parts, added up. -/
theorem actionCounts_primitives_and_frames : Obligations.ActionCounts := by
  refine ⟨fun v e => (counts_writeBitActions v e).actionCounts_eq, counts_releaseActions.actionCounts_eq,
    fun sp => (counts_readBitActions sp).actionCounts_eq, counts_relcActions.actionCounts_eq,
    fun p phy reg phy' reg' data => ?_⟩
  have write := counts_writeActions
  have read := counts_readActions p phy reg
  refine ⟨(write phy reg data).actionCounts_eq, fun h => ?_, fun h => ?_, fun h => ?_⟩ <;> rw [h] at read
  · exact read.actionCounts_eq
  · exact read.actionCounts_eq
  · exact (read.append (write phy' reg' data)).actionCounts_eq

end Sys2Proof.Machine

/-! ### A record's move (42_frame_engine R228, R238; 10_state R50) -/

namespace Sys2Proof.Machine

section record
variable {s : State} {bytes : List Byte} {i : Instr} {c : Nat}

theorem recordCaller_of_decodeRecord (hd : decodeRecord bytes = .ok i) : recordCaller bytes = callerOf i := by
  rw [recordCaller, hd]

theorem recordUsesBus_of_decodeRecord (hd : decodeRecord bytes = .ok i) : recordUsesBus bytes = usesBus i := by
  rw [recordUsesBus, hd]

/-- A request is ready when its caller is one of the block's and waits for nothing (00_scope R10, 10_state R50). -/
theorem State.ready_record_iff (hc : recordCaller bytes = some c) :
    s.ready (.record bytes) = true ↔ c < s.params.nCallers ∧ s.isWaiting c = false := by
  simp [State.ready, hc]

/-- The hook's request is ready while the hook runs and waits for nothing (70 R352; log entry 19). -/
theorem State.ready_hook_iff {waits : Bool} (hc : recordCaller bytes = some c) :
    s.ready (.hook bytes waits) = true ↔ s.inHook = true ∧ c = s.params.nCallers ∧ s.isWaiting c = false := by
  simp [State.ready, hc, State.hookCaller]

theorem sameCaller_eq_false {a b : Input} (ha : inputCaller a = some c) (hb : inputCaller b ≠ some c) :
    sameCaller a b = false := by
  by_contra h
  obtain ⟨-, he⟩ := inputCaller_of_sameCaller (Bool.not_eq_false _ ▸ h)
  exact hb (he ▸ ha)

/-- The first ready input of its caller is made for some turn, whatever stands before it (42_frame_engine R228). -/
theorem State.exists_mover_input {inp : Input} {before after : List Input} (hi : s.inbox = before ++ inp :: after)
    (hr : s.ready inp = true) (hc : inputCaller inp = some c) (hb : ∀ b ∈ before, inputCaller b ≠ some c) :
    ∃ k, ({ s with turn := k } : State).mover = some (.input inp (before ++ after)) :=
  State.mover_of_mem (State.input_mem_moves.2
    ⟨before, after, hi, rfl, hr, fun b hmem => sameCaller_eq_false hc (hb b hmem)⟩)

theorem State.ready_of_input_mem_moves {inp : Input} {rest : List Input} (h : .input inp rest ∈ s.moves) :
    s.ready inp = true := by
  obtain ⟨_, _, _, _, hr, _⟩ := State.input_mem_moves.1 h
  exact hr

end record

/-- Settles O3: the step takes the chosen input, whose record is a request, and the first ready input of its caller is
the choice of some turn. -/
theorem stepRunsDecodedRecord : Obligations.StepRunsDecodedRecord := by
  refine ⟨fun s bytes rest i c hd hc => ⟨fun hm => ?_, fun waits hm => ?_⟩,
    fun s bytes before after i c hd hc hw hb => ⟨fun hi hn => ?_, fun waits hi hn hh => ?_⟩⟩
  · rw [step_of_mover hm, s.settleTurn_eq_redraw]
    exact takeRecord_request hd hc _
  · rw [step_of_mover hm, s.settleTurn_eq_redraw, ← recordUsesBus_of_decodeRecord hd]
    exact takeRecord_request hd hc _
  · have caller := (recordCaller_of_decodeRecord hd).trans hc
    exact State.exists_mover_input hi ((State.ready_record_iff caller).2 ⟨hn, hw⟩) caller hb
  · have caller := (recordCaller_of_decodeRecord hd).trans hc
    exact State.exists_mover_input hi ((State.ready_hook_iff caller).2 ⟨hh, hn, hw⟩) caller hb

/-! #### A caller that waits -/

section waiting
variable {s : State} {i : Instr} {c : Nat} (hw : s.isWaiting c = true)
include hw

theorem State.answer_of_isWaiting (r : Except Error (Value × State)) :
    s.answer c i r = .refused .callerStillWaiting := if_pos hw

theorem State.startJob_of_isWaiting (r : Except Error (Job × Transaction)) :
    s.startJob c i r = .refused .callerStillWaiting := if_pos hw

theorem State.answerView_of_isWaiting (v : FieldView) (f : RegDef → Except Error Value) :
    s.answerView c i v f = .refused .callerStillWaiting := by
  unfold State.answerView
  split
  · exact State.answer_of_isWaiting hw _
  · exact if_pos hw

/-- No operation of a waiting caller has a meaning (42_frame_engine R238). -/
theorem exec_of_isWaiting (hc : callerOf i = some c) :
    exec i s = .refused .callerStillWaiting ∨ i = .invalid0 c ∨ i = .invalidF c := by
  cases i <;> cases hc
  case invalid0 => exact .inr (.inl rfl)
  case invalidF => exact .inr (.inr rfl)
  case viewGet | viewFields => exact .inl (State.answerView_of_isWaiting hw _ _)
  case cl22WriteFrame | cl22ReadFrame | mdioWrite | mdioRead | readRegister | reset =>
    exact .inl (State.startJob_of_isWaiting hw _)
  case writeRegister => exact .inl (State.startJob_of_isWaiting (s := s.tick) hw _)
  case defineRegister | defineField | freeze | lookup | unpack | reverse => exact .inl (State.answer_of_isWaiting hw _)
  case pack => exact .inl (State.answer_of_isWaiting (s := s.tick) hw _)

end waiting

/-- Settles O48: what moves is ready, and such a record is not. -/
theorem secondRequestHasNoMove : Obligations.SecondRequestHasNoMove := by
  intro s bytes i c hd hc
  have caller := (recordCaller_of_decodeRecord hd).trans hc
  refine ⟨fun h rest hm => ?_, fun h rest waits hm => ?_, fun hw => exec_of_isWaiting hw hc⟩
  · obtain ⟨hn, hw⟩ := (State.ready_record_iff caller).1 (State.ready_of_input_mem_moves hm)
    rcases h with h | h
    · simp [hw] at h
    · exact Nat.not_lt.2 h hn
  · obtain ⟨hh, hn, hw⟩ := (State.ready_hook_iff caller).1 (State.ready_of_input_mem_moves hm)
    rcases h with h | h | h
    · simp [hw] at h
    · exact h hn
    · simp [hh] at h

end Sys2Proof.Machine

/-! ### A coherent machine never stops (42_frame_engine R230, R232; 43_client R280) -/

namespace Sys2Proof.Machine

open Sys2Proof.Config

/-- A caller that waits for nothing gets a next state from every request (42_frame_engine R228). -/
theorem exec_next_of_not_isWaiting {s : State} {i : Instr} {c : Nat} (hc : callerOf i = some c)
    (hw : s.isWaiting c = false) : ∃ t, exec i s = .next t := by
  cases hu : usesBus i
  · obtain ⟨_, ⟨h, _⟩ | e | ⟨_, _, e⟩ | ⟨_, _, _, _, e, _⟩⟩ := exec_model_cases s hu hc
    · simp [hw] at h
    all_goals exact ⟨_, e⟩
  · obtain ⟨_, ⟨h, _⟩ | ⟨_, _, e⟩ | ⟨_, _, _, _, e⟩⟩ := exec_bus_cases s hu hc
    · simp [hw] at h
    all_goals exact ⟨_, e⟩

/-- A record whose caller, if it names one, waits for nothing. -/
theorem takeRecord_next {s : State} {bytes : List Byte} (hw : ∀ c, recordCaller bytes = some c → s.isWaiting c = false) :
    ∃ t, takeRecord bytes s = .next t := by
  rcases takeRecord_cases bytes s with ⟨i, c, hd, hc, e⟩ | ⟨_, e⟩
  · rw [e]
    exact exec_next_of_not_isWaiting hc (hw c ((recordCaller_of_decodeRecord hd).trans hc))
  · exact ⟨_, e⟩

/-- A ready input is taken, since its caller waits for nothing (10_state R50). -/
theorem takeInput_next_of_ready {s t : State} {inp : Input} (hr : s.ready inp = true) (hp : t.pending = s.pending) :
    ∃ u, takeInput inp t = .next u := by
  have waiting (c : Nat) : t.isWaiting c = s.isWaiting c := by rw [State.isWaiting, State.isWaiting, hp]
  rcases takeInput_cases inp t with ⟨_, e⟩ | ⟨bytes, rfl, e⟩ | ⟨bytes, w, rfl, e⟩
  · exact ⟨_, e⟩
  · rw [e]
    exact takeRecord_next fun c hc => (waiting c).trans ((State.ready_record_iff hc).1 hr).2
  · rw [e]
    exact takeRecord_next fun c hc => (waiting c).trans ((State.ready_hook_iff hc).1 hr).2.2

/-- A field of a well-formed register holds a 1, so setting it alone cannot fail (43_client R280 "cannot fail"). -/
theorem packWord_single_one {mode : PackMerge} {m : RegMap} {k a : Nat} {n : String} {r : RegDef} {f : FieldDef}
    (ha : a ≤ 63) (hm : regmapWf m = true) (hr : regFind m a = some r) (hf : r.field? n = some f) (x : Word) :
    ∃ w, packWord mode k m a [(n, 1)] x.toNat = .ok w := by
  obtain ⟨wide, -⟩ := FieldDef.wf_of_field? (RegDef.wf_of_regFind hm hr) hf
  refine ⟨_, packWord_eq_ok ha (by omega) hr ?_ ?_ ?_⟩
  · simp [hf]
  · simpa [hf] using Nat.ne_of_gt wide
  · simp only [List.mem_singleton]
    rintro _ rfl _ rfl ⟨f1, f2, p, h1, h2, _, _, hne⟩
    obtain rfl : f1 = f2 := Option.some.inj (h1.symm.trans h2)
    exact hne rfl

/-- The framer's step of a coherent busy state raises none of its faults (log entry 20). -/
theorem Coherent.framerStep_next {s : State} (h : Coherent s) (hb : s.busy = true) :
    ∃ t, Machine.framerStep s = .next t := by
  rcases framerStep_cases s with ⟨a, _, e⟩ | ⟨j, c, hj, _, _, e⟩ | ⟨hno, _⟩ | ⟨hpast, _⟩
  · exact ⟨_, e⟩
  · rw [e]
    rcases finishJob_cases j c s with ⟨_, e⟩ | ⟨_, _, e, _⟩ | ⟨phy, err, rfl, herr, _⟩
    · exact ⟨_, e⟩
    · exact ⟨_, e⟩
    · obtain ⟨r, f, hr, hf⟩ := h.reset_field phy hj
      obtain ⟨w, hw⟩ := packWord_single_one (Nat.zero_le 63) h.regmap_wf hr hf s.rdata
      cases herr.symm.trans hw
  · have job := h.job_iff.trans hb
    have owner := h.owner_iff.trans hb
    rcases hno with hno | hno
    · simp [hno] at job
    · simp [hno] at owner
  · exact absurd h.pc_le (Nat.not_le.2 hpast)

/-- Settles O8: by the move that the step makes. -/
theorem coherentMachineNeverStops : Obligations.CoherentMachineNeverStops := by
  intro s h
  rcases step_cases s with ⟨_, e⟩ | ⟨_, hb, _, e⟩ | ⟨inp, rest, _, hr, e⟩
  · exact ⟨_, e⟩
  · rw [e]
    exact h.settleTurn.framerStep_next (by simpa using hb)
  · rw [e]
    exact takeInput_next_of_ready hr s.settleTurn_pending

end Sys2Proof.Machine

/-! ### The frame in flight while records come (42_frame_engine R229, R235; 70 R352) -/

namespace Sys2Proof.Machine

/-- From `s` to `t` the frame in flight and the callers' outstanding requests stay as they are. -/
def FrameKept (s t : State) : Prop :=
  t.busy = s.busy ∧ t.job = s.job ∧ t.actions = s.actions ∧ t.pc = s.pc ∧ t.txn = s.txn ∧ t.rdata = s.rdata ∧
    t.ta = s.ta ∧ t.lines = s.lines ∧ t.owner = s.owner ∧ t.pending = s.pending

theorem FrameKept.refl (s : State) : FrameKept s s := ⟨rfl, rfl, rfl, rfl, rfl, rfl, rfl, rfl, rfl, rfl⟩

/-- A busy block accepts no bus-using request (42_frame_engine R229), so a request leaves the frame and the hook alone. -/
theorem exec_keeps_frame {s t : State} {i : Instr} {c : Nat} (hc : callerOf i = some c) (hb : s.busy = true)
    (ht : exec i s = .next t) : FrameKept s t ∧ t.hookWaits = s.hookWaits := by
  obtain ⟨d, rfl | ⟨e, rfl⟩ | ⟨_, m, f, v, rfl, _⟩ | ⟨_, j, x, ⟨_, idle, _⟩, _⟩⟩ := exec_next_cases hc ht
  · exact ⟨.refl s, rfl⟩
  · exact ⟨.refl s, rfl⟩
  · exact ⟨.refl s, rfl⟩
  · simp [hb] at idle

theorem takeRecord_keeps_frame {s t : State} {bytes : List Byte} (hb : s.busy = true)
    (ht : takeRecord bytes s = .next t) : FrameKept s t ∧ t.hookWaits = s.hookWaits := by
  rcases takeRecord_cases bytes s with ⟨i, c, _, hc, e⟩ | ⟨_, e⟩ <;> rw [e] at ht
  · exact exec_keeps_frame hc hb ht
  · cases ht
    exact ⟨.refl s, rfl⟩

/-- An input other than a block reset leaves the frame alone, and a hook that waits goes on waiting (70 R352). -/
theorem takeInput_keeps_frame {s t : State} {inp : Input} (hb : s.busy = true) (hne : inp ≠ .blockReset)
    (ht : takeInput inp s = .next t) : FrameKept s t ∧ (s.hookWaits = true → t.hookWaits = true) := by
  rcases takeInput_cases inp s with ⟨rfl, _⟩ | ⟨bytes, _, e⟩ | ⟨bytes, w, _, e⟩
  · exact absurd rfl hne
  · rw [e] at ht
    exact (takeRecord_keeps_frame hb ht).imp_right fun hk hw => hk.trans hw
  · rw [e] at ht
    obtain ⟨frame, hook⟩ := takeRecord_keeps_frame (s := s.hookAsks bytes w) hb ht
    exact ⟨frame, fun hw => by simp [hook, hw]⟩

/-- Settles O11: while the hook waits the framer has no move, and an input leaves the frame alone. -/
theorem noRecordDisturbsFrameInFlight : Obligations.NoRecordDisturbsFrameInFlight := by
  refine ⟨fun s t inp hb hne ht => (takeInput_keeps_frame hb hne ht).1, fun s t hb hw ht => ?_⟩
  rcases step_cases s with ⟨_, e⟩ | ⟨_, _, free, _⟩ | ⟨inp, rest, hm, _, e⟩
  · cases e.symm.trans ht
    exact .inr ⟨hw, hb, (FrameKept.refl s).2⟩
  · simp [hw] at free
  · by_cases hr : inp = .blockReset
    · exact .inl ⟨rest, hr ▸ hm⟩
    · obtain ⟨frame, hook⟩ :=
        takeInput_keeps_frame (s := { s.settleTurn with inbox := rest }) (by simpa using hb) hr (e.symm.trans ht)
      simp only [FrameKept, State.settleTurn_busy, State.settleTurn_job, State.settleTurn_actions, State.settleTurn_pc,
        State.settleTurn_txn, State.settleTurn_rdata, State.settleTurn_ta, State.settleTurn_lines,
        State.settleTurn_owner, State.settleTurn_pending] at frame
      exact .inr ⟨hook (by simpa using hw), frame.1.trans hb, frame.2⟩

end Sys2Proof.Machine

/-! ### The raw transactions as requests (42_frame_engine R226 to R228, R232, R234) -/

namespace Sys2Proof.Machine

section raw
variable {s : State} {c phy reg data : Nat}

/-- A failing check of PhyWrite is MDIO_WRITE's answer. -/
theorem exec_mdioWrite_of_error {e : Error} (hw : s.isWaiting c = false) (h : phyWrite s phy reg data = .error e) :
    exec (.mdioWrite c phy reg data) s = .next (s.afterError c e) :=
  (congrArg (s.startJob c _) h).trans (State.startJob_error hw)

/-- A failing check of PhyRead is MDIO_READ's answer. -/
theorem exec_mdioRead_of_error {e : Error} (hw : s.isWaiting c = false) (h : phyRead s phy reg = .error e) :
    exec (.mdioRead c phy reg) s = .next (s.afterError c e) :=
  (congrArg (s.startJob c _) h).trans (State.startJob_error hw)

/-- In range, only PhyWrite's busy guard is left (42_frame_engine R229). -/
theorem phyWrite_of_inRange (hf : s.frozen = true) (hp : phy ≤ 31) (hr : reg ≤ 31) (hd : data ≤ 0xFFFF) :
    phyWrite s phy reg data = s.needIdle (.ok (.frame (.write phy reg data),
      .write (BitVec.ofNat 5 phy) (BitVec.ofNat 5 reg) (BitVec.ofNat 16 data))) := by
  rw [phyWrite, State.needFrozen_of_frozen hf, checkArg_of_le _ hp, checkArg_of_le _ hr, checkArg_of_le _ hd]

/-- In range, only PhyRead's busy guard is left (42_frame_engine R229). -/
theorem phyRead_of_inRange (hf : s.frozen = true) (hp : phy ≤ 31) (hr : reg ≤ 31) :
    phyRead s phy reg = s.needIdle (.ok (.frame (.read phy reg), .read (BitVec.ofNat 5 phy) (BitVec.ofNat 5 reg))) := by
  rw [phyRead, State.needFrozen_of_frozen hf, checkArg_of_le _ hp, checkArg_of_le _ hr]

/-- MDIO_WRITE's accepting step (42_frame_engine R226, R228). -/
theorem exec_mdioWrite_accept (hw : s.isWaiting c = false) (hf : s.frozen = true) (hb : s.busy = false)
    (hp : phy ≤ 31) (hr : reg ≤ 31) (hd : data ≤ 0xFFFF) :
    exec (.mdioWrite c phy reg data) s = .next (s.afterAccept c (.mdioWrite c phy reg data)
      (.frame (.write phy reg data)) (.write (BitVec.ofNat 5 phy) (BitVec.ofNat 5 reg) (BitVec.ofNat 16 data))) :=
  (congrArg (s.startJob c _) ((phyWrite_of_inRange hf hp hr hd).trans (State.needIdle_of_idle hb _))).trans
    (State.startJob_ok hw)

/-- MDIO_READ's accepting step (42_frame_engine R227, R228). -/
theorem exec_mdioRead_accept (hw : s.isWaiting c = false) (hf : s.frozen = true) (hb : s.busy = false)
    (hp : phy ≤ 31) (hr : reg ≤ 31) :
    exec (.mdioRead c phy reg) s = .next (s.afterAccept c (.mdioRead c phy reg)
      (.frame (.read phy reg)) (.read (BitVec.ofNat 5 phy) (BitVec.ofNat 5 reg))) :=
  (congrArg (s.startJob c _) ((phyRead_of_inRange hf hp hr).trans (State.needIdle_of_idle hb _))).trans
    (State.startJob_ok hw)

/-- The finish of a raw write (42_frame_engine R232). -/
theorem framerStep_finish_write (h : s.atFinish (.frame (.write phy reg data)) c) :
    framerStep s = .next (s.afterFinish c (.ok .unit)) :=
  (framerStep_atFinish h).trans (congrArg Host.Outcome.next (s.finish_eq_afterFinish ..))

/-- The finish of a raw read (42_frame_engine R232, R234). -/
theorem framerStep_finish_read (h : s.atFinish (.frame (.read phy reg)) c) :
    framerStep s = .next (s.afterFinish c (s.resultOfRead (.word s.rdata))) := by
  rw [framerStep_atFinish h, finishJob, s.finish_eq_afterFinish, s.readResult_eq_resultOfRead]

end raw

/-- Settles O43: the checks in their order, then the frame's load; and the finish of a write. -/
theorem mdioWriteResult : Obligations.MdioWriteResult := by
  refine ⟨?_, fun _ _ _ _ _ => framerStep_finish_write⟩
  intro s c phy reg data hw i
  refine ⟨fun hf => ?_, fun hf hp => ?_, fun hf hp hr => ?_, fun hf hp hr hd => ?_, fun hf hp hr hd hb => ?_,
    fun hf hp hr hd hb => exec_mdioWrite_accept hw hf hb hp hr hd⟩ <;> refine exec_mdioWrite_of_error hw ?_
  · exact State.needFrozen_of_not_frozen hf _
  · rw [phyWrite, State.needFrozen_of_frozen hf, checkArg_of_gt _ hp]
  · rw [phyWrite, State.needFrozen_of_frozen hf, checkArg_of_le _ hp, checkArg_of_gt _ hr]
  · rw [phyWrite, State.needFrozen_of_frozen hf, checkArg_of_le _ hp, checkArg_of_le _ hr, checkArg_of_gt _ hd]
  · exact (phyWrite_of_inRange hf hp hr hd).trans (State.needIdle_of_busy hb _)

/-- Settles O44: the checks in their order, then the frame's load; and the finish of a read. -/
theorem mdioReadResult : Obligations.MdioReadResult := by
  refine ⟨?_, fun _ _ _ _ => framerStep_finish_read⟩
  intro s c phy reg hw i
  refine ⟨fun hf => ?_, fun hf hp => ?_, fun hf hp hr => ?_, fun hf hp hr hb => ?_,
    fun hf hp hr hb => exec_mdioRead_accept hw hf hb hp hr⟩ <;> refine exec_mdioRead_of_error hw ?_
  · exact State.needFrozen_of_not_frozen hf _
  · rw [phyRead, State.needFrozen_of_frozen hf, checkArg_of_gt _ hp]
  · rw [phyRead, State.needFrozen_of_frozen hf, checkArg_of_le _ hp, checkArg_of_gt _ hr]
  · exact (phyRead_of_inRange hf hp hr).trans (State.needIdle_of_busy hb _)

end Sys2Proof.Machine

/-! ### The busy guard (42_frame_engine R229) -/

namespace Sys2Proof.Machine

open Sys2Proof.Config

/-- The result of checks whose last one, the busy guard, fails: BusBusy where they would pass. -/
def guardedBusy {α : Type} (r : Except Error α) : Except Error α := r.bind fun _ => .error .busBusy

section guard
variable {α : Type} {next : Except Error α}

@[simp] theorem guardedBusy_ok (x : α) : guardedBusy (.ok x) = .error .busBusy := rfl

@[simp] theorem guardedBusy_error (e : Error) : guardedBusy (.error e : Except Error α) = .error e := rfl

/-- Every other check comes before the guard, and fails as it does on an idle block. -/
@[simp] theorem guardedBusy_checkArg (arg : String) (v max : Nat) :
    guardedBusy (checkArg arg v max next) = checkArg arg v max (guardedBusy next) := apply_ite ..

@[simp] theorem guardedBusy_checkAddr (a : Nat) :
    guardedBusy (checkAddr a next) = checkAddr a (guardedBusy next) := apply_ite ..

@[simp] theorem guardedBusy_needFrozen (s : State) :
    guardedBusy (s.needFrozen next) = s.needFrozen (guardedBusy next) := apply_ite ..

@[simp] theorem guardedBusy_withReg (m : RegMap) (a : Nat) (f : RegDef → Except Error α) :
    guardedBusy (withReg m a f) = withReg m a fun r => guardedBusy (f r) := by
  unfold withReg
  split <;> rfl

@[simp] theorem guardedBusy_withField (a : Nat) (r : RegDef) (n : String) (f : FieldDef → Except Error α) :
    guardedBusy (withField a r n f) = withField a r n fun d => guardedBusy (f d) := by
  unfold withField
  split <;> rfl

@[simp] theorem guardedBusy_checkBank (ext : ExtAccess) (a : Nat) :
    guardedBusy (checkBank ext a next) = checkBank ext a (guardedBusy next) := by
  cases ext
  · exact apply_ite ..
  · rfl

@[simp] theorem guardedBusy_checkBaseView (a : Nat) (base : Option FieldView) :
    guardedBusy (checkBaseView a base next) = checkBaseView a base (guardedBusy next) := by
  cases base
  · rfl
  · exact apply_ite ..

end guard

@[simp] theorem State.withBusy_params (s : State) (b : Bool) : (s.withBusy b).params = s.params := rfl

@[simp] theorem State.needFrozen_withBusy {α : Type} (s : State) (b : Bool) (next : Except Error α) :
    (s.withBusy b).needFrozen next = s.needFrozen next := rfl

/-- An idle block's guard passes what is behind it. -/
@[simp] theorem State.needIdle_withBusy_false {α : Type} (s : State) (next : Except Error α) :
    (s.withBusy false).needIdle next = next := rfl

section busy
variable {s : State} (hb : s.busy = true)
include hb

theorem phyWrite_of_busy (phy reg data : Nat) :
    phyWrite s phy reg data = guardedBusy (phyWrite (s.withBusy false) phy reg data) := by
  simp [phyWrite, State.needIdle_of_busy hb]

theorem phyRead_of_busy (phy reg : Nat) : phyRead s phy reg = guardedBusy (phyRead (s.withBusy false) phy reg) := by
  simp [phyRead, State.needIdle_of_busy hb]

theorem readRegisterJob_of_busy (phy a : Nat) :
    readRegisterJob s phy a = guardedBusy (readRegisterJob (s.withBusy false) phy a) := by
  simp [readRegisterJob, State.needIdle_of_busy hb]

theorem writeRegisterJob_of_busy (k phy a : Nat) (F : FieldMap) (base : Option FieldView) :
    writeRegisterJob s k phy a F base = guardedBusy (writeRegisterJob (s.withBusy false) k phy a F base) := by
  simp only [writeRegisterJob, State.withBusy_regmap, State.withBusy_params, guardedBusy_needFrozen,
    guardedBusy_checkArg, guardedBusy_checkAddr, guardedBusy_withReg, guardedBusy_checkBaseView,
    State.needFrozen_withBusy]
  cases packWord s.params.packMerge k s.regmap a F (baseWord base).toNat <;> simp [State.needIdle_of_busy hb]

theorem resetJob_of_busy (phy : Nat) : resetJob s phy = guardedBusy (resetJob (s.withBusy false) phy) := by
  simp [resetJob, State.needIdle_of_busy hb]

end busy

/-- A request that an idle block accepts, and whose checks differ on a busy one in the guard alone, is answered with
BusBusy there. -/
theorem State.startJob_guardedBusy {s t : State} {c : Nat} {i : Instr} {r r' : Except Error (Job × Transaction)}
    (hr : r' = guardedBusy r) (h : (s.withBusy false).startJob c i r = .next t) (ht : t.busy = true) :
    s.startJob c i r' = .next ({ s with draws := t.draws }.afterError c .busBusy) := by
  rcases (s.withBusy false).startJob_cases c i r with ⟨_, e⟩ | ⟨hw, j, x, rfl, e⟩ | ⟨_, _, _, e⟩ <;>
    rw [e] at h <;> cases h
  · subst hr
    rw [State.accept_eq_afterAccept]
    exact State.startJob_error hw
  · cases ht

/-- Settles O49: each row's checks end in the busy guard. -/
theorem busyGuardRaisesBusBusy : Obligations.BusyGuardRaisesBusBusy := by
  intro i c s t hu hc hb h ht
  cases i <;> cases hu <;> cases hc
  case cl22WriteFrame => exact State.startJob_guardedBusy (phyWrite_of_busy hb ..) h ht
  case cl22ReadFrame => exact State.startJob_guardedBusy (phyRead_of_busy hb ..) h ht
  case mdioWrite => exact State.startJob_guardedBusy (phyWrite_of_busy hb ..) h ht
  case mdioRead => exact State.startJob_guardedBusy (phyRead_of_busy hb ..) h ht
  case readRegister => exact State.startJob_guardedBusy (readRegisterJob_of_busy hb ..) h ht
  case writeRegister => exact State.startJob_guardedBusy (s := s.tick) (writeRegisterJob_of_busy hb ..) h ht
  case reset => exact State.startJob_guardedBusy (resetJob_of_busy hb ..) h ht

end Sys2Proof.Machine

/-! ### The framer's action step (42_frame_engine R230) -/

namespace Sys2Proof.Machine

/-- The framer's step performs the action at S.pc as the instruction it is, then advances S.pc. -/
theorem framerStep_of_action {s t : State} {a : Action} (ha : s.actions[s.pc]? = some a)
    (h : exec a.toInstr s = .next t) : framerStep s = .next t.advancePc := by
  rw [framerStep, ha]
  simp only [actionStep, h]

/-- Settles O50: DRIVE, DELAY and SAMPLE do what O31 and O32 say. -/
theorem actionStepResult : Obligations.ActionStepResult := by
  intro s a ha b
  obtain ⟨drive, delay⟩ := driveAndDelayResult s
  obtain ⟨dataIn, turnaround, nowhere⟩ := sampleResult s
  refine ⟨?_, ?_, ?_, ?_, ?_⟩
  · rintro w rfl
    exact framerStep_of_action ha (drive w)
  · rintro rfl
    exact framerStep_of_action ha delay
  · rintro rfl hp
    exact framerStep_of_action ha (dataIn hp)
  · rintro rfl hp hta
    exact framerStep_of_action ha (turnaround hp hta)
  · rintro rfl hp hta
    exact framerStep_of_action ha (nowhere hp hta)

end Sys2Proof.Machine

/-! ### Where the Samples of a frame stand (42_frame_engine R223 to R225) -/

namespace Sys2Proof.Machine

open Sys2Proof.Config

theorem getElem?_ne_sample_of_countP_eq_zero {l : List Action} (h : l.countP Action.isSample = 0) (k : Nat) :
    l[k]? ≠ some .sample :=
  fun hk => absurd rfl (List.countP_eq_zero.1 h _ (List.mem_of_getElem? hk))

/-- The two released bits between a read frame's header and its data; CHECK_TA samples the second (41_bitbang R201). -/
def turnaroundActions (p : Params) : List Action :=
  releaseActions ++ if p.checkTa then relcActions else releaseActions

theorem readActions_eq (p : Params) (phy reg : Addr5) : readActions p phy reg =
    headerActions 0b10 phy reg ++ turnaroundActions p ++ shiftInActions p.samplePoint ++
      (releaseActions ++ releaseActions) := rfl

/-- Where DATA_IN begins in a read frame (42_frame_engine R225). -/
theorem length_header_turnaround (p : Params) (phy reg : Addr5) :
    (headerActions 0b10 phy reg ++ turnaroundActions p).length = if p.checkTa then 290 else 288 := by
  cases h : p.checkTa <;> simp [length_headerActions, turnaroundActions, h, releaseActions, relcActions]

/-- The turnaround's one Sample is the checked release's (41_bitbang R201). -/
theorem turnaroundActions_sample_iff (p : Params) (k : Nat) :
    (turnaroundActions p)[k]? = some .sample ↔ p.checkTa = true ∧ k = 8 := by
  unfold turnaroundActions
  by_cases hk : k < 14
  · cases p.checkTa <;> interval_cases k <;> simp [releaseActions, relcActions]
  · rw [List.getElem?_eq_none (by split <;> simp [releaseActions, relcActions] <;> omega)]
    simp; omega

theorem readActions_getElem?_turnaround (p : Params) (phy reg : Addr5) {k : Nat}
    (hk : k < (turnaroundActions p).length) :
    (readActions p phy reg)[276 + k]? = (turnaroundActions p)[k]? := by
  rw [readActions_eq, List.append_assoc, List.append_assoc,
    List.getElem?_append_right (by simp [length_headerActions]),
    List.getElem?_append_left (by simpa [length_headerActions]), length_headerActions, Nat.add_sub_cancel_left]

theorem readActions_getElem?_dataIn (p : Params) (phy reg : Addr5) {k : Nat} (hk : k < 96) :
    (readActions p phy reg)[(if p.checkTa then 290 else 288) + k]? = (shiftInActions p.samplePoint)[k]? := by
  rw [readActions_eq, List.append_assoc, ← length_header_turnaround p phy reg, List.getElem?_append_right (by omega),
    Nat.add_sub_cancel_left, List.getElem?_append_left (by rwa [length_shiftInActions])]

/-- A Sample of a read frame stands among the turnaround's actions or among the data's. -/
theorem readActions_sample_cases {p : Params} {phy reg : Addr5} {pc : Nat}
    (h : (readActions p phy reg)[pc]? = some .sample) :
    (∃ k, pc = 276 + k ∧ (turnaroundActions p)[k]? = some .sample) ∨
      ∃ k, pc = (if p.checkTa then 290 else 288) + k ∧ k < 96 := by
  have header := getElem?_ne_sample_of_countP_eq_zero (counts_headerActions 0b10 phy reg).samples
  have closing := getElem?_ne_sample_of_countP_eq_zero (counts_releaseActions.append counts_releaseActions).samples
  rw [readActions_eq, List.getElem?_append] at h
  split at h
  · next hdata =>
    rw [List.getElem?_append] at h
    split at h
    · rw [List.getElem?_append, length_headerActions] at h
      split at h
      · exact absurd h (header pc)
      · next hpc => exact .inl ⟨pc - 276, (Nat.add_sub_of_le (Nat.not_lt.1 hpc)).symm, h⟩
    · next hpc =>
      rw [length_header_turnaround] at hpc
      rw [List.length_append, length_header_turnaround, length_shiftInActions] at hdata
      exact .inr ⟨_, (Nat.add_sub_of_le (Nat.not_lt.1 hpc)).symm, by omega⟩
  · exact absurd h (closing _)

/-- With before_rise a data bit's first action is its Sample (41_bitbang R198). -/
theorem shiftInActions_beforeRise_sample {i : Nat} (hi : i < 16) :
    (shiftInActions .beforeRise)[6 * i]? = some .sample := by
  revert i
  decide

/-- Settles O42: by the part of the frame that the position falls into. -/
theorem samplePositionsAndPhases : Obligations.SamplePositionsAndPhases := by
  refine ⟨fun phy reg data => getElem?_ne_sample_of_countP_eq_zero (counts_writeActions phy reg data).samples,
    fun p phy reg pc h => ?_, fun p phy reg i hp hi => ?_⟩
  · rcases readActions_sample_cases h with ⟨k, rfl, hk⟩ | ⟨k, rfl, hk⟩
    · obtain ⟨checked, rfl⟩ := (turnaroundActions_sample_iff p k).1 hk
      exact .inr ⟨checked, rfl, phaseAt_turnaround (by omega)⟩
    · exact .inl (phaseAt_dataIn hk)
  · have data := (readActions_getElem?_dataIn p phy reg (k := 6 * i) (by omega)).trans
      (hp ▸ shiftInActions_beforeRise_sample hi)
    refine ⟨fun hta => ?_, fun hta => ?_⟩ <;> rw [hta] at data
    · exact ⟨data, phaseAt_dataIn (checkTa := false) (by omega)⟩
    · have sample := (turnaroundActions_sample_iff p 8).2 ⟨hta, rfl⟩
      refine ⟨data, ?_, phaseAt_dataIn (checkTa := true) (by omega)⟩
      exact (readActions_getElem?_turnaround p phy reg (List.getElem?_eq_some_iff.1 sample).1).trans sample

end Sys2Proof.Machine

/-! ### Whole transactions (42_frame_engine R223, R224, R230 to R237) -/

namespace Sys2Proof.Machine

open Sys2Proof.Config

/-! #### Runs, one after another -/

/-- `n` steps lead from `s` to `t`. -/
def RunsTo (n : Nat) (s t : State) : Prop := (Sys2Proof.core.run n s : Answer) = .next t

/-- A run goes on from where its first steps lead. -/
theorem core_run_add {M : Host.Core} {m n : Nat} {s t : M.State} (h : M.run m s = .next t) :
    M.run (m + n) s = M.run n t := by
  induction m generalizing s with
  | zero =>
    cases h
    rw [Nat.zero_add]
  | succ m ih =>
    rw [Nat.add_right_comm]
    cases hs : M.step s with
    | next s' =>
      simp only [Host.Core.run, hs] at h ⊢
      exact ih h
    | fault r => simp [Host.Core.run, hs] at h
    | refused r => simp [Host.Core.run, hs] at h

theorem RunsTo.trans {m n : Nat} {s t u : State} (h : RunsTo m s t) (h' : RunsTo n t u) : RunsTo (m + n) s u :=
  (core_run_add (M := Sys2Proof.core) h).trans h'

theorem runsTo_one {s t : State} (h : step s = .next t) : RunsTo 1 s t := core_run_of_next 0 h

/-- `s` with actions performed and S.pc behind them. -/
def State.afterActions (s : State) (d : SampleDest) (l : List Action) : State :=
  { s.performAll d l with pc := s.pc + l.length }

theorem State.afterActions_eq {s t : State} {d : SampleDest} {l : List Action} (h : s.performAll d l = t) :
    s.afterActions d l = { t with pc := s.pc + l.length } := by
  rw [State.afterActions, h]

/-- The frame of `x` is in flight under the parameters `p` and nothing but the framer can move: the actions `done` are
performed, and `todo` stand at S.pc (10_state R33). -/
structure State.InFrame (s : State) (p : Params) (x : Transaction) (done todo : List Action) : Prop where
  busy : s.busy = true
  hookReturns : s.hookWaits = false
  alone : s.inbox = []
  params : s.params = p
  txn : s.txn = some x
  actions : s.actions = done ++ todo
  pc : s.pc = done.length

section inFrame
variable {s : State} {p : Params} {x : Transaction} {done l todo : List Action}

theorem State.InFrame.afterActions (h : s.InFrame p x done (l ++ todo)) (d : SampleDest) :
    (s.afterActions d l).InFrame p x (done ++ l) todo := by
  rw [State.afterActions, State.performAll_frame]
  exact { h with
    actions := h.actions.trans (List.append_assoc ..).symm
    pc := by rw [List.length_append, ← h.pc] }

/-- The framer performs the next actions one a step, when all their Samples go to one place (42_frame_engine R230). -/
theorem State.InFrame.runsTo (h : s.InFrame p x done (l ++ todo)) {d : SampleDest}
    (hd : ∀ k, l[k]? = some .sample → destOfPhase (phaseAt p.checkTa x.dir (done.length + k)) = d) :
    RunsTo l.length s (s.afterActions d l) := by
  refine run_actions d l h.busy h.hookReturns h.alone (fun k hk => ?_) (fun k hk => ?_)
  · rw [h.actions, h.pc, List.getElem?_append_right (Nat.le_add_right ..), Nat.add_sub_cancel_left,
      List.getElem?_append_left hk]
  · simp only [State.phase, h.busy, h.txn, h.params, h.pc, if_true]
    exact hd k hk

/-- Actions without a Sample run whatever the phase. -/
theorem State.InFrame.runsTo_of_noSample (h : s.InFrame p x done (l ++ todo)) (hl : l.countP Action.isSample = 0) :
    RunsTo l.length s (s.afterActions .discard l) :=
  h.runsTo fun k hk => absurd hk (getElem?_ne_sample_of_countP_eq_zero hl k)

/-- The framer's finish step, when nothing else can move (42_frame_engine R232). -/
theorem State.InFrame.runsTo_finish {t : State} (h : s.InFrame p x done []) (hf : framerStep s = .next t) :
    RunsTo 1 s t :=
  runsTo_one ((step_alone h.busy h.hookReturns h.alone).trans hf)

theorem State.InFrame.atFinish (h : s.InFrame p x done []) {j : Job} {c : Nat} (hj : s.job = some j)
    (hc : s.owner = some c) : s.atFinish j c :=
  ⟨h.busy, hj, hc, by rw [h.pc, h.actions, List.append_nil]⟩

end inFrame

/-! #### Actions that drive, and the word they leave on the lines -/

/-- The actions sample nothing and leave `w` on the lines. -/
def DrivesTo (l : List Action) (w : DriveWord) : Prop :=
  ∀ (s : State) (d : SampleDest), s.performAll d l =
    { s with lines := some w, trace := s.trace ++ eventsFrom s.draws l }

theorem DrivesTo.countP_isSample {l : List Action} {w : DriveWord} (h : DrivesTo l w) :
    l.countP Action.isSample = 0 := by
  have draws := congrArg State.draws ((State.performAll_frame State.reset .discard l).symm.trans (h _ _))
  exact Nat.add_eq_left.1 draws

theorem DrivesTo.append {l l' : List Action} {w w' : DriveWord} (h : DrivesTo l w) (h' : DrivesTo l' w') :
    DrivesTo (l ++ l') w' := by
  intro s d
  rw [State.performAll_append, h, h', eventsFrom_append, h.countP_isSample, Nat.add_zero, ← List.append_assoc]

theorem drivesTo_releaseActions : DrivesTo releaseActions 0b000 :=
  fun s d => s.performAll_writeBitActions d false false

/-- SHIFT_OUT leaves its last bit driven, the clock low (41_bitbang R202). -/
theorem drivesTo_shiftOutActions (v : Nat) {n : Nat} (hn : n ≠ 0) :
    DrivesTo (shiftOutActions v n true) (BitVec.ofNat 3 (4 * (v % 2) + 2)) := by
  intro s d
  have lowBit : (v.testBit 0).toNat = v % 2 := (Nat.toNat_testBit v 0).trans (by rw [Nat.pow_zero, Nat.div_one])
  have bitsOut := s.performAll_writeBits d true (bits v n)
  rw [getLast?_bits, if_neg hn, Option.map_some, driveWordOf_low, lowBit] at bitsOut
  rw [State.performAll_frame, (counts_shiftOutActions v n true).samples, shiftOutActions, bitsOut]
  rfl

theorem drivesTo_headerActions (op : Nat) (phy reg : Addr5) :
    DrivesTo (headerActions op phy reg) (BitVec.ofNat 3 (4 * (reg.toNat % 2) + 2)) :=
  ((((drivesTo_shiftOutActions _ (by decide)).append (drivesTo_shiftOutActions _ (by decide))).append
    (drivesTo_shiftOutActions _ (by decide))).append (drivesTo_shiftOutActions _ (by decide))).append
    (drivesTo_shiftOutActions _ (by decide))

/-- A write frame leaves the line driven to its last data bit (42_frame_engine R236). -/
theorem drivesTo_writeActions (phy reg : Addr5) (data : Word) :
    DrivesTo (writeActions phy reg data) (BitVec.ofNat 3 (4 * (data.toNat % 2) + 2)) :=
  ((drivesTo_headerActions 0b01 phy reg).append (drivesTo_shiftOutActions _ (by decide))).append
    (drivesTo_shiftOutActions _ (by decide))

/-! #### The write frame -/

/-- 42_frame_engine R223: 384 actions. -/
theorem length_writeActions (phy reg : Addr5) (data : Word) : (writeActions phy reg data).length = 384 := by
  simp [writeActions, length_headerActions, length_shiftOutActions]

/-- `s` after its write frame (42_frame_engine R223, R236). -/
def State.afterWriteFrame (s : State) (phy reg : Addr5) (data : Word) : State :=
  { s with
    lines := some (BitVec.ofNat 3 (4 * (data.toNat % 2) + 2))
    trace := s.trace ++ eventsFrom s.draws (writeActions phy reg data)
    pc := s.pc + 384 }

/-- A write frame's run (42_frame_engine R223, R230): it has no Sample. -/
theorem State.InFrame.runsTo_writeFrame {s : State} {p : Params} {phy reg : Addr5} {data : Word}
    (h : s.InFrame p (.write phy reg data) [] (writeActions phy reg data)) :
    RunsTo 384 s (s.afterWriteFrame phy reg data) ∧
      (s.afterWriteFrame phy reg data).InFrame p (.write phy reg data) (writeActions phy reg data) [] := by
  have drives := drivesTo_writeActions phy reg data
  have frame : s.InFrame p (.write phy reg data) [] (writeActions phy reg data ++ []) := by rwa [List.append_nil]
  have after : s.afterActions .discard (writeActions phy reg data) = s.afterWriteFrame phy reg data := by
    rw [State.afterActions_eq (drives _ _), length_writeActions, State.afterWriteFrame]
  rw [← after, ← length_writeActions phy reg data]
  exact ⟨frame.runsTo_of_noSample drives.countP_isSample, frame.afterActions .discard⟩

/-! #### The read frame -/

/-- The turnaround leaves the line released; with CHECK_TA its Sample goes to S.ta (41_bitbang R201, 10_state R37). -/
theorem State.performAll_turnaroundActions (s : State) : s.performAll .ta (turnaroundActions s.params) =
    { s with ta := if s.params.checkTa then some (dataIn (sampleAnswer s.draws)) else s.ta
             lines := some 0b000
             draws := s.draws + s.params.checkTa.toNat
             trace := s.trace ++ eventsFrom s.draws (turnaroundActions s.params) } := by
  rw [turnaroundActions, State.performAll_append, drivesTo_releaseActions, eventsFrom_append,
    drivesTo_releaseActions.countP_isSample]
  cases hta : s.params.checkTa
  · rw [if_neg Bool.false_ne_true, drivesTo_releaseActions, List.append_assoc]
    rfl
  · rw [if_pos rfl, State.performAll_relcActions, List.append_assoc]
    simp [hta]

/-- DATA_IN from S.rdata = 0 puts the 16 sampled bits into S.rdata (41_bitbang R204). -/
theorem State.performAll_shiftInActions {s : State} (hr : s.rdata = 0) (sp : SamplePoint) :
    s.performAll .rdata (shiftInActions sp) =
      { s with rdata := BitVec.ofNat 16 (wordOfBits (drawnBits s.draws 16))
               lines := some 0b000
               draws := s.draws + 16
               trace := s.trace ++ eventsFrom s.draws (shiftInActions sp) } := by
  have run := s.performAll_readBits sp 15
  rw [← hr] at run
  exact run

/-- The word that a read frame begun in `s` samples: with CHECK_TA the first free value is the turnaround's. -/
def State.sampledWord (s : State) : Word :=
  BitVec.ofNat 16 (wordOfBits (drawnBits (s.draws + s.params.checkTa.toNat) 16))

/-- `s` after its read frame (42_frame_engine R224, R236). -/
def State.afterReadFrame (s : State) (phy reg : Addr5) : State :=
  { s with
    rdata := s.sampledWord
    ta := if s.params.checkTa then some (dataIn (sampleAnswer s.draws)) else s.ta
    lines := some 0b000
    draws := s.draws + s.params.checkTa.toNat + 16
    trace := s.trace ++ eventsFrom s.draws (readActions s.params phy reg)
    pc := s.pc + (readActions s.params phy reg).length }

/-- The events and the length of a read frame, part by part: only the turnaround and the data have Samples. -/
theorem eventsFrom_readActions (k : Nat) (p : Params) (phy reg : Addr5) : eventsFrom k (readActions p phy reg) =
    eventsFrom k (headerActions 0b10 phy reg) ++ eventsFrom k (turnaroundActions p) ++
      eventsFrom (k + p.checkTa.toNat) (shiftInActions p.samplePoint) ++
      eventsFrom (k + p.checkTa.toNat + 16) (releaseActions ++ releaseActions) := by
  have turnaround : (turnaroundActions p).countP Action.isSample = p.checkTa.toNat := by
    cases h : p.checkTa <;> simp [turnaroundActions, h, releaseActions, relcActions, List.countP_cons, Action.isSample]
  rw [readActions_eq, eventsFrom_append, eventsFrom_append, eventsFrom_append, List.countP_append, List.countP_append,
    List.countP_append, (counts_headerActions 0b10 phy reg).samples, turnaround,
    (counts_shiftInActions p.samplePoint).samples, Nat.zero_add, Nat.add_zero, Nat.add_assoc]

/-- The four parts of a read frame together do what the whole frame does. -/
theorem State.afterActions_readFrame {s : State} (hr : s.rdata = 0) (phy reg : Addr5) :
    (((s.afterActions .discard (headerActions 0b10 phy reg)).afterActions .ta (turnaroundActions s.params)).afterActions
      .rdata (shiftInActions s.params.samplePoint)).afterActions .discard (releaseActions ++ releaseActions) =
      s.afterReadFrame phy reg := by
  have length : (readActions s.params phy reg).length = (headerActions 0b10 phy reg).length +
      (turnaroundActions s.params).length + (shiftInActions s.params.samplePoint).length +
      (releaseActions ++ releaseActions).length := by
    rw [readActions_eq, List.length_append, List.length_append, List.length_append]
  rw [State.afterActions_eq (drivesTo_headerActions 0b10 phy reg _ _),
    State.afterActions_eq (State.performAll_turnaroundActions _),
    State.afterActions_eq (State.performAll_shiftInActions ?_ _),
    State.afterActions_eq (drivesTo_releaseActions.append drivesTo_releaseActions _ _)]
  · simp only [State.afterReadFrame, State.sampledWord, eventsFrom_readActions, length, List.append_assoc, Nat.add_assoc]
  · exact hr

/-- A read frame's run (42_frame_engine R224, R225, R230): the turnaround's Sample goes to S.ta, the data's to S.rdata. -/
theorem State.InFrame.runsTo_readFrame {s : State} {phy reg : Addr5} (hr : s.rdata = 0)
    (h : s.InFrame s.params (.read phy reg) [] (readActions s.params phy reg)) :
    RunsTo (readActions s.params phy reg).length s (s.afterReadFrame phy reg) ∧
      (s.afterReadFrame phy reg).InFrame s.params (.read phy reg) (readActions s.params phy reg) [] := by
  have header : s.InFrame s.params (.read phy reg) [] (headerActions 0b10 phy reg ++ (turnaroundActions s.params ++
      (shiftInActions s.params.samplePoint ++ (releaseActions ++ releaseActions ++ [])))) := by
    simpa only [readActions_eq, List.append_assoc, List.append_nil] using h
  have turnaround := header.afterActions .discard
  have data := turnaround.afterActions .ta
  have closing := data.afterActions .rdata
  have headerRun := header.runsTo_of_noSample (counts_headerActions 0b10 phy reg).samples
  have turnaroundRun := turnaround.runsTo (d := .ta) fun k hk => by
    obtain ⟨-, rfl⟩ := (turnaroundActions_sample_iff s.params k).1 hk
    rw [List.nil_append, length_headerActions]
    exact congrArg destOfPhase (phaseAt_turnaround (by omega))
  have dataRun := data.runsTo (d := .rdata) fun k hk => by
    obtain ⟨hk, -⟩ := List.getElem?_eq_some_iff.1 hk
    rw [List.nil_append, length_header_turnaround]
    exact congrArg destOfPhase (phaseAt_dataIn (by rwa [length_shiftInActions] at hk))
  have closingRun := closing.runsTo_of_noSample (counts_releaseActions.append counts_releaseActions).samples
  rw [← State.afterActions_readFrame hr, readActions_eq, List.length_append, List.length_append, List.length_append]
  exact ⟨((headerRun.trans turnaroundRun).trans dataRun).trans closingRun, closing.afterActions .discard⟩

/-- Behind a read frame the turnaround's Sample decides the result (42_frame_engine R234). -/
theorem State.resultOfRead_afterReadFrame (s : State) (phy reg : Addr5) (v : Value) :
    (s.afterReadFrame phy reg).resultOfRead v =
      if s.params.checkTa && dataIn (sampleAnswer s.draws) then .err (.noPhyResponse s.sampledWord) else .ok v := by
  simp only [State.resultOfRead, State.afterReadFrame]
  by_cases checked : s.params.checkTa <;> simp [checked]

/-! #### From the accept to the finish -/

section transaction
variable {s : State} (h : Coherent s) (hb : s.busy = false)
include h hb

/-- An accepted request's frame is in flight, and with no input waiting only the framer can move. -/
theorem Coherent.inFrame_afterAccept (hi : s.inbox = []) (c : Nat) (i : Instr) (j : Job) (x : Transaction) :
    (s.afterAccept c i j x).InFrame s.params x [] (frameActions s.params x) :=
  ⟨rfl, h.hookWaits_of_idle hb, hi, rfl, rfl, rfl, rfl⟩

/-- A job that was accepted at IDLE and has ended leaves nothing but data, record and draws (42_frame_engine R232). -/
theorem Coherent.afterFinish_afterAccept (c : Nat) (i : Instr) (j : Job) (x : Transaction) (rdata : Word)
    (ta : Option Bool) (lines : Option DriveWord) (trace : List Event) (draws pc : Nat) (r : Result) :
    ({ s.afterAccept c i j x with rdata := rdata, ta := ta, lines := lines, trace := trace, draws := draws, pc := pc } :
      State).afterFinish c r =
      { s with rdata := rdata, ta := ta, lines := lines, trace := trace ++ [.respond c r], draws := draws } := by
  have noJob : s.job = none := by simpa [hb] using h.job_iff
  have noOwner : s.owner = none := by simpa [hb] using h.owner_iff
  have noTxn : s.txn = none := by simpa [hb] using h.txn_iff
  obtain ⟨noActions, atStart⟩ := h.idle_empty hb
  have notWaiting : pendingFind s.pending c = none := by
    simpa [State.isWaiting] using h.not_isWaiting_of_idle hb c
  rw [← State.finish_eq_afterFinish]
  simp [State.finish, State.afterAccept, pendingErase_pendingPut notWaiting, hb, noJob, noOwner, noTxn, noActions,
    atStart]

/-- MDIO_READ's run from its accept on (42_frame_engine R224, R230 to R234, R236, R237). -/
theorem Coherent.runsTo_read (hi : s.inbox = []) (c : Nat) (i : Instr) (phy reg : Nat) :
    RunsTo ((readActions s.params (BitVec.ofNat 5 phy) (BitVec.ofNat 5 reg)).length + 1)
      (s.afterAccept c i (.frame (.read phy reg)) (.read (BitVec.ofNat 5 phy) (BitVec.ofNat 5 reg)))
      { s with
        rdata := s.sampledWord
        ta := if s.params.checkTa then some (dataIn (sampleAnswer s.draws)) else none
        lines := some 0b000
        draws := s.draws + s.params.checkTa.toNat + 16
        trace := s.trace ++ [.accept c i] ++
          eventsFrom s.draws (readActions s.params (BitVec.ofNat 5 phy) (BitVec.ofNat 5 reg)) ++
          [.respond c (if s.params.checkTa && dataIn (sampleAnswer s.draws) then .err (.noPhyResponse s.sampledWord)
            else .ok (.word s.sampledWord))] } := by
  obtain ⟨run, inFrame⟩ := (h.inFrame_afterAccept hb hi c i (.frame (.read phy reg))
    (.read (BitVec.ofNat 5 phy) (BitVec.ofNat 5 reg))).runsTo_readFrame rfl
  have finish := inFrame.runsTo_finish (framerStep_finish_read (inFrame.atFinish rfl rfl))
  have whole := run.trans finish
  rw [State.resultOfRead_afterReadFrame, State.afterReadFrame, h.afterFinish_afterAccept hb] at whole
  exact whole

end transaction

/-- Settles O51: the accept, the write frame's run and the finish. -/
theorem writeTransactionRunsToIdle : Obligations.WriteTransactionRunsToIdle := by
  intro s c phy reg data h hb hf hi hp hr hd
  refine ⟨_, exec_mdioWrite_accept (h.not_isWaiting_of_idle hb c) hf hb hp hr hd, ?_⟩
  obtain ⟨run, inFrame⟩ := (h.inFrame_afterAccept hb hi c (.mdioWrite c phy reg data) (.frame (.write phy reg data))
    (.write (BitVec.ofNat 5 phy) (BitVec.ofNat 5 reg) (BitVec.ofNat 16 data))).runsTo_writeFrame
  have finish := inFrame.runsTo_finish (framerStep_finish_write (inFrame.atFinish rfl rfl))
  have whole := run.trans finish
  rw [State.afterWriteFrame, h.afterFinish_afterAccept hb, BitVec.toNat_ofNat, Nat.mod_eq_of_lt (a := data) (by omega)]
    at whole
  exact whole

/-- Settles O52: the accept, the read frame's run and the finish. -/
theorem readTransactionRunsToIdle : Obligations.ReadTransactionRunsToIdle := by
  intro s c phy reg h hb hf hi hp hr events
  have accept := exec_mdioRead_accept (c := c) (h.not_isWaiting_of_idle hb c) hf hb hp hr
  have run := h.runsTo_read hb hi c (.mdioRead c phy reg) phy reg
  rw [length_readActions, State.sampledWord] at run
  refine ⟨fun hta => ⟨_, accept, ?_⟩, fun hta => ⟨_, accept, ?_⟩⟩ <;> rw [hta] at run <;> exact run

end Sys2Proof.Machine

/-! ### The client operations as requests (43_client R272, R273, R275, R277, R279, R280) -/

namespace Sys2Proof.Machine

open Sys2Proof.Config

section startJob
variable {s : State} {c : Nat} {i : Instr} {r : Except Error (Job × Transaction)} (hw : s.isWaiting c = false)
include hw

/-- A free caller's bus-using request is answered with the error of the check that fails (60_exceptions R322). -/
theorem State.startJob_of_error {e : Error} (hr : r = .error e) : s.startJob c i r = .next (s.afterError c e) :=
  hr ▸ State.startJob_error hw

/-- A free caller's bus-using request is accepted when every check passes (42_frame_engine R228). -/
theorem State.startJob_of_ok {j : Job} {x : Transaction} (hr : r = .ok (j, x)) :
    s.startJob c i r = .next (s.afterAccept c i j x) :=
  hr ▸ State.startJob_ok hw

end startJob

/-! #### The checks that the client adds -/

section clientChecks
variable {α : Type} {a : Nat} (next : Except Error α)

/-- A client operation's first two checks pass after FREEZE and for a phy address (43_client R272, R273, R280). -/
theorem clientChecks_passed {next : Except Error α} {s : State} {phy : Nat} (hf : s.frozen = true) (hp : phy ≤ 31) :
    s.needFrozen (checkArg "phy" phy 31 next) = next := by
  rw [State.needFrozen_of_frozen hf, checkArg_of_le _ hp]

/-- `refuse` sends nothing to an extended register (43_client R277). -/
theorem checkBank_of_refused {ext : ExtAccess} (ha : 31 < a) (hm : a ≤ 63) (he : ext = .refuse) :
    checkBank ext a next = .error (.extendedUnsupported a) := by
  subst he
  exact if_pos ((isExtended_iff hm).2 ha)

/-- A base register passes, and an extended one with a supplied EXT_ACCESS (43_client R271, R277). -/
theorem checkBank_of_reachable {ext : ExtAccess} (h : a ≤ 31 ∨ ext = .supplied) : checkBank ext a next = next := by
  rcases h with ha | rfl
  · cases ext with
    | refuse => exact if_neg (Bool.eq_false_iff.1 (isExtended_of_le ha))
    | supplied => rfl
  · rfl

/-- A base view of another register is refused (43_client R275). -/
theorem checkBaseView_of_other {v : FieldView} (h : v.addr ≠ a) :
    checkBaseView a (some v) next = .error (.registerMismatch a v.addr) := if_pos h

theorem checkBaseView_of_same {base : Option FieldView} (h : ∀ v, base = some v → v.addr = a) :
    checkBaseView a base next = next := by
  cases base with
  | none => rfl
  | some v => exact if_neg (not_not.2 (h v rfl))

theorem withField_some {r : RegDef} {n : String} {d : FieldDef} (f : FieldDef → Except Error α)
    (h : r.field? n = some d) : withField a r n f = f d := by rw [withField, h]

theorem withField_none {r : RegDef} {n : String} (f : FieldDef → Except Error α) (h : r.field? n = none) :
    withField a r n f = .error (.unknownField a n) := by rw [withField, h]

end clientChecks

theorem baseWord_eq_getD (base : Option FieldView) : baseWord base = (base.map FieldView.word).getD 0 := by
  cases base <;> rfl

/-! #### The finish of several transactions -/

/-- The finish of one transaction of a supplied EXT_ACCESS, case by case (43_client R277). -/
theorem finishExt_result (c : Nat) (last : Result) (again : List Transaction → Job) (rest : List Transaction)
    (s : State) :
    (s.ReadUnanswered → finishExt c last again rest s = .next (s.afterFinish c (.err (.noPhyResponse s.rdata)))) ∧
    (¬ s.ReadUnanswered → rest = [] → finishExt c last again rest s = .next (s.afterFinish c last)) ∧
    (¬ s.ReadUnanswered → ∀ x xs, rest = x :: xs →
      finishExt c last again rest s = .next (s.afterStage (again xs) x)) := by
  rcases finishExt_cases c last again rest s with
    ⟨unanswered, e⟩ | ⟨answered, rfl, e⟩ | ⟨answered, x, xs, rfl, e⟩
  · exact ⟨fun _ => e, fun h => absurd unanswered h, fun h => absurd unanswered h⟩
  · exact ⟨fun h => absurd h answered, fun _ _ => e, fun _ _ _ h => nomatch h⟩
  · refine ⟨fun h => absurd h answered, fun _ h => absurd h (List.cons_ne_nil x xs), fun _ y ys h => ?_⟩
    cases h
    exact e

/-! #### READ_REGISTER (43_client R272) -/

section readRegister
variable {s : State} {c phy a : Nat}

/-- For a register that REGMAP holds, what is left are the bank's check and the busy guard. -/
theorem readRegisterJob_of_known {r : RegDef} (hf : s.frozen = true) (hp : phy ≤ 31) (ha : a ≤ 63)
    (hr : regFind s.regmap a = some r) :
    readRegisterJob s phy a = checkBank s.params.extAccess a (s.needIdle (.ok (readPlan phy a))) := by
  rw [readRegisterJob, clientChecks_passed hf hp, checkAddr_of_le _ ha, withReg_some _ hr]

/-- The finish of the one frame of a base register (42_frame_engine R232, R234). -/
theorem framerStep_finish_readReg (h : s.atFinish (.readReg phy a) c) :
    framerStep s = .next (s.afterFinish c (s.resultOfRead (.view ⟨a, s.rdata⟩))) := by
  rw [framerStep_atFinish h, finishJob, s.finish_eq_afterFinish, s.readResult_eq_resultOfRead]

end readRegister

/-- Settles O54: the checks in their order, then the load of the plan's first transaction; and the finishes. -/
theorem readRegisterResult : Obligations.ReadRegisterResult := by
  refine ⟨?_, fun _ _ _ _ => framerStep_finish_readReg, fun s c phy a rest h => ?_⟩
  · intro s c phy a hw i
    refine ⟨fun hf => ?_, fun hf hp => ?_, fun hf hp ha => ?_, fun hf hp ha hr => ?_, fun r hf hp ha hr => ?_⟩
    · exact State.startJob_of_error hw (State.needFrozen_of_not_frozen hf _)
    · refine State.startJob_of_error hw ?_
      rw [readRegisterJob, State.needFrozen_of_frozen hf, checkArg_of_gt _ hp]
    · refine State.startJob_of_error hw ?_
      rw [readRegisterJob, clientChecks_passed hf hp, checkAddr_of_gt _ ha]
    · refine State.startJob_of_error hw ?_
      rw [readRegisterJob, clientChecks_passed hf hp, checkAddr_of_le _ ha, withReg_none _ hr]
    · have known := readRegisterJob_of_known hf hp ha hr
      refine ⟨fun hx he => ?_, fun hx hb => ?_, fun hx hb => ?_, fun hx he hb => ?_⟩
      · exact State.startJob_of_error hw (known.trans (checkBank_of_refused _ hx ha he))
      · refine State.startJob_of_error hw ?_
        rw [known, checkBank_of_reachable _ hx, State.needIdle_of_busy hb]
      · refine State.startJob_of_ok hw ?_
        rw [known, checkBank_of_reachable _ (.inl hx), State.needIdle_of_idle hb, readPlan_base phy hx]
      · refine State.startJob_of_ok hw ?_
        rw [known, checkBank_of_reachable _ (.inr he), State.needIdle_of_idle hb, readPlan_extended phy hx ha]
  · rw [framerStep_atFinish h]
    exact finishExt_result c _ (.extRead phy a) rest s

/-! #### WRITE_REGISTER (43_client R273, R275) -/

section writeRegister
variable {s : State} {k phy a : Nat} {F : FieldMap} {base : Option FieldView} {r : RegDef}

section known
variable (hf : s.frozen = true) (hp : phy ≤ 31) (ha : a ≤ 63) (hr : regFind s.regmap a = some r)
include hf hp ha hr

theorem writeRegisterJob_of_otherBase {v : FieldView} (hv : v.addr ≠ a) :
    writeRegisterJob s k phy a F (some v) = .error (.registerMismatch a v.addr) := by
  rw [writeRegisterJob, clientChecks_passed hf hp, checkAddr_of_le _ ha, withReg_some _ hr,
    checkBaseView_of_other _ hv]

variable (hv : ∀ v, base = some v → v.addr = a)
include hv

/-- PACK's error is WRITE_REGISTER's (43_client R273). -/
theorem writeRegisterJob_of_packError {e : Error}
    (h : packWord s.params.packMerge k s.regmap a F (baseWord base).toNat = .error e) :
    writeRegisterJob s k phy a F base = .error e := by
  rw [writeRegisterJob, clientChecks_passed hf hp, checkAddr_of_le _ ha, withReg_some _ hr,
    checkBaseView_of_same _ hv, h]

/-- With a packed word, what is left are the bank's check and the busy guard. -/
theorem writeRegisterJob_of_packed {w : Word}
    (h : packWord s.params.packMerge k s.regmap a F (baseWord base).toNat = .ok w) :
    writeRegisterJob s k phy a F base =
      checkBank s.params.extAccess a (s.needIdle (.ok (writePlan phy a F base w))) := by
  rw [writeRegisterJob, clientChecks_passed hf hp, checkAddr_of_le _ ha, withReg_some _ hr,
    checkBaseView_of_same _ hv, h]

end known

/-- The finish of the one frame of a base register (42_frame_engine R232). -/
theorem framerStep_finish_writeReg {c : Nat} {w : Word} (h : s.atFinish (.writeReg phy a F base w) c) :
    framerStep s = .next (s.afterFinish c (.ok .unit)) :=
  (framerStep_atFinish h).trans (congrArg Host.Outcome.next (s.finish_eq_afterFinish ..))

end writeRegister

/-- Settles O55: the checks in their order, then the load of the plan's first transaction; and the finishes. -/
theorem writeRegisterResult : Obligations.WriteRegisterResult := by
  refine ⟨?_, fun _ _ _ _ _ _ _ => framerStep_finish_writeReg, fun s c phy a F base w rest h => ?_⟩
  · intro s c phy a F base hw i s' b
    have sameBase : (baseWord base).toNat = b.toNat := congrArg BitVec.toNat (baseWord_eq_getD base)
    refine ⟨fun hf => ?_, fun hf hp => ?_, fun hf hp ha => ?_, fun hf hp ha hr => ?_, fun r hf hp ha hr =>
      ⟨?_, fun hv => ⟨fun e he => ?_, fun w hok => ?_⟩⟩⟩
    · exact State.startJob_of_error (s := s.tick) hw (State.needFrozen_of_not_frozen hf _)
    · refine State.startJob_of_error (s := s.tick) hw ?_
      rw [writeRegisterJob, State.needFrozen_of_frozen hf, checkArg_of_gt _ hp]
    · refine State.startJob_of_error (s := s.tick) hw ?_
      rw [writeRegisterJob, clientChecks_passed hf hp, checkAddr_of_gt _ ha]
    · refine State.startJob_of_error (s := s.tick) hw ?_
      rw [writeRegisterJob, clientChecks_passed hf hp, checkAddr_of_le _ ha, withReg_none _ hr]
    · rintro v rfl hv
      exact State.startJob_of_error (s := s.tick) hw (writeRegisterJob_of_otherBase hf hp ha hr hv)
    · rw [← sameBase] at he
      exact State.startJob_of_error (s := s.tick) hw (writeRegisterJob_of_packError hf hp ha hr hv he)
    · rw [← sameBase] at hok
      have job := writeRegisterJob_of_packed hf hp ha hr hv hok
      refine ⟨fun hx he => ?_, fun hx hb => ?_, fun hx hb => ?_, fun hx he hb => ?_⟩
      · exact State.startJob_of_error (s := s.tick) hw (job.trans (checkBank_of_refused _ hx ha he))
      · refine State.startJob_of_error (s := s.tick) hw ?_
        rw [job, checkBank_of_reachable _ hx, State.needIdle_of_busy hb]
      · refine State.startJob_of_ok (s := s.tick) hw ?_
        rw [job, checkBank_of_reachable _ (.inl hx), State.needIdle_of_idle hb, writePlan_base phy F base w hx]
      · refine State.startJob_of_ok (s := s.tick) hw ?_
        rw [job, checkBank_of_reachable _ (.inr he), State.needIdle_of_idle hb, writePlan_extended phy F base w hx ha]
  · rw [framerStep_atFinish h]
    exact finishExt_result c _ (.extWrite phy a F base w) rest s

/-! #### RESET (43_client R279, R280) -/

section reset
variable {s : State} {c phy : Nat}

/-- With a reset field in the control register, only the busy guard is left (42_frame_engine R229). -/
theorem resetJob_of_known {r : RegDef} {f : FieldDef} (hf : s.frozen = true) (hp : phy ≤ 31)
    (hr : regFind s.regmap 0 = some r) (hd : r.field? "reset" = some f) :
    resetJob s phy = s.needIdle (.ok (.resetRead phy, .read (BitVec.ofNat 5 phy) 0)) := by
  rw [resetJob, clientChecks_passed hf hp, ctrlRegAddr, withReg_some _ hr, resetField, withField_some _ hd]
  rfl

/-- RESET's accepting step (43_client R280). -/
theorem exec_reset_accept {r : RegDef} {f : FieldDef} (hw : s.isWaiting c = false) (hf : s.frozen = true)
    (hb : s.busy = false) (hp : phy ≤ 31) (hr : regFind s.regmap 0 = some r) (hd : r.field? "reset" = some f) :
    exec (.reset c phy) s = .next (s.afterAccept c (.reset c phy) (.resetRead phy) (.read (BitVec.ofNat 5 phy) 0)) :=
  State.startJob_of_ok hw ((resetJob_of_known hf hp hr hd).trans (State.needIdle_of_idle hb _))

/-- RESET ends at its read when no PHY answers (43_client R280, 42_frame_engine R234). -/
theorem framerStep_finish_resetRead_unanswered (h : s.atFinish (.resetRead phy) c)
    (unanswered : s.params.checkTa = true ∧ s.ta = some true) :
    framerStep s = .next (s.afterFinish c (.err (.noPhyResponse s.rdata))) := by
  rw [framerStep_atFinish h, finishJob, finishResetRead, if_pos (State.noPhy_iff.2 unanswered),
    s.finish_eq_afterFinish]

/-- RESET goes from its read to the write of the packed word (43_client R280). -/
theorem framerStep_finish_resetRead {w : Word} (h : s.atFinish (.resetRead phy) c)
    (answered : ¬ (s.params.checkTa = true ∧ s.ta = some true))
    (hpack : packWord s.params.packMerge 0 s.regmap 0 [("reset", 1)] s.rdata.toNat = .ok w) :
    framerStep s = .next (s.afterStage (.resetWrite phy w) (.write (BitVec.ofNat 5 phy) 0 w)) := by
  rw [framerStep_atFinish h, finishJob, finishResetRead, if_neg (mt State.noPhy_iff.1 answered), ctrlRegAddr,
    resetField, hpack]
  rfl

/-- The finish of RESET's write (43_client R280, R282). -/
theorem framerStep_finish_resetWrite {w : Word} (h : s.atFinish (.resetWrite phy w) c) :
    framerStep s = .next (s.afterFinish c (.ok .unit)) :=
  (framerStep_atFinish h).trans (congrArg Host.Outcome.next (s.finish_eq_afterFinish ..))

end reset

/-- Settles O56: the checks in their order, then the load of the read frame; and the finishes of the two stages. -/
theorem resetOperationResult : Obligations.ResetOperationResult := by
  refine ⟨?_, fun s c phy h => ⟨fun hta ht => framerStep_finish_resetRead_unanswered h ⟨hta, ht⟩,
    fun w => framerStep_finish_resetRead h⟩, fun _ _ _ _ => framerStep_finish_resetWrite⟩
  intro s c phy hw i
  refine ⟨fun hf => ?_, fun hf hp => ?_, fun hf hp hr => ?_, fun r hf hp hr =>
    ⟨fun hd => ?_, fun f hd hb => ?_, fun f hd hb => exec_reset_accept hw hf hb hp hr hd⟩⟩ <;>
    refine State.startJob_of_error hw ?_
  · exact State.needFrozen_of_not_frozen hf _
  · rw [resetJob, State.needFrozen_of_frozen hf, checkArg_of_gt _ hp]
  · rw [resetJob, clientChecks_passed hf hp, ctrlRegAddr, withReg_none _ hr]
  · rw [resetJob, clientChecks_passed hf hp, ctrlRegAddr, withReg_some _ hr, resetField, withField_none _ hd]
  · exact (resetJob_of_known hf hp hr hd).trans (State.needIdle_of_busy hb _)

end Sys2Proof.Machine

/-! ### The whole RESET (43_client R280 to R282, 42_frame_engine R236, R237) -/

namespace Sys2Proof.Machine

open Sys2Proof.Config

/-- A field that PACK under replace sets to 1 has its lowest bit 1 and the others 0; the rest is the base's (43_client
R280, 40_register_model R155). -/
theorem getLsbD_of_packWord_one {m : RegMap} {k a b : Nat} {n : String} {r : RegDef} {f : FieldDef} {w : Word}
    (hr : regFind m a = some r) (hf : r.field? n = some f) (h : packWord .replace k m a [(n, 1)] b = .ok w) {p : Nat}
    (hp : p < 16) :
    w.getLsbD p = if f.covers p then decide (p = f.off) else (BitVec.ofNat 16 b).getLsbD p := by
  obtain ⟨_, _, _, hfit, hagree, rfl⟩ := packWord_ok_of_regFind hr h
  by_cases hc : f.covers p = true
  · have above : f.off ≤ p := by
      simp only [FieldDef.covers, Bool.and_eq_true, decide_eq_true_eq] at hc
      exact hc.1
    rw [if_pos hc, mergeAll_covered _ _ _ _ _ hp hfit hagree (n, 1) (List.mem_singleton.2 rfl) f hf hc,
      Bool.eq_iff_iff]
    simp only [Nat.testBit_one_eq_true_iff_self_eq_zero, Bool.or_eq_true, Bool.and_eq_true, decide_eq_true_eq,
      beq_iff_eq, reduceCtorEq, and_false, or_false]
    omega
  · have uncovered : ¬ CoveredBy r [(n, 1)] p := by
      simp [CoveredBy, hf, hc]
    rw [if_neg hc, mergeAll_uncovered _ _ _ _ _ hp hfit uncovered]

/-- A stage's frame follows the frame that has ended, the bus held (43_client R280, R282). -/
theorem State.InFrame.afterStage {s : State} {p : Params} {x : Transaction} {done : List Action}
    (h : s.InFrame p x done []) (j : Job) (y : Transaction) :
    (s.afterStage j y).InFrame p y [] (frameActions p y) :=
  ⟨h.busy, h.hookReturns, h.alone, h.params, rfl, congrArg (frameActions · y) h.params, rfl⟩

section reset
variable {s : State} (h : Coherent s) (hb : s.busy = false)
include h hb

/-- RESET's run from its accept on, when the PHY answers its read: two frames and one response (43_client R280, R282). -/
theorem Coherent.runsTo_reset (hi : s.inbox = []) (c phy : Nat) (i : Instr) {w : Word}
    (answered : ¬ (s.params.checkTa = true ∧ dataIn (sampleAnswer s.draws) = true))
    (hpack : packWord s.params.packMerge 0 s.regmap 0 [("reset", 1)] s.sampledWord.toNat = .ok w) :
    RunsTo ((readActions s.params (BitVec.ofNat 5 phy) 0).length + 1 + 384 + 1)
      (s.afterAccept c i (.resetRead phy) (.read (BitVec.ofNat 5 phy) 0))
      { s with
        rdata := s.sampledWord
        ta := if s.params.checkTa then some (dataIn (sampleAnswer s.draws)) else none
        lines := some (BitVec.ofNat 3 (4 * (w.toNat % 2) + 2))
        draws := s.draws + s.params.checkTa.toNat + 16
        trace := s.trace ++ [.accept c i] ++ eventsFrom s.draws (readActions s.params (BitVec.ofNat 5 phy) 0) ++
          eventsFrom (s.draws + s.params.checkTa.toNat + 16) (writeActions (BitVec.ofNat 5 phy) 0 w) ++
          [.respond c (.ok .unit)] } := by
  obtain ⟨readRun, readDone⟩ := (h.inFrame_afterAccept hb hi c i (.resetRead phy)
    (.read (BitVec.ofNat 5 phy) 0)).runsTo_readFrame rfl
  have turnaround : ¬ (s.params.checkTa = true ∧
      (if s.params.checkTa then some (dataIn (sampleAnswer s.draws)) else none) = some true) := by
    rintro ⟨checked, bit⟩
    rw [if_pos checked, Option.some.injEq] at bit
    exact answered ⟨checked, bit⟩
  have stage := readDone.runsTo_finish
    (framerStep_finish_resetRead (readDone.atFinish rfl rfl) turnaround hpack)
  obtain ⟨writeRun, writeDone⟩ := (readDone.afterStage (.resetWrite phy w)
    (.write (BitVec.ofNat 5 phy) 0 w)).runsTo_writeFrame
  have finish := writeDone.runsTo_finish (framerStep_finish_resetWrite (writeDone.atFinish rfl rfl))
  rw [← h.afterFinish_afterAccept hb c i (.resetRead phy) (.read (BitVec.ofNat 5 phy) 0) (pc := 384)]
  exact ((readRun.trans stage).trans writeRun).trans finish

end reset

/-- Settles O53: the accept, the read frame's run, the next stage's load, the write frame's run and the finish. -/
theorem resetTransactionRunsToIdle : Obligations.ResetTransactionRunsToIdle := by
  intro s c phy r f h hb hf hi hp hta hmode hr hd read
  have sampled : s.sampledWord = read := by rw [State.sampledWord, hta]; rfl
  obtain ⟨w, hpack⟩ := packWord_single_one (mode := s.params.packMerge) (k := 0) (Nat.zero_le 63) h.regmap_wf hr hd
    s.sampledWord
  refine ⟨_, w, exec_reset_accept (h.not_isWaiting_of_idle hb c) hf hb hp hr hd, fun p hp => ?_, ?_⟩
  · rw [hmode] at hpack
    rw [getLsbD_of_packWord_one hr hd hpack hp, BitVec.ofNat_toNat, BitVec.setWidth_eq, sampled]
  · have run := h.runsTo_reset hb hi c phy (.reset c phy) (by simp [hta]) hpack
    rw [length_readActions, sampled, hta] at run
    exact run

end Sys2Proof.Machine

/-! ### The error table and the refusal mark (60_exceptions R300, R321; 42_frame_engine R238) -/

namespace Sys2Proof.Machine

/-- Settles O58: no code depends on the information that its error carries. -/
theorem errorCodesOfTheTable : Obligations.ErrorCodesOfTheTable := fun _ _ _ _ _ _ _ _ => rfl

/-- A record that is no caller's request sets the mark and does nothing else (60_exceptions R321). -/
theorem takeRecord_of_recordCaller_none {bytes : List Byte} (h : recordCaller bytes = none) (s : State) :
    takeRecord bytes s = .next { s with refusalMark := true } := by
  rcases takeRecord_cases bytes s with ⟨i, c, hd, hc, _⟩ | ⟨_, e⟩
  · rw [recordCaller_of_decodeRecord hd, hc] at h
    cases h
  · exact e

theorem recordCaller_of_decodeRecord_error {bytes : List Byte} {e : DecodeError} (hd : decodeRecord bytes = .error e) :
    recordCaller bytes = none := by
  rw [recordCaller, hd]

/-- Settles O46: the two selectors' meaning is the mark, and the records named are no caller's request. -/
theorem invalidRecordsAreRefused : Obligations.InvalidRecordsAreRefused := fun s _ =>
  ⟨rfl, rfl, fun _ _ hd => takeRecord_of_recordCaller_none (recordCaller_of_decodeRecord_error hd) s,
    fun _ _ hd hc => takeRecord_of_recordCaller_none ((recordCaller_of_decodeRecord hd).trans hc) s⟩

end Sys2Proof.Machine

/-! ### What a request's answer is (60_exceptions R310, R322, R323; 42_frame_engine R228, R231) -/

namespace Sys2Proof.Machine

/-- Settles O59: of a request's next states only the one after an error records exactly an error. -/
theorem requestErrorChangesNothing : Obligations.RequestErrorChangesNothing := by
  intro i c e s t hc ht htrace
  obtain ⟨d, rfl | ⟨e', rfl⟩ | ⟨_, m, f, v, rfl, _⟩ | ⟨_, j, x, _, rfl⟩⟩ := exec_next_cases hc ht
  · have none_recorded : s.trace = s.trace ++ [.respond c (.err e)] := htrace
    simp at none_recorded
  · have recorded : [Event.respond c (.err e')] = [.respond c (.err e)] := List.append_cancel_left htrace
    cases recorded
    rfl
  · have recorded : [Event.accept c i, .respond c (.ok v)] = [.respond c (.err e)] := List.append_cancel_left htrace
    cases recorded
  · have recorded : [Event.accept c i] = [.respond c (.err e)] := List.append_cancel_left htrace
    cases recorded

/-- A result whose state has the record and the outstanding requests of `s`. -/
def KeepsRecord (s : State) (r : Except Error (Value × State)) : Prop :=
  ∀ v t, r = .ok (v, t) → t.trace = s.trace ∧ t.pending = s.pending

namespace KeepsRecord
variable {s : State} {next : Except Error (Value × State)}

theorem error (e : Error) : KeepsRecord s (.error e) := fun _ _ h => nomatch h

theorem ok {v : Value} {t : State} (ht : t.trace = s.trace) (hp : t.pending = s.pending) :
    KeepsRecord s (.ok (v, t)) := by
  rintro _ _ ⟨⟩
  exact ⟨ht, hp⟩

theorem ite {p : Prop} [Decidable p] {r : Except Error (Value × State)} (hr : KeepsRecord s r)
    (h : KeepsRecord s next) : KeepsRecord s (if p then r else next) := by
  split
  · exact hr
  · exact h

theorem map {α : Type} (r : Except Error α) (f : α → Value) {t : State} (ht : t.trace = s.trace)
    (hp : t.pending = s.pending) : KeepsRecord s (r.map fun x => (f x, t)) := by
  cases r with
  | error e => exact error e
  | ok x => exact ok ht hp

theorem needUnfrozen (h : KeepsRecord s next) : KeepsRecord s (s.needUnfrozen next) := (error _).ite h

theorem checkAddr (a : Nat) (h : KeepsRecord s next) : KeepsRecord s (checkAddr a next) := (error _).ite h

theorem withReg (m : RegMap) (a : Nat) {f : RegDef → Except Error (Value × State)} (h : ∀ r, KeepsRecord s (f r)) :
    KeepsRecord s (withReg m a f) := by
  unfold Machine.withReg
  split
  · exact h _
  · exact error _

end KeepsRecord

/-- An operation that does not use the bus is one answer, and its result keeps the record (42_frame_engine R228). -/
theorem exec_eq_answer {s : State} {i : Instr} {c : Nat} (hu : usesBus i = false) (hc : callerOf i = some c)
    (hs : spellsOperation s.regmap i = true) :
    ∃ d r, exec i s = ({ s with draws := d } : State).answer c i r ∧ KeepsRecord s r := by
  cases i <;> cases hu <;> cases hc
  case invalid0 | invalidF => cases hs
  case viewGet | viewFields =>
    obtain ⟨r, hr⟩ := Option.isSome_iff_exists.1 hs
    exact ⟨s.draws, _, State.answerView_of_regFind_some hr, .map _ id rfl rfl⟩
  case defineRegister addr width name =>
    exact ⟨s.draws, _, rfl, .needUnfrozen (.checkAddr _ (.ite (.error _) (.ite (.error _) (.ok rfl rfl))))⟩
  case defineField addr name off w =>
    exact ⟨s.draws, _, rfl,
      .needUnfrozen (.checkAddr _ (.withReg _ _ fun _ => .ite (.error _) (.ite (.error _) (.ok rfl rfl))))⟩
  case freeze => exact ⟨s.draws, _, rfl, .needUnfrozen (.ok rfl rfl)⟩
  case lookup addr => exact ⟨s.draws, _, rfl, .checkAddr _ (.withReg _ _ fun _ => .ok rfl rfl)⟩
  case pack addr F base => exact ⟨s.draws + 1, _, rfl, .map _ .word rfl rfl⟩
  case unpack addr word =>
    exact ⟨s.draws, _, rfl, .checkAddr _ (.withReg _ _ fun _ => .ite (.error _) (.ok rfl rfl))⟩
  case reverse v n => exact ⟨s.draws, _, rfl, .ite (.error _) (.ok rfl rfl)⟩

/-- A caller waits as its outstanding requests say (10_state R50). -/
theorem State.isWaiting_of_pending_eq {s t : State} (h : t.pending = s.pending) (c : Nat) :
    t.isWaiting c = s.isWaiting c :=
  congrArg (fun l => (pendingFind l c).isSome) h

/-- Settles O60: an operation that does not use the bus is one answer, and one that does is an error or an accept. -/
theorem requestIsAnsweredOnceOrAccepted : Obligations.RequestIsAnsweredOnceOrAccepted := by
  intro i c s hc hs hw
  cases hu : usesBus i
  · obtain ⟨d, r, he, keeps⟩ := exec_eq_answer hu hc hs
    rw [he]
    rcases ({ s with draws := d } : State).answer_cases c i r with
      ⟨waits, _⟩ | ⟨_, v, s', hr, e⟩ | ⟨_, err, _, e⟩
    · cases hw.symm.trans waits
    · obtain ⟨htrace, hpending⟩ := keeps v s' hr
      exact ⟨_, e, .inr (.inl ⟨v, congrArg (· ++ _) htrace, rfl, (State.isWaiting_of_pending_eq hpending c).trans hw⟩)⟩
    · exact ⟨_, e, .inl ⟨err, rfl, hw⟩⟩
  · obtain ⟨d, ⟨waits, _⟩ | ⟨_, err, e⟩ | ⟨_, j, x, _, e⟩⟩ := exec_bus_cases s hu hc
    · cases hw.symm.trans waits
    · exact ⟨_, e, .inl ⟨err, rfl, hw⟩⟩
    · exact ⟨_, e, .inr (.inr ⟨rfl, rfl, (State.isWaiting_afterAccept _ c c i j x).2 (.inl rfl), rfl, rfl⟩)⟩

end Sys2Proof.Machine

/-! ### What every step keeps and records (00_scope R8; 42_frame_engine R231; 60_exceptions R321; 70 R354) -/

namespace Sys2Proof.Machine

/-! #### The refusal mark and the parameters (60_exceptions R321; log entry 1) -/

/-- From `s` to `t` a mark that is set stays, and the parameters do not change. -/
def MarkAndParamsKept (s t : State) : Prop :=
  (s.refusalMark = true → t.refusalMark = true) ∧ t.params = s.params

theorem exec_keeps_markAndParams {s t : State} {i : Instr} {c : Nat} (hc : callerOf i = some c)
    (ht : exec i s = .next t) : MarkAndParamsKept s t := by
  obtain ⟨d, rfl | ⟨e, rfl⟩ | ⟨_, m, f, v, rfl, _⟩ | ⟨_, j, x, _, rfl⟩⟩ := exec_next_cases hc ht
  · exact ⟨fun _ => rfl, rfl⟩
  · exact ⟨id, rfl⟩
  · exact ⟨id, rfl⟩
  · exact ⟨id, rfl⟩

theorem takeRecord_keeps_markAndParams {s t : State} {bytes : List Byte} (ht : takeRecord bytes s = .next t) :
    MarkAndParamsKept s t := by
  rcases takeRecord_cases bytes s with ⟨i, c, _, hc, e⟩ | ⟨_, e⟩ <;> rw [e] at ht
  · exact exec_keeps_markAndParams hc ht
  · cases ht
    exact ⟨fun _ => rfl, rfl⟩

theorem takeInput_keeps_markAndParams {s t : State} {inp : Input} (ht : takeInput inp s = .next t) :
    MarkAndParamsKept s t := by
  rcases takeInput_cases inp s with ⟨_, e⟩ | ⟨bytes, _, e⟩ | ⟨bytes, w, _, e⟩ <;> rw [e] at ht
  · cases ht
    exact ⟨id, rfl⟩
  · exact takeRecord_keeps_markAndParams ht
  · exact takeRecord_keeps_markAndParams (s := s.hookAsks bytes w) ht

theorem framerStep_keeps_markAndParams {s t : State} (ht : framerStep s = .next t) : MarkAndParamsKept s t := by
  rcases framerStep_next_cases ht with ⟨a, _, rfl⟩ | ⟨c, r, _, rfl⟩ | ⟨j, x, rfl, _⟩
  · rw [State.performTo_frame]
    exact ⟨id, rfl⟩
  · exact ⟨id, rfl⟩
  · exact ⟨id, rfl⟩

theorem step_keeps_markAndParams {s t : State} (ht : step s = .next t) : MarkAndParamsKept s t := by
  rcases step_cases s with ⟨_, e⟩ | ⟨_, _, _, e⟩ | ⟨inp, rest, _, _, e⟩ <;> rw [e] at ht
  · cases ht
    exact ⟨id, rfl⟩
  · simpa [MarkAndParamsKept] using framerStep_keeps_markAndParams ht
  · simpa [MarkAndParamsKept] using takeInput_keeps_markAndParams ht

/-! #### The record (00_scope R8, 42_frame_engine R231) -/

/-- The framer's step records at most one event: an action's, or a response (42_frame_engine R230, R232). -/
theorem framerStep_records {s t : State} (ht : framerStep s = .next t) :
    ∃ es, t.trace = s.trace ++ es ∧ es.length ≤ 1 := by
  rcases framerStep_next_cases ht with ⟨a, _, rfl⟩ | ⟨c, r, _, rfl⟩ | ⟨j, x, rfl, _⟩
  · refine ⟨eventsFrom s.draws [a], congrArg State.trace (s.performAll_frame _ [a]), ?_⟩
    cases a <;> exact Nat.le_refl 1
  · exact ⟨[.respond c r], rfl, Nat.le_refl 1⟩
  · exact ⟨[], (List.append_nil _).symm, Nat.zero_le 1⟩

/-- A step performs at most one transport action, and none without a job (00_scope R8). -/
theorem step_records {s t : State} (ht : step s = .next t) :
    ∃ es, t.trace = s.trace ++ es ∧ es.countP Event.isAction ≤ 1 ∧
      (s.busy = false → es.countP Event.isAction = 0) := by
  rcases step_cases s with ⟨_, e⟩ | ⟨_, hb, _, e⟩ | ⟨inp, rest, _, _, e⟩ <;> rw [e] at ht
  · cases ht
    exact ⟨[], by simp, by simp, by simp⟩
  · obtain ⟨es, hes, hlen⟩ := framerStep_records ht
    exact ⟨es, by simpa using hes, List.countP_le_length.trans hlen, by simp [hb]⟩
  · obtain ⟨es, hes, hno⟩ := takeInput_records_noAction ht
    have no_action : es.countP Event.isAction = 0 := List.countP_eq_zero.2 (by simpa using hno)
    exact ⟨es, by simpa using hes, by omega, fun _ => no_action⟩

/-! #### A run that has ended (70_reset_and_hazards R354; log entry 25) -/

theorem State.ended_iff {s : State} :
    s.ended = true ↔ s.pending = [] ∧ s.busy = false ∧ ∀ inp ∈ s.inbox, s.willIssue inp = false := by
  simp [State.ended, and_assoc]

/-- Which requests are to come depends on N_CALLERS alone. -/
theorem State.willIssue_of_params_eq {s t : State} (h : t.params = s.params) (inp : Input) :
    t.willIssue inp = s.willIssue inp := by
  cases inp <;> simp only [State.willIssue, h]

/-- An idle state with nothing pending and no new input has ended like the one before it. -/
theorem State.ended_of_inbox_subset {s t : State} (h : s.ended = true) (hp : t.pending = []) (hb : t.busy = false)
    (hparams : t.params = s.params) (hi : t.inbox ⊆ s.inbox) : t.ended = true := by
  obtain ⟨_, _, hno⟩ := State.ended_iff.1 h
  exact State.ended_iff.2 ⟨hp, hb, fun inp hm => (State.willIssue_of_params_eq hparams inp).trans (hno inp (hi hm))⟩

/-- After the end of a run only a block reset and records of no caller can move: no frame is in flight for the hook to
run in, and no caller's request is to come. -/
theorem State.input_of_ended {s : State} {inp : Input} (h : s.ended = true) (hm : inp ∈ s.inbox)
    (hr : s.ready inp = true) : inp = .blockReset ∨ ∃ bytes, inp = .record bytes ∧ recordCaller bytes = none := by
  obtain ⟨_, hb, hno⟩ := State.ended_iff.1 h
  cases inp with
  | blockReset => exact .inl rfl
  | hook bytes w =>
    have running := State.inHook_of_ready_hook hr
    simp [State.inHook, hb] at running
  | record bytes =>
    refine .inr ⟨bytes, rfl, ?_⟩
    cases hc : recordCaller bytes with
    | none => rfl
    | some c =>
      have not_caller := hno _ hm
      simp [State.willIssue, hc, ((State.ready_record_iff hc).1 hr).1] at not_caller

/-- An ended run stays ended and records nothing more (70_reset_and_hazards R354). -/
theorem step_of_ended {s t : State} (h : s.ended = true) (ht : step s = .next t) :
    t.ended = true ∧ t.trace = s.trace := by
  obtain ⟨hp, hb, _⟩ := State.ended_iff.1 h
  rcases step_cases s with ⟨_, e⟩ | ⟨_, busy, _⟩ | ⟨inp, rest, hmove, hr, e⟩
  · cases e.symm.trans ht
    exact ⟨h, rfl⟩
  · cases hb.symm.trans busy
  · obtain ⟨before, after, hi, rfl, _⟩ := State.input_mem_moves.1 (State.mover_mem hmove)
    have subset : before ++ after ⊆ s.inbox := by
      rw [hi]
      exact ((List.sublist_cons_self inp after).append_left before).subset
    rcases State.input_of_ended h (by simp [hi]) hr with rfl | ⟨bytes, rfl, hc⟩
    · cases e.symm.trans ht
      exact ⟨State.ended_of_inbox_subset h rfl rfl s.settleTurn_params subset, s.settleTurn_trace⟩
    · cases (e.trans (takeRecord_of_recordCaller_none hc _)).symm.trans ht
      exact ⟨State.ended_of_inbox_subset h (s.settleTurn_pending.trans hp) (s.settleTurn_busy.trans hb)
        s.settleTurn_params subset, s.settleTurn_trace⟩

/-- Settles O10: by the move that the step makes, clause by clause. -/
theorem markKeptAndTraceOnlyGrows : Obligations.MarkKeptAndTraceOnlyGrows := by
  intro s t ht
  obtain ⟨mark, params⟩ := step_keeps_markAndParams ht
  exact ⟨mark, params, fun h => step_of_ended h ht, step_records ht⟩

end Sys2Proof.Machine

/-! ### Block reset (70_reset_and_hazards R340 to R342; 10_state R49) -/

namespace Sys2Proof.Machine

/-- A waiting block reset can be the move whatever else waits: it is always ready and has no caller's order to keep. -/
theorem State.exists_mover_blockReset {s : State} {before after : List Input}
    (hi : s.inbox = before ++ .blockReset :: after) :
    ∃ k, ({ s with turn := k } : State).mover = some (.input .blockReset (before ++ after)) :=
  State.mover_of_mem (State.input_mem_moves.2 ⟨before, after, hi, rfl, rfl, fun _ _ => rfl⟩)

/-- Besides the block reset itself, the step only redraws the turn and takes the input out of the inbox (log entries 4,
17). -/
theorem step_of_mover_blockReset {s : State} {rest : List Input} (h : s.mover = some (.input .blockReset rest)) :
    step s = .next (State.blockReset { s.settleTurn with inbox := rest }) :=
  step_of_mover h

/-- An idle block with no input waits (60_exceptions R332). -/
theorem step_of_idle_of_inbox_nil {s : State} (hb : s.busy = false) (hi : s.inbox = []) : step s = .next s :=
  step_of_mover_eq_none (State.mover_none.2 ⟨.inl hb, by simp [hi]⟩)

@[simp] theorem State.blockReset_phase (s : State) : s.blockReset.phase = .idle := rfl

/-- Settles O2: the step is the block reset after the turn is redrawn, which keeps REGMAP, S.frozen and the record; the
state it leaves is idle, and a waiting block reset is always among the moves. -/
theorem blockResetPutsFramerToIdle : Obligations.BlockResetPutsFramerToIdle := by
  refine ⟨fun s rest h => ⟨_, step_of_mover_blockReset h, ?_⟩, fun _ _ _ => State.exists_mover_blockReset⟩
  have waits (hr : rest = []) :=
    step_of_idle_of_inbox_nil (s := State.blockReset { s.settleTurn with inbox := rest }) rfl hr
  simpa using waits

end Sys2Proof.Machine
